-- ==== Sys2Proof/Word.lean ====
section
/-! DEFINITION. The word and byte types of the CC20 core (00_scope.md R7 to R9): unsigned 32-bit words whose
arithmetic wraps. -/

namespace Sys2Proof

/-- R7, R9: every arithmetic value of the core is an unsigned 32-bit word. -/
abbrev Word := BitVec 32

/-- R14: the unit of the message and keystream byte sequences. -/
abbrev Byte := BitVec 8

/-- R60: a byte offset in the core's 16 KiB window. -/
abbrev Offset := BitVec 14

end Sys2Proof
end

