-- ==== Sys2Proof/Config.lean ====
section
/-! DEFINITION. What one CC20 fixes (00_scope.md R8, 10_state.md R25) and the free values of what the spec leaves
open (R13, R43, R44, R49). A constant without a body has no value that any proof can use. -/

namespace Sys2Proof

/-- R8 leaves `MSG_WORDS` open: this says which legal value this core has. Log entry 9. -/
opaque Config.msgWordsChoice : Nat

/-- R8: the capacity of IN and of OUT in words of the core that `exec` and `step` speak of. Every legal value, 16 to
1024, and no other is possible. `Machine.machineAt` takes the capacity as an argument. -/
def Config.msgWords : Nat := 16 + Config.msgWordsChoice % 1009

/-- R8: the legal values of `MSG_WORDS`. -/
def Config.legalMsgWords (mw : Nat) : Bool := decide (16 ≤ mw ∧ mw ≤ 1024)

/-- R8: `MAX_LEN`, the longest message in bytes. -/
def Config.maxLen (mw : Nat) : Nat := 4 * mw

/-- R25: the constant of the ID register. -/
def Config.idValue : Word := 0x43433230#32

/-- R13, R49 (U1): the draw that the n-th read of a datapath register while busy returns. Log entry 6. -/
opaque Config.busyRead : Nat → Word

/-- R43 (U2): what byte `p` of IN holds after reset number `epoch`, until it is written. Log entry 7. -/
opaque Config.inPowerUp : Nat → Nat → Byte

/-- R44 (U2): what byte `p` of OUT holds after reset number `epoch`, until it is written. Log entry 7. -/
opaque Config.outPowerUp : Nat → Nat → Byte

end Sys2Proof
end

