-- ==== Sys2Proof/Syntax.lean ====
section
/-! DEFINITION. The commands of 30_encoding.md R88, one constructor per row of spec/opcode_table.json. No command
carries an operand (R86): each one's operands and results are fixed registers. -/

namespace Sys2Proof

/-- R88: the 15 commands, in the table's order. -/
inductive Instr where
  | nop
  | init
  | block
  | stream
  | dround
  | ffwd
  | qr
  | add
  | xor
  | rotl16
  | rotl12
  | rotl8
  | rotl7
  | keyClr
  | nonceClr
  deriving DecidableEq, Repr

end Sys2Proof
end

