-- ==== Sys2Proof/Machine/State.lean ====
section
/-! DEFINITION. The state of the CC20 core (10_state.md R21, R48, R51), the turns of the agents around it (R20), and
the reasons a step can stop. Plain data. -/

namespace Sys2Proof.Machine

/-- R48: the kind of the next Core step. Its encoding in bits is not architectural (log entry 14). -/
inductive Phase where
  | idle | alu | qrt | load | round | ffwd | xor | fin
  deriving DecidableEq, Repr

/-- R202: the error codes. Codes 7 to 15 are never produced, so they have no constructor (log entry 15). -/
inductive ErrorCode where
  | none
  | invalidKeyLength
  | invalidNonceLength
  | emptyMessage
  | lengthTooLarge
  | illegalCommand
  | commandWhileBusy
  deriving DecidableEq, Repr

/-- R60: the size of a bus access, 1, 2 or 4 bytes. -/
inductive Size where
  | byte | half | word
  deriving DecidableEq, Repr

/-- R60: one bus transaction of the Host, `MemRead(addr, n)` or `MemWrite(addr, n, v)`. -/
inductive Access where
  | read (addr : Offset) (n : Size)
  | write (addr : Offset) (n : Size) (v : Word)
  deriving DecidableEq, Repr

/-- The byte offset an access names. -/
def Access.offset : Access → Offset
  | .read a _ => a
  | .write a _ _ => a

/-- The size of an access. -/
def Access.size : Access → Size
  | .read _ n => n
  | .write _ n _ => n

/-- R60: what the core answered to an access. `data` is 0 for a write. -/
structure Response where
  access : Access
  data : Word
  err : Bool
  deriving DecidableEq, Repr

/-- R20, R107, R226: whose step comes next: the Host with an access, the Core, or the reset pin taking a level
(`false` is low, active). -/
inductive Turn where
  | host (a : Access)
  | core
  | rstPin (level : Bool)
  deriving DecidableEq, Repr

/-- A buffer's bytes written since reset: (byte position, byte), positions strictly rising (log entry 8). -/
abbrev Buffer := List Host.Cell

/-- R21, R48: the architectural state; the last five fields are the reset pin and the model's own (INVENTORY.md,
State). -/
structure State where
  /-- R23: `W[0..15]`. -/
  wReg : Vector Word 16
  /-- R24: `S[0..15]`. -/
  sReg : Vector Word 16
  /-- R30: `KEY[0..7]`. -/
  key : Vector Word 8
  /-- R30: `KEY_CNT`. -/
  keyCnt : BitVec 4
  /-- R32: `NONCE[0..2]`. -/
  nonce : Vector Word 3
  /-- R32: `NONCE_CNT`. -/
  nonceCnt : BitVec 4
  /-- R35: `COUNTER`. -/
  counter : Word
  /-- R36: `MSG_LEN`. -/
  msgLen : Word
  /-- R37: `CTR_CUR`. -/
  ctrCur : Word
  /-- R38: `BLOCKS_DONE`. -/
  blocksDone : Word
  /-- R39: `OPA`. -/
  opa : Word
  /-- R39: `OPB`. -/
  opb : Word
  /-- R40: `RES`. -/
  res : Word
  /-- R41: `QA`. -/
  qa : Word
  /-- R41: `QB`. -/
  qb : Word
  /-- R41: `QC`. -/
  qc : Word
  /-- R41: `QD`. -/
  qd : Word
  /-- R26: `CTRL.EMPTY_ERR`. -/
  emptyErr : Bool
  /-- R26: `CTRL.IRQ_EN`. -/
  irqEn : Bool
  /-- R28: `STATUS.BUSY`. -/
  busy : Bool
  /-- R28: `STATUS.DONE`. -/
  done : Bool
  /-- R28: `STATUS.ERR`. -/
  err : Bool
  /-- R28: `STATUS.WDROP`. -/
  wdrop : Bool
  /-- R28, R202: `STATUS.ERRCODE`. -/
  errCode : ErrorCode
  /-- R48: `PHASE`. -/
  phase : Phase
  /-- R48: `OPC`, the compute command being carried out. -/
  opc : Instr
  /-- R48: `DR`, double rounds finished for the current block. -/
  dr : Nat
  /-- R48: `QI`, the index of the next quarter round. -/
  qi : Fin 8
  /-- R48: `BLK`, the block index. -/
  blk : Nat
  /-- R43: the bytes of IN written since reset. -/
  inBuf : Buffer
  /-- R44: the bytes of OUT written since reset. -/
  outBuf : Buffer
  /-- R226: the level of the reset input `rst_n`. -/
  rstN : Bool
  /-- The model's own: how often the core has been reset (log entry 7). -/
  epoch : Nat
  /-- The model's own: how many draws reads while busy have taken (log entry 6). -/
  draws : Nat
  /-- The model's own: the turns to come (log entry 2). -/
  turns : List Turn
  /-- The model's own: every bus response so far, newest first (log entry 4). -/
  log : List Response
  deriving DecidableEq, Repr

/-- The reasons a step stops. -/
inductive Fault where
  /-- Raised by the Core's ALU and FFWD steps when OPC is a command their case lists (R130, R167) have no arm for.
  Safe: the spec gives such a step no effect, and no run from reset reaches it (log entry 11). -/
  | noStepForOpcode (p : Phase) (c : Instr)
  deriving DecidableEq, Repr

/-- The reasons an instruction has no meaning. -/
inductive Refusal where
  /-- An instruction not modelled yet, rejected by name by `exec`. Safe. No arm raises it in this model. -/
  | notModelled (mnemonic : String)
  deriving DecidableEq, Repr

/-- R51, R227: the machine right after reset. IN and OUT hold no written byte: their contents are free values. -/
def State.reset : State where
  wReg := Vector.replicate 16 0#32
  sReg := Vector.replicate 16 0#32
  key := Vector.replicate 8 0#32
  keyCnt := 0#4
  nonce := Vector.replicate 3 0#32
  nonceCnt := 0#4
  counter := 0#32
  msgLen := 0#32
  ctrCur := 0#32
  blocksDone := 0#32
  opa := 0#32
  opb := 0#32
  res := 0#32
  qa := 0#32
  qb := 0#32
  qc := 0#32
  qd := 0#32
  emptyErr := false
  irqEn := false
  busy := false
  done := false
  err := false
  wdrop := false
  errCode := .none
  phase := .idle
  opc := .nop
  dr := 0
  qi := 0
  blk := 0
  inBuf := []
  outBuf := []
  rstN := true
  epoch := 0
  draws := 0
  turns := []
  log := []

end Sys2Proof.Machine
end

