-- ==== Sys2Proof/WellFormed.lean ====
section
/-! DEFINITION. What makes a term of the model's syntax well formed: a command, a Host bus access, a configuration.
The machine itself does not assume any of it: an ill-formed access is a bus error (20_memory.md R63). -/

namespace Sys2Proof

/-- R86: no command carries an operand, so every term of `Instr` is a well-formed command. -/
def Instr.wellFormed : Instr → Bool
  | .nop | .init | .block | .stream | .dround | .ffwd | .qr => true
  | .add | .xor | .rotl16 | .rotl12 | .rotl8 | .rotl7 => true
  | .keyClr | .nonceClr => true

/-- R62: a legal access is a 32-bit one at a word-aligned offset (whether the offset is mapped is the register
map's business, R64). -/
def Machine.Access.wellFormed (a : Machine.Access) : Bool :=
  decide (a.size = .word) && decide (a.offset.toNat % 4 = 0)

/-- R8: a legal configuration. -/
def Config.wellFormed (mw : Nat) : Bool := Config.legalMsgWords mw

end Sys2Proof
end

