-- ==== Sys2Proof/Decode.lean ====
section
/-! DEFINITION. The command word (30_encoding.md R85): OP in bits 7:0, RSV in bits 31:8. The decoder is total (R87)
and rejects by name; the encoder gives each command's full word of R88. -/

namespace Sys2Proof

/-- Why a word is ILLEGAL (R87, R89). The core records ILLEGAL_COMMAND for both. -/
inductive DecodeReject where
  /-- `RSV` is not zero. -/
  | reservedBits
  /-- `OP` is not in the table of R88. -/
  | unlistedOpcode
  deriving DecidableEq, Repr

/-- R85: bits 7:0. -/
def opField (v : Word) : BitVec 8 := v.extractLsb' 0 8

/-- R85: bits 31:8. -/
def rsvField (v : Word) : BitVec 24 := v.extractLsb' 8 24

/-- R88: the opcode column. -/
def opcodeTable : List (BitVec 8 × Instr) :=
  [(0x00#8, .nop), (0x01#8, .init), (0x02#8, .block), (0x03#8, .stream), (0x04#8, .dround), (0x05#8, .ffwd),
   (0x06#8, .qr)] ++
  [(0x10#8, .add), (0x11#8, .xor), (0x12#8, .rotl16), (0x13#8, .rotl12), (0x14#8, .rotl8), (0x15#8, .rotl7)] ++
  [(0x20#8, .keyClr), (0x21#8, .nonceClr)]

/-- R88: the command an OP value names. -/
def commandOfOp (op : BitVec 8) : Option Instr := opcodeTable.lookup op

/-- R87: the decoder. It reads no state. -/
def decode (v : Word) : Except DecodeReject Instr :=
  if rsvField v ≠ 0#24 then .error .reservedBits
  else match commandOfOp (opField v) with
    | some i => .ok i
    | none => .error .unlistedOpcode

/-- R88: the "full word" column. -/
def encode : Instr → Word
  | .nop => 0x00000000#32
  | .init => 0x00000001#32
  | .block => 0x00000002#32
  | .stream => 0x00000003#32
  | .dround => 0x00000004#32
  | .ffwd => 0x00000005#32
  | .qr => 0x00000006#32
  | .add => 0x00000010#32
  | .xor => 0x00000011#32
  | .rotl16 => 0x00000012#32
  | .rotl12 => 0x00000013#32
  | .rotl8 => 0x00000014#32
  | .rotl7 => 0x00000015#32
  | .keyClr => 0x00000020#32
  | .nonceClr => 0x00000021#32

/-- The low `nbits` bits of `w` as the host numbers an instruction's bits (bit 0 the least significant of the one
command word, R9, R91), every bit above them 0. -/
def tableBits (nbits w : Nat) : Nat := w % 2 ^ nbits

/-- What the decoder reads from an instruction whose bits are `w`. A command is one 32-bit word (R91), so bits above
31 that are not zero are no command. -/
def decodeTableWord (nbits w : Nat) : Option Instr :=
  if tableBits nbits w < 2 ^ 32 then
    match decode (BitVec.ofNat 32 (tableBits nbits w)) with
    | .ok i => some i
    | .error _ => none
  else none

end Sys2Proof
end

