-- ==== Sys2Proof/Machine/Operands.lean ====
section
/-! DEFINITION. The 32-bit arithmetic unit's three functions (41_arith.md R125 to R128), each defined once and used by
the quarter-round engine, the feed-forward adder and the test commands alike; the byte order (00_scope.md R14); the
byte mask (44_stream.md R184); and the fixed operand registers of each command (30_encoding.md R86). -/

namespace Sys2Proof.Machine

/-- R125: addition modulo 2^32, with no carry or overflow flag. -/
def add32 (a b : Word) : Word := a + b

/-- R126: bitwise exclusive or. -/
def xor32 (a b : Word) : Word := a ^^^ b

/-- R127, R10: left rotation by `n`, `0 < n < 32`. The hardware has the counts 16, 12, 8 and 7 only. -/
def rotl32 (x : Word) (n : Nat) : Word := (x <<< n) ||| (x >>> (32 - n))

/-- R14: byte `i` of `bytes(w)`, the little-endian four-byte sequence of a word. -/
def byteOf (w : Word) (i : Nat) : Byte := w.extractLsb' (8 * i) 8

/-- R14: `bytes(w)`. -/
def bytesOf (w : Word) : List Byte := [byteOf w 0, byteOf w 1, byteOf w 2, byteOf w 3]

/-- R14: `le(b0, b1, b2, b3)`. -/
def le (b0 b1 b2 b3 : Byte) : Word := b3 ++ b2 ++ b1 ++ b0

/-- R184: `ByteMask(m)` for `m` valid bytes, `m` in 1..4 (no other `m` is ever asked for, log entry 17). -/
def byteMask (m : Nat) : Word :=
  if m = 1 then 0x000000FF#32
  else if m = 2 then 0x0000FFFF#32
  else if m = 3 then 0x00FFFFFF#32
  else 0xFFFFFFFF#32

/-- R131 to R136: what each arithmetic-unit command puts into RES from OPA and OPB (a rotation does not read OPB);
`none` for a command that is not one of the six. -/
def aluResult (c : Instr) (opa opb : Word) : Option Word :=
  match c with
  | .add => some (add32 opa opb)
  | .xor => some (xor32 opa opb)
  | .rotl16 => some (rotl32 opa 16)
  | .rotl12 => some (rotl32 opa 12)
  | .rotl8 => some (rotl32 opa 8)
  | .rotl7 => some (rotl32 opa 7)
  | .nop | .init | .block | .stream | .dround | .ffwd | .qr | .keyClr | .nonceClr => none

/-- R151: the operands of the quarter round, as the four registers QA..QD or four words of W. -/
structure Quad where
  a : Word
  b : Word
  c : Word
  d : Word
  deriving DecidableEq, Repr

/-- R86, R151: the operands of the QR command. -/
def State.quad (s : State) : Quad := ⟨s.qa, s.qb, s.qc, s.qd⟩

/-- R151: the QR command's results go back in place. -/
def State.setQuad (s : State) (q : Quad) : State := { s with qa := q.a, qb := q.b, qc := q.c, qd := q.d }

end Sys2Proof.Machine
end

