-- ==== Sys2Proof/Machine/Flags.lean ====
section
/-! DEFINITION. The status flags and the words that show them: STATUS (10_state.md R28, R29), CTRL (R26), LDCNT (R34),
the error codes (60_exceptions.md R202) and the interrupt output (R210). No arithmetic writes a flag (R50). -/

namespace Sys2Proof.Machine

/-- R202: the code column. -/
def ErrorCode.code : ErrorCode → BitVec 4
  | .none => 0#4
  | .invalidKeyLength => 1#4
  | .invalidNonceLength => 2#4
  | .emptyMessage => 3#4
  | .lengthTooLarge => 4#4
  | .illegalCommand => 5#4
  | .commandWhileBusy => 6#4

/-- R28: STATUS as the Host reads it: ERRCODE in 7:4, WDROP in 3, ERR in 2, DONE in 1, BUSY in 0; bits 31:8 read 0. -/
def State.statusWord (s : State) : Word :=
  0#24 ++ s.errCode.code ++ BitVec.ofBool s.wdrop ++ BitVec.ofBool s.err ++ BitVec.ofBool s.done ++
    BitVec.ofBool s.busy

/-- R29: a STATUS write of `v`. Bit 1 clears DONE, bit 2 clears ERR and ERRCODE, bit 3 clears WDROP; every other bit
is ignored, and BUSY never changes. -/
def State.writeStatus (s : State) (v : Word) : State :=
  { s with
    done := s.done && !v.getLsbD 1
    err := s.err && !v.getLsbD 2
    errCode := if v.getLsbD 2 then .none else s.errCode
    wdrop := s.wdrop && !v.getLsbD 3 }

/-- R26: CTRL as the Host reads it: IRQ_EN in bit 1, EMPTY_ERR in bit 0; bits 31:2 read 0 (R45). -/
def State.ctrlWord (s : State) : Word := 0#30 ++ BitVec.ofBool s.irqEn ++ BitVec.ofBool s.emptyErr

/-- R26: a CTRL write of `v`, at once and whatever BUSY is; bits 31:2 are ignored (R45). -/
def State.writeCtrl (s : State) (v : Word) : State :=
  { s with emptyErr := v.getLsbD 0, irqEn := v.getLsbD 1 }

/-- R34: LDCNT: NONCE_CNT in 7:4, KEY_CNT in 3:0; bits 31:8 read 0. -/
def State.ldcntWord (s : State) : Word := 0#24 ++ s.nonceCnt ++ s.keyCnt

/-- R210: the level interrupt output. -/
def State.irq (s : State) : Bool := s.irqEn && (s.done || s.err)

end Sys2Proof.Machine
end

