-- ==== Sys2Proof/Machine/Ops.lean ====
section
/-! DEFINITION. The named operations over the state that every command and every bus access is built from: recording an
error and clearing it (60_exceptions.md R201, R213), command validation, acceptance and completion (40_command_issue.md
R110 to R113), the key and nonce ports (10_state.md R31, R33), the IN and OUT buffers (R43, R44, 20_memory.md R67) and
reset (70_reset_and_hazards.md R226, R227). -/

namespace Sys2Proof.Machine

/-! ### Errors -/

/-- R201: `raise E(info)`, the core's only way to take an exception: ERR is set, ERRCODE keeps the first error's code,
and nothing else changes. The command word `info` is not recorded. -/
def State.raise (s : State) (e : ErrorCode) : State :=
  { s with errCode := if s.err then s.errCode else e, err := true }

/-- R213: the return from an error: the Host's STATUS write with bit 2 set (and no other bit) clears ERR and ERRCODE
together; nothing else is restored. -/
def State.clearError (s : State) : State := s.writeStatus 0x00000004#32

/-! ### Issue, acceptance and completion -/

/-- R111: the key and nonce checks of INIT, BLOCK and STREAM, the key first. -/
def State.checkKeyNonce (s : State) : Option ErrorCode :=
  if s.keyCnt ≠ 8#4 then some .invalidKeyLength
  else if s.nonceCnt ≠ 3#4 then some .invalidNonceLength
  else none

/-- R111: the further checks of STREAM, for a core with buffers of `mw` words. -/
def State.checkMessage (mw : Nat) (s : State) : Option ErrorCode :=
  if s.msgLen.toNat > Config.maxLen mw then some .lengthTooLarge
  else if s.msgLen = 0#32 ∧ s.emptyErr = true then some .emptyMessage
  else none

/-- R112: what accepting any compute command changes. -/
def State.accept (s : State) (c : Instr) (p : Phase) : State :=
  { s with done := false, busy := true, opc := c, phase := p }

/-- R112: what accepting INIT, BLOCK or STREAM sets beside that. -/
def State.startDriver (s : State) : State :=
  { s with ctrCur := s.counter, blocksDone := 0#32, blk := 0 }

/-- R112: what accepting DROUND sets beside that. -/
def State.startRounds (s : State) : State := { s with dr := 0, qi := 0 }

/-- R113: `Complete()`. -/
def State.complete (s : State) : State := { s with busy := false, done := true, phase := .idle }

/-- R110, from the busy check on, for a compute command: `checked` is the first failure of its validation (R111),
`accepted` the state its acceptance leaves (R112). -/
def issueCompute (checked : Option ErrorCode) (accepted : State) (s : State) : State :=
  if s.busy then s.raise .commandWhileBusy
  else match checked with
    | some e => s.raise e
    | none => accepted

/-- R110 for KEY_CLR and NONCE_CLR, whose whole effect is `effect`. -/
def issueImmediate (effect : State) (s : State) : State :=
  if s.busy then s.raise .commandWhileBusy else effect

/-! ### Input registers -/

/-- R47: a write to an input register: dropped with WDROP while busy, else it has its effect. -/
def State.writeInput (s : State) (effect : State) : State :=
  if s.busy then { s with wdrop := true } else effect

/-- R31, R33: a push count saturates at 15. -/
def saturatingSucc (c : BitVec 4) : BitVec 4 := if c = 15#4 then 15#4 else c + 1#4

/-- R31: a KEY_IN write of `v` when not busy. -/
def State.pushKey (s : State) (v : Word) : State :=
  { s with
    key := if h : s.keyCnt.toNat < 8 then s.key.set s.keyCnt.toNat v h else s.key
    keyCnt := saturatingSucc s.keyCnt }

/-- R33: a NONCE_IN write of `v` when not busy. -/
def State.pushNonce (s : State) (v : Word) : State :=
  { s with
    nonce := if h : s.nonceCnt.toNat < 3 then s.nonce.set s.nonceCnt.toNat v h else s.nonce
    nonceCnt := saturatingSucc s.nonceCnt }

/-- R115: `KeyClear()`. -/
def State.clearKey (s : State) : State := { s with key := Vector.replicate 8 0#32, keyCnt := 0#4 }

/-- R116: `NonceClear()`. -/
def State.clearNonce (s : State) : State := { s with nonce := Vector.replicate 3 0#32, nonceCnt := 0#4 }

/-! ### Buffers -/

/-- The written byte at position `p`, if any. -/
def Buffer.lookup : Buffer → Nat → Option Byte
  | [], _ => none
  | (q, b) :: rest, p => if p = q then some b else Buffer.lookup rest p

/-- Byte `p`: what was written there since reset, else what `init` says it held (R43, R44). -/
def Buffer.readByte (init : Nat → Byte) (m : Buffer) (p : Nat) : Byte := (Buffer.lookup m p).getD (init p)

/-- Write byte `p`, keeping the positions strictly rising. -/
def Buffer.writeByte : Buffer → Nat → Byte → Buffer
  | [], p, b => [(p, b)]
  | (q, c) :: rest, p, b =>
    if p < q then (p, b) :: (q, c) :: rest
    else if p = q then (p, b) :: rest
    else (q, c) :: Buffer.writeByte rest p b

/-- R67, R70: word `g` of a buffer, its bytes little-endian at positions `4g .. 4g+3`. -/
def Buffer.readWord (init : Nat → Byte) (m : Buffer) (g : Nat) : Word :=
  le (m.readByte init (4 * g)) (m.readByte init (4 * g + 1)) (m.readByte init (4 * g + 2))
    (m.readByte init (4 * g + 3))

/-- R67, R70: write all four bytes of word `g`. -/
def Buffer.writeWord (m : Buffer) (g : Nat) (v : Word) : Buffer :=
  (((m.writeByte (4 * g) (byteOf v 0)).writeByte (4 * g + 1) (byteOf v 1)).writeByte (4 * g + 2)
    (byteOf v 2)).writeByte (4 * g + 3) (byteOf v 3)

/-- The canonical form: positions strictly rising (log entry 8). -/
def Buffer.wf : Buffer → Bool
  | [] => true
  | [_] => true
  | (p, _) :: (q, c) :: rest => decide (p < q) && Buffer.wf ((q, c) :: rest)

/-- Every listed position lies in a buffer of `mw` words. -/
def Buffer.within (mw : Nat) (m : Buffer) : Bool := m.all fun cell => decide (cell.1 < 4 * mw)

/-- R43: byte `p` of IN, message byte `m[p]` of R67. -/
def State.inByte (s : State) (p : Nat) : Byte := s.inBuf.readByte (Config.inPowerUp s.epoch) p

/-- R44: byte `p` of OUT, output byte `o[p]` of R67. -/
def State.outByte (s : State) (p : Nat) : Byte := s.outBuf.readByte (Config.outPowerUp s.epoch) p

/-- R43: `IN[g]`. -/
def State.inWord (s : State) (g : Nat) : Word := s.inBuf.readWord (Config.inPowerUp s.epoch) g

/-- R44: `OUT[g]`. -/
def State.outWord (s : State) (g : Nat) : Word := s.outBuf.readWord (Config.outPowerUp s.epoch) g

/-- R43: `IN[g] <- v`. -/
def State.setInWord (s : State) (g : Nat) (v : Word) : State := { s with inBuf := s.inBuf.writeWord g v }

/-- R44, R186: `OUT[g] <- v`. -/
def State.setOutWord (s : State) (g : Nat) (v : Word) : State := { s with outBuf := s.outBuf.writeWord g v }

/-! ### Draws, responses and reset -/

/-- R49: what a read of a datapath register holding `v` returns: `v`, or a fresh draw while busy. -/
def State.datapathRead (s : State) (v : Word) : Word × State :=
  if s.busy then (Config.busyRead s.draws, { s with draws := s.draws + 1 }) else (v, s)

/-- R60: the core answers an access. -/
def State.respond (s : State) (a : Access) (data : Word) (err : Bool) : State :=
  { s with log := ⟨a, data, err⟩ :: s.log }

/-- R226, R227: every register takes its reset value, a running command is lost (R228), IN and OUT hold new
unspecified contents, and `rst_n` stands at `level`. The world around the core (turns, responses) goes on. -/
def State.resetTo (s : State) (level : Bool) : State :=
  { State.reset with
    rstN := level, epoch := s.epoch + 1, draws := s.draws, turns := s.turns, log := s.log }

end Sys2Proof.Machine
end

