-- ==== Sys2Proof/Machine/Arith.lean ====
section
/-! DEFINITION. The arithmetic-unit commands (41_arith.md R131 to R136): what issuing each one does (40_command_issue.md
R110 to R112), and the ALU step that carries it out (R130). They have nothing to validate (R111). -/

namespace Sys2Proof.Machine

/-- R131: ADD. -/
def execAdd (s : State) : Host.Outcome State Fault Refusal := .next (issueCompute none (s.accept .add .alu) s)

/-- R132: XOR. -/
def execXor (s : State) : Host.Outcome State Fault Refusal := .next (issueCompute none (s.accept .xor .alu) s)

/-- R133: ROTL16. -/
def execRotl16 (s : State) : Host.Outcome State Fault Refusal :=
  .next (issueCompute none (s.accept .rotl16 .alu) s)

/-- R134: ROTL12. -/
def execRotl12 (s : State) : Host.Outcome State Fault Refusal :=
  .next (issueCompute none (s.accept .rotl12 .alu) s)

/-- R135: ROTL8. -/
def execRotl8 (s : State) : Host.Outcome State Fault Refusal :=
  .next (issueCompute none (s.accept .rotl8 .alu) s)

/-- R136: ROTL7. -/
def execRotl7 (s : State) : Host.Outcome State Fault Refusal :=
  .next (issueCompute none (s.accept .rotl7 .alu) s)

/-- R130: the Core step of PHASE ALU. -/
def aluStep (s : State) : Host.Outcome State Fault Refusal :=
  match aluResult s.opc s.opa s.opb with
  | some r => .next { s with res := r }.complete
  | none => .fault (.noStepForOpcode .alu s.opc)

end Sys2Proof.Machine
end

