-- ==== Sys2Proof/Machine/QuarterRound.lean ====
section
/-! DEFINITION. The quarter-round engine and the round controller (42_quarter_round.md R145 to R154). -/

namespace Sys2Proof.Machine

/-- R146, R147: the twelve statements, in the order written. -/
def quarterRound (q : Quad) : Quad :=
  let a1 := add32 q.a q.b
  let t1 := xor32 q.d a1
  let d1 := rotl32 t1 16
  let c1 := add32 q.c d1
  let t2 := xor32 q.b c1
  let b1 := rotl32 t2 12
  let a2 := add32 a1 b1
  let t3 := xor32 d1 a2
  let d2 := rotl32 t3 8
  let c2 := add32 c1 d2
  let t4 := xor32 b1 c2
  let b2 := rotl32 t4 7
  ⟨a2, b2, c2, d2⟩

/-- R148: a group `(p, q, r, s)` of indices into W. -/
structure Group where
  p : Fin 16
  q : Fin 16
  r : Fin 16
  s : Fin 16
  deriving DecidableEq, Repr

/-- R148: the round schedule, four column groups and then four diagonal groups. -/
def sched : Vector Group 8 :=
  #v[⟨0, 4, 8, 12⟩, ⟨1, 5, 9, 13⟩, ⟨2, 6, 10, 14⟩, ⟨3, 7, 11, 15⟩,
     ⟨0, 5, 10, 15⟩, ⟨1, 6, 11, 12⟩, ⟨2, 7, 8, 13⟩, ⟨3, 4, 9, 14⟩]

/-- R149: the quarter round on one group of W; the other twelve words stay. -/
def applyGroup (g : Group) (w : Vector Word 16) : Vector Word 16 :=
  let o := quarterRound ⟨w[g.p], w[g.q], w[g.r], w[g.s]⟩
  (((w.set g.p o.a).set g.q o.b).set g.r o.c).set g.s o.d

/-- R149: `DoubleRound(W)`. -/
def doubleRound (w : Vector Word 16) : Vector Word 16 :=
  applyGroup sched[7] (applyGroup sched[6] (applyGroup sched[5] (applyGroup sched[4]
    (applyGroup sched[3] (applyGroup sched[2] (applyGroup sched[1] (applyGroup sched[0] w)))))))

/-- `DoubleRound` applied `n` times. -/
def doubleRounds : Nat → Vector Word 16 → Vector Word 16
  | 0, w => w
  | n + 1, w => doubleRound (doubleRounds n w)

/-- R151: QR. -/
def execQr (s : State) : Host.Outcome State Fault Refusal := .next (issueCompute none (s.accept .qr .qrt) s)

/-- R153: DROUND. -/
def execDround (s : State) : Host.Outcome State Fault Refusal :=
  .next (issueCompute none (s.startRounds.accept .dround .round) s)

/-- R152: the Core step of PHASE QRT. -/
def qrtStep (s : State) : State := (s.setQuad (quarterRound s.quad)).complete

/-- R150: the quarter round of a ROUND step. -/
def State.mixGroup (s : State) : State := { s with wReg := applyGroup sched[s.qi] s.wReg }

/-- R150: the Core step of PHASE ROUND. -/
def roundStep (s : State) : State :=
  let t := s.mixGroup
  if t.qi < 7 then { t with qi := t.qi + 1 }
  else
    let u := { t with qi := 0, dr := t.dr + 1 }
    if u.opc = .dround then u.complete
    else if u.dr = 10 then { u with phase := .ffwd }
    else u

end Sys2Proof.Machine
end

