-- ==== Sys2Proof/Machine/Block.lean ====
section
/-! DEFINITION. State construction, feed-forward and the block function (43_block.md R160 to R171). -/

namespace Sys2Proof.Machine

/-- R160: `BuildState(k, n, ctr)`. -/
def buildState (k : Vector Word 8) (n : Vector Word 3) (ctr : Word) : Vector Word 16 :=
  #v[0x61707865#32, 0x3320646e#32, 0x79622d32#32, 0x6b206574#32,
     k[0], k[1], k[2], k[3], k[4], k[5], k[6], k[7],
     ctr, n[0], n[1], n[2]]

/-- R166: `FeedForward(W, S)`, sixteen independent additions, no carry between words. -/
def feedForward (w s : Vector Word 16) : Vector Word 16 :=
  #v[add32 w[0] s[0], add32 w[1] s[1], add32 w[2] s[2], add32 w[3] s[3],
     add32 w[4] s[4], add32 w[5] s[5], add32 w[6] s[6], add32 w[7] s[7],
     add32 w[8] s[8], add32 w[9] s[9], add32 w[10] s[10], add32 w[11] s[11],
     add32 w[12] s[12], add32 w[13] s[13], add32 w[14] s[14], add32 w[15] s[15]]

/-- R171: the block function `Block(k, n, c)`. -/
def blockFunction (k : Vector Word 8) (n : Vector Word 3) (c : Word) : Vector Word 16 :=
  feedForward (doubleRounds 10 (buildState k n c)) (buildState k n c)

/-- R162: INIT. -/
def execInit (s : State) : Host.Outcome State Fault Refusal :=
  .next (issueCompute s.checkKeyNonce (s.startDriver.accept .init .load) s)

/-- R169: BLOCK. -/
def execBlock (s : State) : Host.Outcome State Fault Refusal :=
  .next (issueCompute s.checkKeyNonce (s.startDriver.accept .block .load) s)

/-- R168: FFWD. -/
def execFfwd (s : State) : Host.Outcome State Fault Refusal :=
  .next (issueCompute none (s.accept .ffwd .ffwd) s)

/-- R164: the Core step of PHASE LOAD. -/
def loadStep (s : State) : State :=
  let x := buildState s.key s.nonce s.ctrCur
  let t := { s with sReg := x, wReg := x, dr := 0, qi := 0 }
  if t.opc = .init then t.complete else { t with phase := .round }

/-- R166, R167: the addition of a FFWD step. -/
def State.addOriginal (s : State) : State := { s with wReg := feedForward s.wReg s.sReg }

/-- R167: the Core step of PHASE FFWD. -/
def ffwdStep (s : State) : Host.Outcome State Fault Refusal :=
  let t := s.addOriginal
  match s.opc with
  | .ffwd => .next t.complete
  | .block => .next { t with ctrCur := add32 t.ctrCur 1#32, blocksDone := 1#32 }.complete
  | .stream => .next { t with phase := .xor }
  | .nop | .init | .dround | .qr | .add | .xor | .rotl16 | .rotl12 | .rotl8 | .rotl7 | .keyClr | .nonceClr =>
    .fault (.noStepForOpcode .ffwd s.opc)

end Sys2Proof.Machine
end

