-- ==== Sys2Proof/Machine/Stream.lean ====
section
/-! DEFINITION. The stream driver and the XOR output stage (44_stream.md R180 to R195). -/

namespace Sys2Proof.Machine

/-- R183: the number of keystream blocks of a message of `len` bytes. -/
def blockCount (len : Nat) : Nat := (len + 63) / 64

/-- R183, R192: the number of OUT words of a message of `len` bytes. -/
def wordCount (len : Nat) : Nat := (len + 3) / 4

/-- R180, R181, R182: STREAM on a core with buffers of `mw` words. An accepted empty message goes to PHASE FIN. -/
def execStreamAt (mw : Nat) (s : State) : Host.Outcome State Fault Refusal :=
  .next (issueCompute (s.checkKeyNonce.or (s.checkMessage mw))
    (s.startDriver.accept .stream (if s.msgLen = 0#32 then .fin else .load)) s)

/-- R180: STREAM. -/
def execStream (s : State) : Host.Outcome State Fault Refusal := execStreamAt Config.msgWords s

/-- R186: lane `i` of the XOR stage for block `BLK`. -/
def State.xorLane (s : State) (i : Fin 16) : State :=
  let g := 16 * s.blk + i
  if 4 * g < s.msgLen.toNat then
    s.setOutWord g (xor32 (s.inWord g) s.wReg[i] &&& byteMask (min 4 (s.msgLen.toNat - 4 * g)))
  else s

/-- The sixteen lanes, in order. -/
def lanes : List (Fin 16) := [0, 1, 2, 3, 4, 5, 6, 7, 8, 9, 10, 11, 12, 13, 14, 15]

/-- R186: the XOR output stage for block `BLK`. -/
def State.xorBlock (s : State) : State := lanes.foldl State.xorLane s

/-- R186, R187: the driver's advance after a block; the counter wraps silently. -/
def State.advanceDriver (s : State) : State :=
  { s with
    ctrCur := add32 s.ctrCur 1#32
    blk := s.blk + 1
    blocksDone := BitVec.ofNat 32 (s.blk + 1) }

/-- R186: the Core step of PHASE XOR. -/
def xorStep (s : State) : State :=
  let t := s.xorBlock.advanceDriver
  if 64 * t.blk ≥ t.msgLen.toNat then t.complete else { t with phase := .load }

end Sys2Proof.Machine
end

