-- ==== Sys2Proof/Machine/CoreStep.lean ====
section
/-! DEFINITION. The Core's step (40_command_issue.md R108, R109, R113). -/

namespace Sys2Proof.Machine

/-- R113: the Core step of PHASE FIN is `Complete()` alone. -/
def finStep (s : State) : State := s.complete

/-- R109: a Core step is chosen by PHASE. IDLE has no step (R108), so nothing changes (log entry 12). -/
def coreStep (s : State) : Host.Outcome State Fault Refusal :=
  match s.phase with
  | .idle => .next s
  | .alu => aluStep s
  | .qrt => .next (qrtStep s)
  | .load => .next (loadStep s)
  | .round => .next (roundStep s)
  | .ffwd => ffwdStep s
  | .xor => .next (xorStep s)
  | .fin => .next (finStep s)

/-- R20, R108, R226: the Core's turn: a step when BUSY is 1 and `rst_n` is high, else nothing. -/
def coreTurn (s : State) : Host.Outcome State Fault Refusal :=
  if s.rstN && s.busy then coreStep s else .next s

end Sys2Proof.Machine
end

