-- ==== Sys2Proof/Machine/Control.lean ====
section
/-! DEFINITION. The immediate commands (40_command_issue.md R114 to R116): their whole effect is inside the CMD write. -/

namespace Sys2Proof.Machine

/-- R114, R90: NOP does nothing and raises nothing, even while busy. -/
def execNop (s : State) : Host.Outcome State Fault Refusal := .next s

/-- R115: KEY_CLR. -/
def execKeyClr (s : State) : Host.Outcome State Fault Refusal := .next (issueImmediate s.clearKey s)

/-- R116: NONCE_CLR. -/
def execNonceClr (s : State) : Host.Outcome State Fault Refusal := .next (issueImmediate s.clearNonce s)

end Sys2Proof.Machine
end

