-- ==== Sys2Proof/Machine/Dispatch.lean ====
section
/-! DEFINITION. What issuing each command does: one arm per row of spec/opcode_table.json (40_command_issue.md R110). -/

namespace Sys2Proof.Machine

def exec (i : Instr) (s : State) : Host.Outcome State Fault Refusal :=
  match i with
  | .nop => Sys2Proof.Machine.execNop s
  | .init => Sys2Proof.Machine.execInit s
  | .block => Sys2Proof.Machine.execBlock s
  | .stream => Sys2Proof.Machine.execStream s
  | .dround => Sys2Proof.Machine.execDround s
  | .ffwd => Sys2Proof.Machine.execFfwd s
  | .qr => Sys2Proof.Machine.execQr s
  | .add => Sys2Proof.Machine.execAdd s
  | .xor => Sys2Proof.Machine.execXor s
  | .rotl16 => Sys2Proof.Machine.execRotl16 s
  | .rotl12 => Sys2Proof.Machine.execRotl12 s
  | .rotl8 => Sys2Proof.Machine.execRotl8 s
  | .rotl7 => Sys2Proof.Machine.execRotl7 s
  | .keyClr => Sys2Proof.Machine.execKeyClr s
  | .nonceClr => Sys2Proof.Machine.execNonceClr s

end Sys2Proof.Machine
end

