-- ==== Sys2Proof/Machine/RegisterMap.lean ====
section
/-! DEFINITION. The register map (10_state.md section 3, 20_memory.md R62 to R65): which offset of the window names
which register or buffer word. -/

namespace Sys2Proof.Machine

/-- What a mapped word offset names. -/
inductive Target where
  | id | ctrl | cmd | status | keyIn | nonceIn | ldcnt | counter | msgLen | ctrCur | blocksDone
  | opa | opb | res | qa | qb | qc | qd
  | w (i : Fin 16)
  | inBuf (g : Nat)
  | outBuf (g : Nat)
  deriving DecidableEq, Repr

/-- R64: the offsets of the single registers. -/
def registerTable : List (Nat × Target) :=
  [(0x000, .id), (0x004, .ctrl), (0x008, .cmd), (0x00C, .status), (0x010, .keyIn), (0x014, .nonceIn),
   (0x018, .ldcnt), (0x01C, .counter), (0x020, .msgLen), (0x024, .ctrCur), (0x028, .blocksDone)] ++
  [(0x030, .opa), (0x034, .opb), (0x038, .res), (0x040, .qa), (0x044, .qb), (0x048, .qc), (0x04C, .qd)]

/-- R64: the W window, `0x080 + 4i`, `i` = 0..15. -/
def windowTarget (off : Nat) : Option Target :=
  if h : 0x080 ≤ off ∧ off < 0x0C0 ∧ off % 4 = 0 then some (.w ⟨(off - 0x080) / 4, by omega⟩) else none

/-- R64: the IN and OUT buffers of `mw` words at 0x1000 and 0x2000. -/
def bufferTarget (mw off : Nat) : Option Target :=
  if off % 4 ≠ 0 then none
  else if 0x1000 ≤ off ∧ off < 0x1000 + 4 * mw then some (.inBuf ((off - 0x1000) / 4))
  else if 0x2000 ≤ off ∧ off < 0x2000 + 4 * mw then some (.outBuf ((off - 0x2000) / 4))
  else none

/-- R64, R65: what the byte offset `off` names on a core with buffers of `mw` words; `none` where it is not a mapped
word offset. -/
def targetOfOffset (mw off : Nat) : Option Target :=
  (registerTable.lookup off).or ((windowTarget off).or (bufferTarget mw off))

/-- R62: what a legal access reaches: 32-bit, word-aligned and mapped. `none` is a bus error (R63). -/
def targetOfAccess (mw : Nat) (a : Access) : Option Target :=
  if a.size = .word then targetOfOffset mw a.offset.toNat else none

end Sys2Proof.Machine
end

