-- ==== Sys2Proof/Machine/Bus.lean ====
section
/-! DEFINITION. One bus access of the Host (20_memory.md R60 to R63, R70 to R72; 10_state.md R25 to R49) and the turns of
the agents (R20, R107): the Host's access, the Core's step, the reset pin. -/

namespace Sys2Proof.Machine

/-- R25 to R46, R49: the data a legal read returns, and the state after it, which differs only in the count of draws
(R71). -/
def readTarget (t : Target) (s : State) : Word × State :=
  match t with
  | .id => (Config.idValue, s)
  | .ctrl => (s.ctrlWord, s)
  | .cmd => (0#32, s)
  | .status => (s.statusWord, s)
  | .keyIn => (0#32, s)
  | .nonceIn => (0#32, s)
  | .ldcnt => (s.ldcntWord, s)
  | .counter => (s.counter, s)
  | .msgLen => (s.msgLen, s)
  | .ctrCur => s.datapathRead s.ctrCur
  | .blocksDone => s.datapathRead s.blocksDone
  | .opa => (s.opa, s)
  | .opb => (s.opb, s)
  | .res => s.datapathRead s.res
  | .qa => s.datapathRead s.qa
  | .qb => s.datapathRead s.qb
  | .qc => s.datapathRead s.qc
  | .qd => s.datapathRead s.qd
  | .w i => s.datapathRead s.wReg[i]
  | .inBuf g => (s.inWord g, s)
  | .outBuf g => s.datapathRead (s.outWord g)

/-- R8, R110: issuing command `i` on a core with buffers of `mw` words. The capacity matters to STREAM alone (R111).
`exec` is the case of this core's own capacity. -/
def execAt (mw : Nat) (i : Instr) (s : State) : Host.Outcome State Fault Refusal :=
  match i with
  | .stream => execStreamAt mw s
  | .nop | .init | .block | .dround | .ffwd | .qr | .add | .xor | .rotl16 | .rotl12 | .rotl8 | .rotl7
  | .keyClr | .nonceClr => exec i s

/-- R27, R110: a CMD write of `v`: an illegal word raises ILLEGAL_COMMAND whatever BUSY is; a command is issued. -/
def writeCmd (mw : Nat) (v : Word) (s : State) : Host.Outcome State Fault Refusal :=
  match decode v with
  | .ok i => execAt mw i s
  | .error _ => .next (s.raise .illegalCommand)

/-- R26 to R47: what a legal write of `v` does. A write to a read-only register is ignored (R46). -/
def writeTarget (mw : Nat) (t : Target) (v : Word) (s : State) : Host.Outcome State Fault Refusal :=
  match t with
  | .cmd => writeCmd mw v s
  | .ctrl => .next (s.writeCtrl v)
  | .status => .next (s.writeStatus v)
  | .keyIn => .next (s.writeInput (s.pushKey v))
  | .nonceIn => .next (s.writeInput (s.pushNonce v))
  | .counter => .next (s.writeInput { s with counter := v })
  | .msgLen => .next (s.writeInput { s with msgLen := v })
  | .opa => .next (s.writeInput { s with opa := v })
  | .opb => .next (s.writeInput { s with opb := v })
  | .qa => .next (s.writeInput { s with qa := v })
  | .qb => .next (s.writeInput { s with qb := v })
  | .qc => .next (s.writeInput { s with qc := v })
  | .qd => .next (s.writeInput { s with qd := v })
  | .inBuf g => .next (s.writeInput (s.setInWord g v))
  | .id | .ldcnt | .ctrCur | .blocksDone | .res | .w _ | .outBuf _ => .next s

/-- R63, R209, R226: an access that is not allowed completes with `err = 1` and data 0 and changes nothing of the core;
the model keeps it in `log` (log entry 5). -/
def State.busError (s : State) (a : Access) : State := s.respond a 0#32 true

/-- R60 to R63, R226: one bus access on a core with buffers of `mw` words. While `rst_n` is low every access is an
error. -/
def busAccess (mw : Nat) (a : Access) (s : State) : Host.Outcome State Fault Refusal :=
  if s.rstN then
    match targetOfAccess mw a with
    | none => .next (s.busError a)
    | some t =>
      match a with
      | .read _ _ => .next ((readTarget t s).2.respond a (readTarget t s).1 false)
      | .write _ _ v => writeTarget mw t v (s.respond a 0#32 false)
  else .next (s.busError a)

/-- R226: the reset pin takes a level. Low puts the core in reset; a rising edge releases it in the reset state; high
while already high is no edge (log entry 10). -/
def resetPinTurn (level : Bool) (s : State) : State :=
  if level && s.rstN then s else s.resetTo level

/-- R8, R20, R107: one turn of one agent, on a core with buffers of `mw` words. -/
def takeTurn (mw : Nat) (t : Turn) (s : State) : Host.Outcome State Fault Refusal :=
  match t with
  | .host a => busAccess mw a s
  | .core => coreTurn s
  | .rstPin level => .next (resetPinTurn level s)

/-- The next turn is taken off the schedule. -/
def State.withTurns (s : State) (ts : List Turn) : State := { s with turns := ts }

/-- R110: the Host's write of the command word `v` to CMD (offset 0x008). -/
def commandWrite (v : Word) : Access := .write 0x008#14 .word v

end Sys2Proof.Machine
end

