-- ==== Sys2Proof/Machine/Step.lean ====
section
/-! DEFINITION. The machine's step: the union of the Host step, the Core step and the reset pin (40_command_issue.md
R107), in the order the schedule in State gives. -/

namespace Sys2Proof.Machine

/-- R8, R107, R108: the step of a core with buffers of `mw` words: the next turn of the
schedule is taken. Where the outside world has no turn to come, the Core steps if
it can and the machine is idle otherwise (log entries 2 and 3). -/
def stepAt (mw : Nat) (s : State) : Host.Outcome State Fault Refusal :=
  match s.turns with
  | [] => coreTurn s
  | t :: ts => takeTurn mw t (s.withTurns ts)

/-- R8: the whole machine as a function of MSG_WORDS, its one parameter. -/
def machineAt (mw : Nat) : Host.Core :=
  { State := State, Fault := Fault, Refusal := Refusal, step := stepAt mw, reset := State.reset }

/-- The step of the core whose capacity is `Config.msgWords`, some legal value (log entry 9). -/
def step (s : State) : Host.Outcome State Fault Refusal := stepAt Config.msgWords s

/-- `s` with the Host about to write the command word `w` to CMD, out of reset: the very next step decodes and issues
it (log entry 16). -/
def State.withFetchWord (s : State) (nbits w : Nat) : State :=
  { s with
    rstN := true
    turns := .host (commandWrite (BitVec.ofNat 32 (tableBits nbits w))) :: s.turns }

end Sys2Proof.Machine
end

