-- ==== Sys2Proof/Machine/HostProgram.lean ====
section
/-! DEFINITION. Host programs (30_encoding.md R92, R93) and their closed-loop runs beside the core, up to the end of a
run (40_command_issue.md R117). The Host's program, variables and branches are outside the core (10_state.md R22):
nothing here is part of State. Log entry 19. -/

namespace Sys2Proof.Machine

/-! ### Programs -/

/-- R92: the primitive lines. `OFF` and `V` are 32-bit literals; Host variables and labels are numbered. -/
inductive HostLine where
  | wr (off : Word) (v : Word)
  | rd (off : Word) (t : Nat)
  | label (l : Nat)
  | bne (t : Nat) (mask v : Word) (l : Nat)
  deriving DecidableEq, Repr

/-- R93: the pseudo-instructions, and the lines in which a register's name stands for its offset. -/
inductive PseudoLine where
  | line (x : HostLine)
  | cmd (i : Instr)
  | wait (l t : Nat)
  | clrst
  | loadkey (k : Vector Word 8)
  | loadnonce (n : Vector Word 3)
  | ldin (i : Nat) (v : Word)
  | rdout (i t : Nat)
  | rdw (i t : Nat)
  | wrReg (r : Target) (v : Word)
  | rdReg (r : Target) (t : Nat)
  deriving DecidableEq, Repr

/-- R92, R93: the 32-bit literal of the offset `n`. An offset that needs more bits has none, and no line (log entry
19). -/
def offsetLiteral (n : Nat) : Option Word := if n < 2 ^ 32 then some (BitVec.ofNat 32 n) else none

/-- R93: the offset a register's name stands for, from the register map of 10_state.md section 3. An `IN[g]` or
`OUT[g]` past the capacity takes the offset the map's formula gives, as `ldin` and `rdout` do (DESIGN CHOICE, log entry
19). -/
def registerOffset (r : Target) : Option Word :=
  match r with
  | .w i => offsetLiteral (0x080 + 4 * i.val)
  | .inBuf g => offsetLiteral (0x1000 + 4 * g)
  | .outBuf g => offsetLiteral (0x2000 + 4 * g)
  | .id | .ctrl | .cmd | .status | .keyIn | .nonceIn | .ldcnt | .counter | .msgLen | .ctrCur | .blocksDone
  | .opa | .opb | .res | .qa | .qb | .qc | .qd =>
    (registerTable.find? fun e => decide (e.2 = r)).map fun e => BitVec.ofNat 32 e.1

/-- R93: the expansion column; `none` where there is no such line. -/
def PseudoLine.expand : PseudoLine → Option (List HostLine)
  | .line x => some [x]
  | .cmd i => some [.wr 0x008#32 (encode i)]
  | .wait l t => some [.label l, .rd 0x00C#32 t, .bne t 1#32 0#32 l]
  | .clrst => some [.wr 0x00C#32 0x0000000E#32]
  | .loadkey k => some (.wr 0x008#32 (encode .keyClr) :: k.toList.map (fun v => .wr 0x010#32 v))
  | .loadnonce n => some (.wr 0x008#32 (encode .nonceClr) :: n.toList.map (fun v => .wr 0x014#32 v))
  | .ldin i v => (registerOffset (.inBuf i)).map fun off => [.wr off v]
  | .rdout i t => (registerOffset (.outBuf i)).map fun off => [.rd off t]
  | .rdw i t => (offsetLiteral (0x080 + 4 * i)).map fun off => [.rd off t]
  | .wrReg r v => (registerOffset r).map fun off => [.wr off v]
  | .rdReg r t => (registerOffset r).map fun off => [.rd off t]

/-- R93: a program with its pseudo-instructions expanded; `none` when one of its lines has no expansion. -/
def expandProgram : List PseudoLine → Option (List HostLine)
  | [] => some []
  | x :: xs =>
    match x.expand, expandProgram xs with
    | some a, some b => some (a ++ b)
    | _, _ => none

/-! ### The Host running a program, beside a core with buffers of `mw` words (R8) -/

/-- A Host running a program: its lines, the index of the next line, the variables read so far, and the OFF of every
access that completed with `err = 1` (R63: a bus error is reported to the master only); both lists newest first. -/
structure HostRun where
  lines : List HostLine
  pos : Nat
  vars : List (Nat × Word)
  errors : List Word
  deriving DecidableEq, Repr

/-- R92: the Host before the first line of a program. -/
def HostRun.start (lines : List HostLine) : HostRun := ⟨lines, 0, [], []⟩

/-- R117: the run ends when the Host has no next line. -/
def HostRun.ended (h : HostRun) : Bool := decide (h.lines.length ≤ h.pos)

/-- The Host goes on to the next line. -/
def HostRun.advance (h : HostRun) : HostRun := { h with pos := h.pos + 1 }

/-- R92: continue at a label. DESIGN CHOICE (log entry 19), the spec is silent on both: where several lines carry the
label the Host continues at the first of them, and where no line carries it the run ends. -/
def HostRun.goto (h : HostRun) (l : Nat) : HostRun := { h with pos := h.lines.findIdx (fun x => x == .label l) }

/-- The value of a Host variable, if the program has read one into it. -/
def HostRun.var (h : HostRun) (t : Nat) : Option Word := h.vars.lookup t

/-- R92: the Host stores what a read returned; 0 when the read was a bus error (R63). -/
def HostRun.assign (h : HostRun) (t : Nat) (v : Word) : HostRun := { h with vars := (t, v) :: h.vars }

/-- R60, R63: the Host takes note of an access at `off` that completed with `err`. -/
def HostRun.noteError (h : HostRun) (off : Word) (err : Bool) : HostRun :=
  if err then { h with errors := off :: h.errors } else h

/-- R60, R64: the 14-bit offset on the core's bus that a line's OFF is, if it lies in the 16 KiB window. -/
def windowOffset (off : Word) : Option Offset := if off.toNat < 0x4000 then some (off.setWidth 14) else none

/-- R60: the data and the `err` of the newest bus response. -/
def State.answer (s : State) : Word × Bool :=
  match s.log with
  | [] => (0#32, true)
  | r :: _ => (r.data, r.err)

/-- R60, R92: the Host makes the access `access o` at the OFF of a line and learns its data and `err`. An OFF outside
the window is a bus error that reaches no core: `err = 1`, data 0, the core as it was (R62, R63, D3). -/
def hostAccess (mw : Nat) (off : Word) (access : Offset → Access) (after : Word × Bool → HostRun) (s : State) :
    Host.Outcome (HostRun × State) Fault Refusal :=
  match windowOffset off with
  | none => .next (after (0#32, true), s)
  | some o =>
    match busAccess mw (access o) s with
    | .next t => .next (after t.answer, t)
    | .fault r => .fault r
    | .refused r => .refused r

/-- R92: one line of the Host's program. A label and a branch are no bus access. A branch on a variable that was never
read ends the run (DESIGN CHOICE, log entry 19). -/
def hostLineStep (mw : Nat) (h : HostRun) (s : State) : Host.Outcome (HostRun × State) Fault Refusal :=
  match h.lines[h.pos]? with
  | none => .next (h, s)
  | some (.wr off v) => hostAccess mw off (fun o => .write o .word v) (fun r => (h.noteError off r.2).advance) s
  | some (.rd off t) =>
    hostAccess mw off (fun o => .read o .word) (fun r => ((h.noteError off r.2).assign t r.1).advance) s
  | some (.label _) => .next (h.advance, s)
  | some (.bne t mask v l) =>
    match h.var t with
    | none => .next ({ h with pos := h.lines.length }, s)
    | some x => .next (if x &&& mask ≠ v then h.goto l else h.advance, s)

/-! ### Runs of a program beside the core -/

/-- R20, R226: who steps next beside a Host that runs a program. -/
inductive SystemTurn where
  | host
  | core
  | rstPin (level : Bool)
  deriving DecidableEq, Repr

/-- R20, R107: one step of the Host with its program, of the Core, or of the reset pin, beside each other. -/
def systemStep (mw : Nat) (t : SystemTurn) (h : HostRun) (s : State) : Host.Outcome (HostRun × State) Fault Refusal :=
  match t with
  | .host => hostLineStep mw h s
  | .core =>
    match coreTurn s with
    | .next u => .next (h, u)
    | .fault r => .fault r
    | .refused r => .refused r
  | .rstPin level => .next (h, resetPinTurn level s)

/-- R107, R117: a run of the Host's program along the schedule `ts`. It ends when the Host has no next line, whatever
turns are left. -/
def systemRun (mw : Nat) : List SystemTurn → HostRun → State → Host.Outcome (HostRun × State) Fault Refusal
  | [], h, s => .next (h, s)
  | t :: ts, h, s =>
    if h.ended then .next (h, s)
    else match systemStep mw t h s with
      | .next (h', s') => systemRun mw ts h' s'
      | .fault r => .fault r
      | .refused r => .refused r

/-- R117, U16: the datapath registers become draws, on a core with buffers of `mw` words: W, RES, QA to QD, CTR_CUR,
BLOCKS_DONE and every OUT word (R49), and S, which R21 puts in the datapath group (DEDUCED, log entry 19). -/
def State.drawDatapath (mw : Nat) (s : State) : State :=
  { s with
    wReg := Vector.ofFn fun i : Fin 16 => Config.busyRead (s.draws + i.val)
    sReg := Vector.ofFn fun i : Fin 16 => Config.busyRead (s.draws + 16 + i.val)
    res := Config.busyRead (s.draws + 32)
    qa := Config.busyRead (s.draws + 33)
    qb := Config.busyRead (s.draws + 34)
    qc := Config.busyRead (s.draws + 35)
    qd := Config.busyRead (s.draws + 36)
    ctrCur := Config.busyRead (s.draws + 37)
    blocksDone := Config.busyRead (s.draws + 38)
    outBuf := (List.range mw).foldl (fun m g => m.writeWord g (Config.busyRead (s.draws + 39 + g))) s.outBuf
    draws := s.draws + 39 + mw }

/-- R117: the end state of a run is defined: the Host has no next line and BUSY is 0. -/
def HostRun.endDefined (h : HostRun) (s : State) : Bool := h.ended && !s.busy

/-- R117, U16: the end state of a run that stands at `h` and `s`: none while the Host has a next line; the state itself
when BUSY is 0; with draws for the datapath registers when BUSY is 1. -/
def HostRun.endState (mw : Nat) (h : HostRun) (s : State) : Option State :=
  if h.ended then some (if s.busy then s.drawDatapath mw else s) else none

end Sys2Proof.Machine
end

