-- ==== Sys2Proof/Safety.lean ====
section
/-! DEFINITION. What the claims about the machine are said in: the invariants of the state (10_state.md R28, R38, R48,
20_memory.md R67, 43_block.md R165), the part of the state a running command works on, and the message as the cipher
sees it. -/

namespace Sys2Proof.Machine

/-- The arithmetic-unit commands (R130). -/
def isArithmetic (c : Instr) : Prop :=
  c = .add ∨ c = .xor ∨ c = .rotl16 ∨ c = .rotl12 ∨ c = .rotl8 ∨ c = .rotl7

/-- R181, R183, R186: a STREAM with block `BLK` still to come: the message fits the buffers, its bytes are not used up,
and BLOCKS_DONE counts the blocks before. -/
def State.streamRunning (s : State) : Prop :=
  s.opc = .stream ∧ s.msgLen.toNat ≤ Config.maxLen Config.msgWords ∧ 64 * s.blk < s.msgLen.toNat ∧
    s.blocksDone = BitVec.ofNat 32 s.blk

/-- R48, R109, R112: what PHASE says of OPC, DR, QI and BLK. -/
def State.controllerInv (s : State) : Prop :=
  match s.phase with
  | .idle => True
  | .alu => isArithmetic s.opc
  | .qrt => s.opc = .qr
  | .load => s.opc = .init ∨ s.opc = .block ∨ s.streamRunning
  | .round => (s.opc = .dround ∧ s.dr = 0) ∨ ((s.opc = .block ∨ s.streamRunning) ∧ s.dr < 10)
  | .ffwd => s.opc = .ffwd ∨ ((s.opc = .block ∨ s.streamRunning) ∧ s.dr = 10 ∧ s.qi = 0)
  | .xor => s.streamRunning ∧ s.dr = 10 ∧ s.qi = 0
  | .fin => s.opc = .stream ∧ s.msgLen = 0#32

/-- What every reachable state satisfies, and every step keeps. -/
structure State.Inv (s : State) : Prop where
  /-- R28, R202: ERRCODE is NONE exactly when ERR is 0. -/
  errCode_none_iff : s.errCode = .none ↔ s.err = false
  /-- R28: BUSY is 1 exactly when PHASE is not IDLE. -/
  busy_iff : s.busy = true ↔ s.phase ≠ .idle
  /-- R28: BUSY implies not DONE. -/
  not_done_of_busy : s.busy = true → s.done = false
  /-- R226: in reset the Core runs nothing. -/
  not_busy_in_reset : s.rstN = false → s.busy = false
  /-- R48: the controller's registers agree. -/
  controller : s.controllerInv
  /-- R48: DR is 0..10. -/
  dr_le : s.dr ≤ 10
  /-- R48: BLK is 0..64. -/
  blk_le : s.blk ≤ 64
  /-- R38: BLOCKS_DONE is at most MAX_LEN / 64 rounded up. -/
  blocksDone_le : s.blocksDone.toNat ≤ blockCount (Config.maxLen Config.msgWords)
  /-- IN is canonical and inside the buffer. -/
  inBuf_wf : s.inBuf.wf = true ∧ s.inBuf.within Config.msgWords = true
  /-- OUT is canonical and inside the buffer. -/
  outBuf_wf : s.outBuf.wf = true ∧ s.outBuf.within Config.msgWords = true

/-- The first `n` groups of the schedule, in order, on `w` (R148, R149). -/
def mixGroups : Nat → Vector Word 16 → Vector Word 16
  | 0, w => w
  | n + 1, w => applyGroup (sched[n % 8]'(Nat.mod_lt _ (by decide))) (mixGroups n w)

/-- R165, R187: what W, S and CTR_CUR hold while a BLOCK or STREAM block is being computed: the block's counter, the
original state built from it, and W as many quarter rounds on from S as DR and QI say. -/
structure State.DatapathInv (s : State) : Prop where
  counter_of_block : s.phase ≠ .idle → s.opc = .init ∨ s.opc = .block → s.ctrCur = s.counter
  counter_of_stream : s.phase ≠ .idle → s.opc = .stream → s.ctrCur = s.counter + BitVec.ofNat 32 s.blk
  rounds : s.phase = .round → s.opc ≠ .dround →
    s.sReg = buildState s.key s.nonce s.ctrCur ∧ s.wReg = mixGroups s.qi.val (doubleRounds s.dr s.sReg)
  feedForward : s.phase = .ffwd → s.opc ≠ .ffwd →
    s.sReg = buildState s.key s.nonce s.ctrCur ∧ s.wReg = doubleRounds 10 s.sReg
  output : s.phase = .xor →
    s.sReg = buildState s.key s.nonce s.ctrCur ∧ s.wReg = blockFunction s.key s.nonce s.ctrCur

/-- R47, R107: the part of the state a running command reads and writes. What the Host can still change while BUSY is
1 (CTRL, ERR, ERRCODE, WDROP) and the world around the core are blotted out. -/
def State.engineView (s : State) : State :=
  { s with
    emptyErr := false, irqEn := false, err := false, errCode := .none, wdrop := false
    draws := 0, turns := [], log := [] }

/-- R20: a turn that is not the reset pin's. -/
def Turn.notReset : Turn → Bool
  | .rstPin _ => false
  | .host _ | .core => true

/-- R108: the number of Core turns in a schedule. -/
def coreTurns (ts : List Turn) : Nat := ts.countP (fun t => decide (t = .core))

/-- R188: keystream word `g` of a message whose first block has counter `c`. -/
def keystreamWord (k : Vector Word 8) (n : Vector Word 3) (c : Word) (g : Nat) : Word :=
  (blockFunction k n (c + BitVec.ofNat 32 (g / 16)))[g % 16]'(Nat.mod_lt _ (by decide))

/-- R188: byte `p` of the keystream. -/
def keystreamByte (k : Vector Word 8) (n : Vector Word 3) (c : Word) (p : Nat) : Byte :=
  byteOf (keystreamWord k n c (p / 4)) (p % 4)

/-- `n` steps of the machine, stopping at the first that answers no next state. -/
def runSteps : Nat → State → Host.Outcome State Fault Refusal
  | 0, s => .next s
  | n + 1, s =>
    match step s with
    | .next t => runSteps n t
    | .fault r => .fault r
    | .refused r => .refused r

/-- A core that is out of reset, idle and left alone by the outside world. -/
def State.quiet (s : State) : Prop := s.rstN = true ∧ s.busy = false ∧ s.turns = []

/-- The Host's access `a` is next and the core is out of reset; `ts` comes after. -/
def State.accessNext (s : State) (a : Access) (ts : List Turn) : Prop := s.rstN = true ∧ s.turns = .host a :: ts

/-- `s` with the next turn taken off the schedule and the access `a` answered with `data`, without a bus error. -/
def State.answered (s : State) (a : Access) (ts : List Turn) (data : Word) : State :=
  (s.withTurns ts).respond a data false

/-- R111: the key and the nonce have been loaded with the right number of words. -/
def State.loaded (s : State) : Prop := s.keyCnt = 8#4 ∧ s.nonceCnt = 3#4

/-- R180, R188, R246: a STREAM of the `len` bytes in IN, issued on `s`, a loaded core left alone, is accepted and after
its 83 Core steps a block leaves `u`. -/
def State.streamCompletes (s : State) (len : Nat) (u : State) : Prop :=
  s.quiet ∧ s.loaded ∧ s.outBuf.wf = true ∧ len = s.msgLen.toNat ∧ 0 < len ∧ len ≤ 4 * Config.msgWords ∧
    ∃ t, exec .stream s = .next t ∧ runSteps (83 * blockCount len) t = .next u

end Sys2Proof.Machine
end

