-- ==== Sys2Proof/Certificates/Slice0/Obligations.lean ====
section
/-! DEFINITION. The statements for the provers. Each cites the rule of spec/ it formalises; `runSteps n` is `n` steps of
the machine, so from a quiet state (nothing scheduled) it is `n` Core steps. -/

open Sys2Proof Sys2Proof.Machine

/-! ### Encoding (30_encoding.md) -/

/-- R87: a word decodes to a command exactly when its bits 31:8 are 0 and its bits 7:0 are the command's opcode; every
other word is ILLEGAL. -/
def Obligations.DecodesExactlyTheOpcodes : Prop :=
  ∀ (v : Word) (i : Instr),
    (decode v = .ok i ↔ v.extractLsb' 8 24 = 0#24 ∧ v.extractLsb' 0 8 = (encode i).extractLsb' 0 8) ∧
    ((∀ j, ¬ (v.extractLsb' 8 24 = 0#24 ∧ v.extractLsb' 0 8 = (encode j).extractLsb' 0 8)) →
      ∃ r, decode v = .error r)

/-- R87, R88: every command's word decodes to it, and it is the only word that does; the host's numbering of the bits
gives the same. -/
def Obligations.DecodeInvertsEncode : Prop :=
  ∀ (i : Instr) (v : Word),
    (i.wellFormed = true → decode (encode i) = .ok i) ∧ (decode v = .ok i → v = encode i) ∧
      decodeTableWord 32 (encode i).toNat = some i

/-- R88: full words of each opcode group, and neighbours that are no commands. -/
def Obligations.ListedWordsDecode : Prop :=
  decode 0x00000000#32 = .ok .nop ∧ decode 0x00000003#32 = .ok .stream ∧ decode 0x00000006#32 = .ok .qr ∧
    decode 0x00000010#32 = .ok .add ∧ decode 0x00000015#32 = .ok .rotl7 ∧ decode 0x00000021#32 = .ok .nonceClr ∧
    decode 0x00000007#32 = .error .unlistedOpcode ∧ decode 0x00000100#32 = .error .reservedBits

/-- R89, R207: an illegal word decodes to no command; written to CMD it raises ILLEGAL_COMMAND, whatever BUSY is, and
changes nothing else. -/
def Obligations.IllegalWordOnlyRecordsError : Prop :=
  ∀ (s : State) (v : Word) (ts : List Turn), s.accessNext (commandWrite v) ts →
    (v.toNat / 256 ≠ 0 ∨ (0x07 ≤ v.toNat % 256 ∧ v.toNat % 256 ≤ 0x0F) ∨
      (0x16 ≤ v.toNat % 256 ∧ v.toNat % 256 ≤ 0x1F) ∨ 0x22 ≤ v.toNat % 256) →
    (∃ r, decode v = .error r) ∧ step s = .next { s.answered (commandWrite v) ts 0#32 with
      err := true, errCode := if s.err then s.errCode else .illegalCommand }

/-! ### The step -/

/-- R27, R110: when the Host's next access writes to CMD a word that decodes to `i`, the step issues `i` on the state
with that access answered; `withFetchWord` arranges exactly that. -/
def Obligations.StepRunsTheDecodedCommand : Prop :=
  ∀ (s : State) (v : Word) (i : Instr) (ts : List Turn), decode v = .ok i →
    (s.accessNext (commandWrite v) ts → step s = exec i (s.answered (commandWrite v) ts 0#32)) ∧
    step (s.withFetchWord 32 v.toNat) =
      exec i { s with rstN := true, log := ⟨commandWrite v, 0#32, false⟩ :: s.log }

/-- R108, R226: the Core's turn is a Core step exactly when BUSY is 1 (and `rst_n` is high), and nothing otherwise;
with nothing scheduled the step is the Core's turn (log entries 2 and 3: the model's convention). -/
def Obligations.CoreStepsOnlyWhenBusy : Prop :=
  ∀ (s : State) (ts : List Turn),
    (s.turns = .core :: ts → s.rstN = true → s.busy = true → step s = coreStep (s.withTurns ts)) ∧
    (s.turns = .core :: ts → s.rstN = false ∨ s.busy = false → step s = .next (s.withTurns ts)) ∧
    (s.turns = [] → s.rstN = true → s.busy = true → step s = coreStep s) ∧
    (s.turns = [] → s.rstN = false ∨ s.busy = false → step s = .next s)

/-! ### Immediate commands (40_command_issue.md) -/

/-- R114: NOP changes nothing and raises nothing, even while busy. -/
def Obligations.NopDoesNothing : Prop :=
  decode 0x00000000#32 = .ok .nop ∧
  ∀ s : State, exec .nop s = .next s

/-- R115: KEY_CLR zeroes the key words and the count when idle, and is refused with COMMAND_WHILE_BUSY when busy. -/
def Obligations.KeyClearCommand : Prop :=
  decode 0x00000020#32 = .ok .keyClr ∧
  ∀ s : State,
    (s.busy = false → ∃ t, exec .keyClr s = .next t ∧ (∀ i : Fin 8, t.key[i] = 0#32) ∧ t.keyCnt = 0#4 ∧
      t = { s with key := t.key, keyCnt := t.keyCnt }) ∧
    (s.busy = true → exec .keyClr s = .next (s.raise .commandWhileBusy))

/-- R116: NONCE_CLR, likewise. -/
def Obligations.NonceClearCommand : Prop :=
  decode 0x00000021#32 = .ok .nonceClr ∧
  ∀ s : State,
    (s.busy = false → ∃ t, exec .nonceClr s = .next t ∧ (∀ i : Fin 3, t.nonce[i] = 0#32) ∧ t.nonceCnt = 0#4 ∧
      t = { s with nonce := t.nonce, nonceCnt := t.nonceCnt }) ∧
    (s.busy = true → exec .nonceClr s = .next (s.raise .commandWhileBusy))

/-! ### Arithmetic unit (41_arith.md) -/

/-- R131: ADD is accepted when idle; one Core step puts the sum modulo 2^32 into RES and completes; it is refused
while busy. No other register, flag or byte changes. -/
def Obligations.AddCommand : Prop :=
  decode 0x00000010#32 = .ok .add ∧
  ∀ s : State,
    (s.busy = false → exec .add s = .next { s with busy := true, done := false, opc := .add, phase := .alu }) ∧
    (s.quiet → runSteps 1 { s with busy := true, done := false, opc := .add, phase := .alu } =
      .next { s with
        res := BitVec.ofNat 32 ((s.opa.toNat + s.opb.toNat) % 2 ^ 32)
        busy := false, done := true, opc := .add, phase := .idle }) ∧
    (s.busy = true → exec .add s = .next (s.raise .commandWhileBusy))

/-- R132, R126: XOR, likewise: bit `i` of RES is `OPA[i] XOR OPB[i]`. -/
def Obligations.XorCommand : Prop :=
  decode 0x00000011#32 = .ok .xor ∧
  ∀ s : State,
    (s.busy = false → exec .xor s = .next { s with busy := true, done := false, opc := .xor, phase := .alu }) ∧
    (s.quiet → ∃ t, runSteps 1 { s with busy := true, done := false, opc := .xor, phase := .alu } = .next t ∧
      (∀ i, i < 32 → t.res.getLsbD i = (s.opa.getLsbD i ^^ s.opb.getLsbD i)) ∧
      t = { s with res := t.res, busy := false, done := true, opc := .xor, phase := .idle }) ∧
    (s.busy = true → exec .xor s = .next (s.raise .commandWhileBusy))

/-- R133 to R136: the four rotations, each with its word, its result written as the spec's concatenation of two slices
of OPA; OPB is not read. -/
def Obligations.RotateCommands : Prop :=
  ∀ (s : State) (w : Word) (c : Instr) (r : Word),
    (w, c, r) ∈ [(0x00000012#32, Instr.rotl16, s.opa.extractLsb' 0 16 ++ s.opa.extractLsb' 16 16),
      (0x00000013#32, Instr.rotl12, s.opa.extractLsb' 0 20 ++ s.opa.extractLsb' 20 12),
      (0x00000014#32, Instr.rotl8, s.opa.extractLsb' 0 24 ++ s.opa.extractLsb' 24 8),
      (0x00000015#32, Instr.rotl7, s.opa.extractLsb' 0 25 ++ s.opa.extractLsb' 25 7)] →
    decode w = .ok c ∧
    (s.busy = false → exec c s = .next { s with busy := true, done := false, opc := c, phase := .alu }) ∧
    (s.quiet → runSteps 1 { s with busy := true, done := false, opc := c, phase := .alu } =
      .next { s with res := r, busy := false, done := true, opc := c, phase := .idle }) ∧
    (s.busy = true → exec c s = .next (s.raise .commandWhileBusy))

/-- R127: bit `i` goes to bit `(i + n) mod 32`, for the four counts of the hardware. -/
def Obligations.RotationMovesBits : Prop :=
  ∀ (x : Word) (n i : Nat), n ∈ [16, 12, 8, 7] → i < 32 →
    (rotl32 x n).getLsbD ((i + n) % 32) = x.getLsbD i ∧
    (rotl32 x n).toNat = ((x.toNat <<< n) ||| (x.toNat >>> (32 - n))) % 2 ^ 32

/-- R138: rotations compose by adding their counts and commute with exclusive or. -/
def Obligations.RotationLaws : Prop :=
  ∀ (x y : Word) (a b : Nat), a ∈ [16, 12, 8, 7] → b ∈ [16, 12, 8, 7] →
    rotl32 (rotl32 x a) b = rotl32 x ((a + b) % 32) ∧
    rotl32 (xor32 x y) a = xor32 (rotl32 x a) (rotl32 y a) ∧
    (rotl32 x a = rotl32 y a → x = y)

/-! ### Quarter-round engine and round controller (42_quarter_round.md) -/

/-- R146, R147, R151, R152: QR is accepted when idle; one Core step replaces QA..QD by the twelve statements' results
and completes; W, S and everything else stay. It is refused while busy. -/
def Obligations.QuarterRoundCommand : Prop :=
  decode 0x00000006#32 = .ok .qr ∧
  ∀ (s : State) (a1 t1 d1 c1 t2 b1 a2 t3 d2 c2 t4 b2 : Word),
    a1 = s.qa + s.qb → t1 = s.qd ^^^ a1 → d1 = t1.rotateLeft 16 →
    c1 = s.qc + d1 → t2 = s.qb ^^^ c1 → b1 = t2.rotateLeft 12 →
    a2 = a1 + b1 → t3 = d1 ^^^ a2 → d2 = t3.rotateLeft 8 →
    c2 = c1 + d2 → t4 = b1 ^^^ c2 → b2 = t4.rotateLeft 7 →
    (s.busy = false → exec .qr s = .next { s with busy := true, done := false, opc := .qr, phase := .qrt }) ∧
    (s.quiet → runSteps 1 { s with busy := true, done := false, opc := .qr, phase := .qrt } =
      .next { s with
        qa := a2, qb := b2, qc := c2, qd := d2
        busy := false, done := true, opc := .qr, phase := .idle }) ∧
    (s.busy = true → exec .qr s = .next (s.raise .commandWhileBusy))

/-- R147: the published vector of the quarter round. -/
def Obligations.QuarterRoundVector : Prop :=
  quarterRound ⟨0x11111111#32, 0x01020304#32, 0x9b8d6f43#32, 0x01234567#32⟩ =
    ⟨0xea2a92f4#32, 0xcb1cf8ce#32, 0x4581472e#32, 0x5881c4bb#32⟩

/-- R154: the quarter round is a bijection on four words, and the double round one on W. -/
def Obligations.RoundsAreBijective : Prop := Function.Bijective quarterRound ∧ Function.Bijective doubleRound

/-- R148: the four quarter rounds of one round touch disjoint words, so their order does not matter. -/
def Obligations.QuarterRoundsOfARoundCommute : Prop :=
  ∀ (i j : Fin 8) (w : Vector Word 16), i.val / 4 = j.val / 4 →
    applyGroup sched[i] (applyGroup sched[j] w) = applyGroup sched[j] (applyGroup sched[i] w)

/-- R149, R153: DROUND is accepted when idle with whatever W holds; eight Core steps apply the double round to W and
complete; S, CTR_CUR, BLOCKS_DONE and the rest stay. It is refused while busy. -/
def Obligations.DoubleRoundCommand : Prop :=
  decode 0x00000004#32 = .ok .dround ∧
  ∀ s : State,
    (s.busy = false → exec .dround s =
      .next { s with busy := true, done := false, opc := .dround, phase := .round, dr := 0, qi := 0 }) ∧
    (s.quiet → runSteps 8 { s with busy := true, done := false, opc := .dround, phase := .round, dr := 0, qi := 0 } =
      .next { s with
        wReg := doubleRound s.wReg
        busy := false, done := true, opc := .dround, phase := .idle, dr := 1, qi := 0 }) ∧
    (s.busy = true → exec .dround s = .next (s.raise .commandWhileBusy))

/-- R150, R148: the ROUND step: one quarter round of the schedule on W, the group of each QI written out from R148's
table, the other twelve words left, and the controller's advance as the rule's case list gives it. -/
def Obligations.RoundStepFollowsTheSchedule : Prop :=
  ∀ (s : State) (p q r d : Fin 16), s.phase = .round →
    (s.qi.val, p, q, r, d) ∈
      [(0, 0, 4, 8, 12), (1, 1, 5, 9, 13), (2, 2, 6, 10, 14), (3, 3, 7, 11, 15),
       (4, 0, 5, 10, 15), (5, 1, 6, 11, 12), (6, 2, 7, 8, 13), (7, 3, 4, 9, 14)] →
    ∃ t, coreStep s = .next t ∧
      (⟨t.wReg[p], t.wReg[q], t.wReg[r], t.wReg[d]⟩ : Quad) =
        quarterRound ⟨s.wReg[p], s.wReg[q], s.wReg[r], s.wReg[d]⟩ ∧
      (∀ i : Fin 16, i ≠ p → i ≠ q → i ≠ r → i ≠ d → t.wReg[i] = s.wReg[i]) ∧
      (s.qi.val < 7 → t = { s with wReg := t.wReg, qi := t.qi } ∧ t.qi.val = s.qi.val + 1) ∧
      (s.qi.val = 7 → s.opc = .dround →
        t = { s with wReg := t.wReg, qi := 0, dr := s.dr + 1, busy := false, done := true, phase := .idle }) ∧
      (s.qi.val = 7 → s.opc ≠ .dround → s.dr + 1 = 10 →
        t = { s with wReg := t.wReg, qi := 0, dr := s.dr + 1, phase := .ffwd }) ∧
      (s.qi.val = 7 → s.opc ≠ .dround → s.dr + 1 ≠ 10 →
        t = { s with wReg := t.wReg, qi := 0, dr := s.dr + 1 })

/-! ### State construction, feed-forward, block (43_block.md) -/

/-- R160: the layout of the constructed state, and the four constants. -/
def Obligations.BuildStateLayout : Prop :=
  ∀ (k : Vector Word 8) (n : Vector Word 3) (c : Word),
    (buildState k n c)[0] = 0x61707865#32 ∧ (buildState k n c)[1] = 0x3320646e#32 ∧
    (buildState k n c)[2] = 0x79622d32#32 ∧ (buildState k n c)[3] = 0x6b206574#32 ∧
    (∀ i : Fin 8, (buildState k n c)[4 + i.val] = k[i]) ∧
    (buildState k n c)[12] = c ∧ (∀ i : Fin 3, (buildState k n c)[13 + i.val] = n[i])

/-- R162, R164: INIT on a loaded, idle core is accepted; one LOAD step builds S and W from KEY, NONCE and COUNTER and
completes. Its checks fail key first; it is refused while busy. -/
def Obligations.InitCommand : Prop :=
  decode 0x00000001#32 = .ok .init ∧
  ∀ s : State,
    (s.busy = false → s.loaded → exec .init s =
      .next { s with
        busy := true, done := false, opc := .init, phase := .load
        ctrCur := s.counter, blocksDone := 0#32, blk := 0 }) ∧
    (s.quiet → runSteps 1 { s with
        busy := true, done := false, opc := .init, phase := .load
        ctrCur := s.counter, blocksDone := 0#32, blk := 0 } =
      .next { s with
        sReg := buildState s.key s.nonce s.counter, wReg := buildState s.key s.nonce s.counter
        ctrCur := s.counter, blocksDone := 0#32, blk := 0, dr := 0, qi := 0
        busy := false, done := true, opc := .init, phase := .idle }) ∧
    (s.busy = false → s.keyCnt ≠ 8#4 → exec .init s = .next (s.raise .invalidKeyLength)) ∧
    (s.busy = false → s.keyCnt = 8#4 → s.nonceCnt ≠ 3#4 → exec .init s = .next (s.raise .invalidNonceLength)) ∧
    (s.busy = true → exec .init s = .next (s.raise .commandWhileBusy))

/-- R166, R168: FFWD is accepted when idle; one Core step adds S to W lane by lane, each lane modulo 2^32 on its own,
and completes; CTR_CUR, BLOCKS_DONE and the rest stay. It is refused while busy. -/
def Obligations.FeedForwardCommand : Prop :=
  decode 0x00000005#32 = .ok .ffwd ∧
  ∀ s : State,
    (s.busy = false → exec .ffwd s = .next { s with busy := true, done := false, opc := .ffwd, phase := .ffwd }) ∧
    (s.quiet → ∃ t, runSteps 1 { s with busy := true, done := false, opc := .ffwd, phase := .ffwd } = .next t ∧
      (∀ i : Fin 16, t.wReg[i].toNat = (s.wReg[i].toNat + s.sReg[i].toNat) % 2 ^ 32) ∧
      t = { s with wReg := t.wReg, busy := false, done := true, opc := .ffwd, phase := .idle }) ∧
    (s.busy = true → exec .ffwd s = .next (s.raise .commandWhileBusy))

/-- R169: BLOCK on a loaded, idle core is accepted; 82 Core steps leave S = BuildState, W =
FeedForward(DoubleRound^10(S), S), CTR_CUR = COUNTER + 1 and BLOCKS_DONE = 1, and complete; nothing else changes. Its
checks fail key first; it is refused while busy. -/
def Obligations.BlockCommand : Prop :=
  decode 0x00000002#32 = .ok .block ∧
  ∀ s : State,
    (s.busy = false → s.loaded → exec .block s =
      .next { s with
        busy := true, done := false, opc := .block, phase := .load
        ctrCur := s.counter, blocksDone := 0#32, blk := 0 }) ∧
    (s.quiet → runSteps 82 { s with
        busy := true, done := false, opc := .block, phase := .load
        ctrCur := s.counter, blocksDone := 0#32, blk := 0 } =
      .next { s with
        sReg := buildState s.key s.nonce s.counter
        wReg := feedForward (doubleRounds 10 (buildState s.key s.nonce s.counter))
          (buildState s.key s.nonce s.counter)
        ctrCur := s.counter + 1#32, blocksDone := 1#32, blk := 0, dr := 10, qi := 0
        busy := false, done := true, opc := .block, phase := .idle }) ∧
    (s.busy = false → s.keyCnt ≠ 8#4 → exec .block s = .next (s.raise .invalidKeyLength)) ∧
    (s.busy = false → s.keyCnt = 8#4 → s.nonceCnt ≠ 3#4 → exec .block s = .next (s.raise .invalidNonceLength)) ∧
    (s.busy = true → exec .block s = .next (s.raise .commandWhileBusy))

/-- R246: a BLOCK is busy after each of its first 81 Core steps and done after the 82nd. -/
def Obligations.BlockTakesEightyTwoSteps : Prop :=
  ∀ (s : State) (k : Nat), s.quiet → s.loaded → k ≤ 82 →
    ∃ t u, exec .block s = .next t ∧ runSteps k t = .next u ∧ (u.busy = true ↔ k < 82)

/-! ### Stream (44_stream.md) -/

/-- R182: a STREAM with MSG_LEN = 0 completes in its one FIN step when EMPTY_ERR is 0, computing and writing nothing,
and raises EMPTY_MESSAGE when EMPTY_ERR is 1. -/
def Obligations.EmptyStream : Prop :=
  ∀ s : State, s.quiet → s.loaded → s.msgLen = 0#32 →
    (s.emptyErr = false → ∃ t, exec .stream s = .next t ∧ t.busy = true ∧ runSteps 1 t =
      .next { s with
        ctrCur := s.counter, blocksDone := 0#32, blk := 0
        busy := false, done := true, opc := .stream, phase := .idle }) ∧
    (s.emptyErr = true → exec .stream s = .next (s.raise .emptyMessage))

/-- R203, R204, R206, R211: what validation rejects, the key before the nonce and both before the length, whatever
EMPTY_ERR is; a rejection only records the error, and while busy the command is refused before any check. -/
def Obligations.ValidationErrors : Prop :=
  ∀ (s : State) (c : Instr), c ∈ [Instr.init, .block, .stream] →
    (s.busy = true → exec c s = .next (s.raise .commandWhileBusy)) ∧
    (s.busy = false → s.keyCnt ≠ 8#4 → exec c s = .next (s.raise .invalidKeyLength)) ∧
    (s.busy = false → s.keyCnt = 8#4 → s.nonceCnt ≠ 3#4 → exec c s = .next (s.raise .invalidNonceLength)) ∧
    (s.busy = false → s.loaded → c = .stream → s.msgLen.toNat > 4 * Config.msgWords →
      exec c s = .next (s.raise .lengthTooLarge)) ∧
    (s.busy = false → s.loaded → c = .stream → s.msgLen = 0#32 → s.emptyErr = true →
      exec c s = .next (s.raise .emptyMessage))

/-- R180, R188: a STREAM of 1 to MAX_LEN bytes on a loaded, idle core is accepted and completes after 83 Core steps
per block. Then every OUT word of the message is the IN word XOR its keystream word, masked to the message's bytes;
every OUT byte past the last word written is as before; W is the last keystream block and S its original state; the
counters have moved on by the number of blocks; and nothing else has changed. -/
def Obligations.StreamComputesTheCipher : Prop :=
  ∀ (s : State) (len nb : Nat), s.quiet → s.loaded → s.outBuf.wf = true →
    len = s.msgLen.toNat → nb = blockCount len → 0 < len → len ≤ 4 * Config.msgWords →
    ∃ t u, exec .stream s = .next t ∧ t.busy = true ∧ runSteps (83 * nb) t = .next u ∧
      (∀ g, 4 * g < len → u.outWord g =
        (s.inWord g ^^^ keystreamWord s.key s.nonce s.counter g) &&& byteMask (min 4 (len - 4 * g))) ∧
      (∀ p, 4 * wordCount len ≤ p → u.outByte p = s.outByte p) ∧
      u = { s with
        outBuf := u.outBuf
        wReg := blockFunction s.key s.nonce (s.counter + BitVec.ofNat 32 (nb - 1))
        sReg := buildState s.key s.nonce (s.counter + BitVec.ofNat 32 (nb - 1))
        ctrCur := s.counter + BitVec.ofNat 32 nb, blocksDone := BitVec.ofNat 32 nb
        blk := nb, dr := 10, qi := 0
        busy := false, done := true, opc := .stream, phase := .idle }

/-- R188, R192, R67: in bytes: output byte `p` of the message is message byte `p` XOR keystream byte `p`, and the
bytes of the last word past the message are 0. -/
def Obligations.StreamBytes : Prop :=
  ∀ (s t u : State) (len : Nat), s.quiet → s.loaded → s.outBuf.wf = true →
    len = s.msgLen.toNat → 0 < len → len ≤ 4 * Config.msgWords →
    exec .stream s = .next t → runSteps (83 * blockCount len) t = .next u →
    (∀ p, p < len → u.outByte p = s.inByte p ^^^ keystreamByte s.key s.nonce s.counter p) ∧
    (∀ p, len ≤ p → p < 4 * wordCount len → u.outByte p = 0#8)

/-- R191: a second STREAM with the same key, nonce, counter and length, whose IN holds the first one's output, gives
the first one's message back, and zeros in the rest of its last word. -/
def Obligations.StreamRoundTrip : Prop :=
  ∀ (s t u s' t' u' : State) (len : Nat), s.quiet → s.loaded → s.outBuf.wf = true →
    len = s.msgLen.toNat → 0 < len → len ≤ 4 * Config.msgWords →
    exec .stream s = .next t → runSteps (83 * blockCount len) t = .next u →
    s'.quiet → s'.loaded → s'.outBuf.wf = true → s'.key = s.key → s'.nonce = s.nonce →
    s'.counter = s.counter → s'.msgLen = s.msgLen → (∀ p, p < len → s'.inByte p = u.outByte p) →
    exec .stream s' = .next t' → runSteps (83 * blockCount len) t' = .next u' →
    (∀ p, p < len → u'.outByte p = s.inByte p) ∧ (∀ p, len ≤ p → p < 4 * wordCount len → u'.outByte p = 0#8)

/-- R194: a STREAM over `len'` bytes with COUNTER at `c + j` writes what the bytes from `64 j` on of one message with
first counter `c` give, however long that message is; and if a STREAM with the same key and nonce and COUNTER `c` runs
over such a message in its IN, the part's output is its output from byte `64 j` on. -/
def Obligations.StreamInPartsGivesTheWholeOutput : Prop :=
  ∀ (s' u' : State) (len' j : Nat) (c : Word), s'.streamCompletes len' u' → s'.counter = c + BitVec.ofNat 32 j →
    (∀ p, p < len' → u'.outByte p = s'.inByte p ^^^ keystreamByte s'.key s'.nonce c (64 * j + p)) ∧
    ∀ (s u : State) (len : Nat), s.streamCompletes len u → s.key = s'.key → s.nonce = s'.nonce → s.counter = c →
      64 * j + len' ≤ len → (∀ p, p < len' → s'.inByte p = s.inByte (64 * j + p)) →
      ∀ p, p < len' → u'.outByte p = u.outByte (64 * j + p)

/-- R186: the XOR step for block BLK: the OUT words of the block that hold message bytes are written, every other OUT
byte is left, the counters move on, and the command completes or loads the next block. -/
def Obligations.XorStepWritesItsBlock : Prop :=
  ∀ s : State, s.phase = .xor → s.outBuf.wf = true →
    ∃ t, coreStep s = .next t ∧
      (∀ (i : Fin 16) (g : Nat), g = 16 * s.blk + i.val → 4 * g < s.msgLen.toNat →
        t.outWord g = (s.inWord g ^^^ s.wReg[i]) &&& byteMask (min 4 (s.msgLen.toNat - 4 * g))) ∧
      (∀ p, p < 64 * s.blk ∨ 64 * s.blk + 64 ≤ p ∨ s.msgLen.toNat ≤ 4 * (p / 4) → t.outByte p = s.outByte p) ∧
      (64 * (s.blk + 1) ≥ s.msgLen.toNat → t = { s with
        outBuf := t.outBuf, ctrCur := s.ctrCur + 1#32, blk := s.blk + 1, blocksDone := BitVec.ofNat 32 (s.blk + 1)
        busy := false, done := true, phase := .idle }) ∧
      (64 * (s.blk + 1) < s.msgLen.toNat → t = { s with
        outBuf := t.outBuf, ctrCur := s.ctrCur + 1#32, blk := s.blk + 1, blocksDone := BitVec.ofNat 32 (s.blk + 1)
        phase := .load })

/-! ### Errors, status, interrupt (60_exceptions.md, 10_state.md) -/

/-- R201, R214: raising an error sets ERR, keeps the first error's code, and changes nothing else. -/
def Obligations.RaiseKeepsTheFirstError : Prop :=
  ∀ (s : State) (e : ErrorCode),
    (s.err = false → s.raise e = { s with err := true, errCode := e }) ∧
    (s.err = true → s.raise e = s)

/-- R208, R90: every command but NOP, written while busy, is discarded with COMMAND_WHILE_BUSY and nothing else. -/
def Obligations.CommandWhileBusyIsDiscarded : Prop :=
  ∀ (i : Instr) (s : State), i ≠ .nop → s.busy = true →
    exec i s = .next { s with err := true, errCode := if s.err then s.errCode else .commandWhileBusy }

/-- R110, R212: issuing a command always answers a next state: the command is NOP and nothing changes, or it is
accepted or carried out on an idle core with ERR and ERRCODE as they were, or one error is raised and nothing else
changes. -/
def Obligations.IssueAcceptsOrOnlyRecordsError : Prop :=
  ∀ (i : Instr) (s : State), ∃ t, exec i s = .next t ∧
    ((i = .nop ∧ t = s) ∨
      (s.busy = false ∧ (i = .keyClr ∨ i = .nonceClr) ∧ t.busy = false ∧ t.done = s.done ∧ t.err = s.err ∧
        t.errCode = s.errCode) ∨
      (s.busy = false ∧ i ≠ .nop ∧ i ≠ .keyClr ∧ i ≠ .nonceClr ∧ t.busy = true ∧ t.done = false ∧ t.opc = i ∧
        t.phase ≠ .idle ∧ t.err = s.err ∧ t.errCode = s.errCode ∧ t.wdrop = s.wdrop) ∨
      (∃ e, e ≠ .none ∧ t = { s with err := true, errCode := if s.err then s.errCode else e }))

/-- R29, R213: a STATUS write clears DONE by bit 1, ERR with ERRCODE by bit 2 and WDROP by bit 3, whatever BUSY is,
and changes nothing else. -/
def Obligations.StatusWriteClears : Prop :=
  ∀ (s : State) (v : Word) (ts : List Turn) (a : Access), a = .write 0x00C#14 .word v → s.accessNext a ts →
    step s = .next { s.answered a ts 0#32 with
      done := if v.getLsbD 1 then false else s.done
      err := if v.getLsbD 2 then false else s.err
      errCode := if v.getLsbD 2 then .none else s.errCode
      wdrop := if v.getLsbD 3 then false else s.wdrop }

/-- R28, R202: a STATUS read returns BUSY, DONE, ERR, WDROP in bits 0 to 3, the number of the error code in 7:4 and 0
above. -/
def Obligations.StatusReadLayout : Prop :=
  (∀ (s : State) (ts : List Turn) (a : Access), a = .read 0x00C#14 .word → s.accessNext a ts →
    ∃ v, step s = .next (s.answered a ts v) ∧
      v.getLsbD 0 = s.busy ∧ v.getLsbD 1 = s.done ∧ v.getLsbD 2 = s.err ∧ v.getLsbD 3 = s.wdrop ∧
      v.extractLsb' 4 4 = s.errCode.code ∧ v.extractLsb' 8 24 = 0#24) ∧
  ErrorCode.none.code = 0#4 ∧ ErrorCode.invalidKeyLength.code = 1#4 ∧ ErrorCode.invalidNonceLength.code = 2#4 ∧
    ErrorCode.emptyMessage.code = 3#4 ∧ ErrorCode.lengthTooLarge.code = 4#4 ∧
    ErrorCode.illegalCommand.code = 5#4 ∧ ErrorCode.commandWhileBusy.code = 6#4

/-- R210: the interrupt is high exactly while IRQ_EN and (DONE or ERR); a STATUS write of bits 1 and 2, or a CTRL
write with bit 1 clear, lowers it. -/
def Obligations.InterruptLevel : Prop :=
  (∀ s : State, s.irq = true ↔ s.irqEn = true ∧ (s.done = true ∨ s.err = true)) ∧
  (∀ (s t : State) (v : Word) (ts : List Turn), s.accessNext (.write 0x00C#14 .word v) ts →
    v.getLsbD 1 = true → v.getLsbD 2 = true → step s = .next t → t.irq = false) ∧
  (∀ (s t : State) (v : Word) (ts : List Turn), s.accessNext (.write 0x004#14 .word v) ts →
    v.getLsbD 1 = false → step s = .next t → t.irq = false)

/-- R26, R45: a CTRL write takes effect at once, whatever BUSY is, and CTRL then reads back its two low bits, the
reserved bits as 0. -/
def Obligations.CtrlReadsBackTwoBits : Prop :=
  ∀ (s : State) (v : Word), s.rstN = true →
    s.turns = [.host (.write 0x004#14 .word v), .host (.read 0x004#14 .word)] →
    runSteps 2 s = .next { s with
      emptyErr := v.getLsbD 0, irqEn := v.getLsbD 1, turns := []
      log := ⟨.read 0x004#14 .word, v &&& 3#32, false⟩ :: ⟨.write 0x004#14 .word v, 0#32, false⟩ :: s.log }

/-! ### Input registers and the bus (10_state.md, 20_memory.md) -/

/-- R31, R33: a write to KEY_IN on an idle core stores the word at the count while the count is below 8 and moves the
count on, saturating at 15; NONCE_IN likewise with 3. While busy such a write is dropped; a read returns 0. -/
def Obligations.LoadPortsPushAndCount : Prop :=
  ∀ (s : State) (v : Word) (ts : List Turn) (a : Access), s.accessNext a ts →
    (s.busy = false → a = .write 0x010#14 .word v → ∃ t, step s = .next t ∧
      t = { s.answered a ts 0#32 with key := t.key, keyCnt := t.keyCnt } ∧
      t.keyCnt.toNat = min (s.keyCnt.toNat + 1) 15 ∧
      ∀ i : Fin 8, t.key[i] = if i.val = s.keyCnt.toNat then v else s.key[i]) ∧
    (s.busy = false → a = .write 0x014#14 .word v → ∃ t, step s = .next t ∧
      t = { s.answered a ts 0#32 with nonce := t.nonce, nonceCnt := t.nonceCnt } ∧
      t.nonceCnt.toNat = min (s.nonceCnt.toNat + 1) 15 ∧
      ∀ i : Fin 3, t.nonce[i] = if i.val = s.nonceCnt.toNat then v else s.nonce[i]) ∧
    (s.busy = true → a = .write 0x010#14 .word v ∨ a = .write 0x014#14 .word v →
      step s = .next { s.answered a ts 0#32 with wdrop := true }) ∧
    (a = .read 0x010#14 .word ∨ a = .read 0x014#14 .word → step s = .next (s.answered a ts 0#32))

/-- R35, R36, R39, R41, R72: on an idle core a write to a data register only stores its value. -/
def Obligations.IdleWritesStore : Prop :=
  ∀ (s : State) (v : Word) (off : Offset) (ts : List Turn) (a : Access), a = .write off .word v → s.accessNext a ts →
    s.busy = false →
    (off = 0x01C#14 → step s = .next { s.answered a ts 0#32 with counter := v }) ∧
    (off = 0x020#14 → step s = .next { s.answered a ts 0#32 with msgLen := v }) ∧
    (off = 0x030#14 → step s = .next { s.answered a ts 0#32 with opa := v }) ∧
    (off = 0x034#14 → step s = .next { s.answered a ts 0#32 with opb := v }) ∧
    (off = 0x040#14 → step s = .next { s.answered a ts 0#32 with qa := v }) ∧
    (off = 0x044#14 → step s = .next { s.answered a ts 0#32 with qb := v }) ∧
    (off = 0x048#14 → step s = .next { s.answered a ts 0#32 with qc := v }) ∧
    (off = 0x04C#14 → step s = .next { s.answered a ts 0#32 with qd := v })

/-- R47: while busy, a write to an input register or any IN word is dropped: it sets WDROP and changes nothing else. A
write to CTRL, STATUS or CMD is never dropped. -/
def Obligations.BusyWritesAreDropped : Prop :=
  ∀ (s : State) (v : Word) (off : Offset) (ts : List Turn) (a : Access), a = .write off .word v → s.accessNext a ts →
    s.busy = true →
    (off ∈ [0x010#14, 0x014#14, 0x01C#14, 0x020#14, 0x030#14, 0x034#14, 0x040#14, 0x044#14, 0x048#14, 0x04C#14] ∨
        (off.toNat % 4 = 0 ∧ 0x1000 ≤ off.toNat ∧ off.toNat < 0x1000 + 4 * Config.msgWords) →
      step s = .next { s.answered a ts 0#32 with wdrop := true }) ∧
    (off = 0x004#14 → step s =
      .next { s.answered a ts 0#32 with emptyErr := v.getLsbD 0, irqEn := v.getLsbD 1 }) ∧
    (off = 0x00C#14 → ∃ t, step s = .next t ∧ t.done = (s.done && !v.getLsbD 1) ∧
      t.err = (s.err && !v.getLsbD 2) ∧ t.wdrop = (s.wdrop && !v.getLsbD 3)) ∧
    (off = 0x008#14 → ∀ i, decode v = .ok i → step s = exec i (s.answered a ts 0#32))

/-- R43, R67: on an idle core a write to the IN word at byte offset 0x1000 + 4g puts the word's bytes, little-endian,
at message bytes 4g to 4g+3, leaves every other message byte and all else, and the word reads back as written. -/
def Obligations.InWordWriteIsLittleEndian : Prop :=
  ∀ (s : State) (v : Word) (g : Nat) (ts : List Turn) (a : Access),
    a = .write (BitVec.ofNat 14 (0x1000 + 4 * g)) .word v → s.accessNext a ts → s.busy = false →
    g < Config.msgWords → s.inBuf.wf = true →
    ∃ t, step s = .next t ∧ t = { s.answered a ts 0#32 with inBuf := t.inBuf } ∧ t.inWord g = v ∧
      (∀ p, p / 4 = g → t.inByte p = v.extractLsb' (8 * (p % 4)) 8) ∧
      (∀ p, p / 4 ≠ g → t.inByte p = s.inByte p)

/-- R46: a write to a read-only register is ignored, without an error; a read of a write-only register returns 0 and
changes nothing. -/
def Obligations.ReadOnlyAndWriteOnlyRegisters : Prop :=
  ∀ (s : State) (v : Word) (off : Offset) (ts : List Turn),
    (s.accessNext (.write off .word v) ts →
      off ∈ [0x000#14, 0x018#14, 0x024#14, 0x028#14, 0x038#14] ∨
        (off.toNat % 4 = 0 ∧ 0x080 ≤ off.toNat ∧ off.toNat < 0x0C0) ∨
        (off.toNat % 4 = 0 ∧ 0x2000 ≤ off.toNat ∧ off.toNat < 0x2000 + 4 * Config.msgWords) →
      step s = .next (s.answered (.write off .word v) ts 0#32)) ∧
    (s.accessNext (.read off .word) ts → off ∈ [0x008#14, 0x010#14, 0x014#14] →
      step s = .next (s.answered (.read off .word) ts 0#32))

/-- R25, R34, R49: what a read of each register returns. ID, LDCNT, COUNTER, MSG_LEN, OPA, OPB and IN words are exact
at all times. -/
def Obligations.ExactReads : Prop :=
  ∀ (s : State) (off : Offset) (ts : List Turn) (a : Access), a = .read off .word → s.accessNext a ts →
    (off = 0x000#14 → step s = .next (s.answered a ts 0x43433230#32)) ∧
    (off = 0x018#14 → ∃ v, step s = .next (s.answered a ts v) ∧ v.extractLsb' 0 4 = s.keyCnt ∧
      v.extractLsb' 4 4 = s.nonceCnt ∧ v.extractLsb' 8 24 = 0#24) ∧
    (off = 0x01C#14 → step s = .next (s.answered a ts s.counter)) ∧
    (off = 0x020#14 → step s = .next (s.answered a ts s.msgLen)) ∧
    (off = 0x030#14 → step s = .next (s.answered a ts s.opa)) ∧
    (off = 0x034#14 → step s = .next (s.answered a ts s.opb)) ∧
    (∀ g, g < Config.msgWords → off = BitVec.ofNat 14 (0x1000 + 4 * g) →
      step s = .next (s.answered a ts (s.inWord g)))

/-- R42, R44, R49: a datapath register (W, OUT, RES, QA to QD, CTR_CUR, BLOCKS_DONE) reads its exact value when idle
and a fresh draw, whatever the register holds, while busy. -/
def Obligations.DatapathReads : Prop :=
  ∀ (s : State) (off : Offset) (v : Word) (ts : List Turn) (a : Access), a = .read off .word → s.accessNext a ts →
    (off = 0x024#14 ∧ v = s.ctrCur) ∨ (off = 0x028#14 ∧ v = s.blocksDone) ∨ (off = 0x038#14 ∧ v = s.res) ∨
      (off = 0x040#14 ∧ v = s.qa) ∨ (off = 0x044#14 ∧ v = s.qb) ∨ (off = 0x048#14 ∧ v = s.qc) ∨
      (off = 0x04C#14 ∧ v = s.qd) ∨
      (∃ i : Fin 16, off = BitVec.ofNat 14 (0x080 + 4 * i.val) ∧ v = s.wReg[i]) ∨
      (∃ g, g < Config.msgWords ∧ off = BitVec.ofNat 14 (0x2000 + 4 * g) ∧ v = s.outWord g) →
    (s.busy = false → step s = .next (s.answered a ts v)) ∧
    (s.busy = true → step s =
      .next { s.answered a ts (Config.busyRead s.draws) with draws := s.draws + 1 })

/-- R62 to R65: an access that is not 32-bit, not word-aligned or not at a mapped offset completes with `err = 1` and
data 0 and changes nothing; every other access completes with `err = 0`. -/
def Obligations.BusErrorExactlyWhenIllegal : Prop :=
  ∀ (s : State) (a : Access) (ts : List Turn) (off : Nat) (legal : Prop), s.accessNext a ts → off = a.offset.toNat →
    (legal ↔ a.size = .word ∧ off % 4 = 0 ∧
      (off ≤ 0x028 ∨ (0x030 ≤ off ∧ off ≤ 0x038) ∨ (0x040 ≤ off ∧ off ≤ 0x04C) ∨ (0x080 ≤ off ∧ off ≤ 0x0BC) ∨
        (0x1000 ≤ off ∧ off < 0x1000 + 4 * Config.msgWords) ∨
        (0x2000 ≤ off ∧ off < 0x2000 + 4 * Config.msgWords))) →
    (¬ legal → step s = .next ((s.withTurns ts).respond a 0#32 true)) ∧
    (legal → ∃ t v, step s = .next t ∧ t.log = ⟨a, v, false⟩ :: s.log)

/-- R71: a read, of any offset and any size, changes no state of the core; only the model's own record of responses
and count of draws move on. -/
def Obligations.ReadsChangeNoState : Prop :=
  ∀ (s : State) (off : Offset) (n : Size) (ts : List Turn), s.turns = .host (.read off n) :: ts →
    ∃ t, step s = .next t ∧ t = { s with turns := ts, log := t.log, draws := t.draws }

/-- R30, R32, R216: no bus access returns a word of KEY or NONCE: two states that differ only there answer every
access alike. -/
def Obligations.KeyAndNonceAreWriteOnly : Prop :=
  ∀ (s s' t t' : State) (a : Access) (ts : List Turn), s.turns = .host a :: ts →
    s' = { s with key := s'.key, nonce := s'.nonce } → step s = .next t → step s' = .next t' → t'.log = t.log

/-! ### Reset (70_reset_and_hazards.md, 10_state.md R51) -/

/-- R229, and R51 but for IN and OUT: the values of the state right after reset; the core is idle, its interrupt is
masked and low, and an empty STREAM is a no-op. -/
def Obligations.ResetValues : Prop :=
  State.reset.busy = false ∧ State.reset.done = false ∧ State.reset.err = false ∧ State.reset.wdrop = false ∧
    State.reset.errCode = .none ∧ State.reset.emptyErr = false ∧ State.reset.irqEn = false ∧
    State.reset.keyCnt = 0#4 ∧ State.reset.nonceCnt = 0#4 ∧ State.reset.counter = 0#32 ∧
    State.reset.msgLen = 0#32 ∧ State.reset.ctrCur = 0#32 ∧ State.reset.blocksDone = 0#32 ∧
    State.reset.opa = 0#32 ∧ State.reset.opb = 0#32 ∧ State.reset.res = 0#32 ∧ State.reset.qa = 0#32 ∧
    State.reset.qb = 0#32 ∧ State.reset.qc = 0#32 ∧ State.reset.qd = 0#32 ∧ State.reset.phase = .idle ∧
    State.reset.opc = .nop ∧ State.reset.dr = 0 ∧ State.reset.qi = 0 ∧ State.reset.blk = 0 ∧
    State.reset.statusWord = 0#32 ∧ State.reset.irq = false ∧
    (∀ i : Fin 16, State.reset.wReg[i] = 0#32 ∧ State.reset.sReg[i] = 0#32) ∧
    (∀ i : Fin 8, State.reset.key[i] = 0#32) ∧ (∀ i : Fin 3, State.reset.nonce[i] = 0#32)

/-- R226 to R228: pulling `rst_n` low and letting it go leaves the reset state, from any state, a running command
included; the schedule and the responses go on, and IN and OUT hold the unspecified contents of a new epoch (log
entries 7 and 10). -/
def Obligations.ResetPinGivesResetState : Prop :=
  ∀ s : State, s.turns = [.rstPin false, .rstPin true] →
    ∃ t, runSteps 2 s = .next t ∧
      t = { State.reset with epoch := t.epoch, draws := s.draws, log := s.log } ∧ s.epoch < t.epoch

/-- R226: while `rst_n` is low the Core takes no step and every access completes with `err = 1`, data 0 and no effect.
-/
def Obligations.NothingHappensInReset : Prop :=
  ∀ (s : State) (a : Access) (ts : List Turn), s.rstN = false →
    (s.turns = .host a :: ts → step s = .next ((s.withTurns ts).respond a 0#32 true)) ∧
    (s.turns = .core :: ts → step s = .next (s.withTurns ts))

/-! ### Invariants -/

/-- The invariants hold right after reset (R28, R48, R51). -/
def Obligations.ResetMeetsInvariants : Prop := State.reset.Inv ∧ State.reset.DatapathInv

/-- R28, R38, R48, R112: every step, of any agent, keeps the invariant of the flags, the controller, the counters and
the buffers. -/
def Obligations.StepKeepsInvariant : Prop := ∀ s t : State, s.Inv → step s = .next t → t.Inv

/-- R165, R187: every step keeps the invariant of the datapath: at every moment of a BLOCK or STREAM block, W is as
many quarter rounds on from S as the controller says, and S is built with the block's counter. -/
def Obligations.StepKeepsDatapathInvariant : Prop :=
  ∀ s t : State, s.Inv → s.DatapathInv → step s = .next t → t.DatapathInv

/-- R108, R200, R214: the machine never stops: from a state that meets the invariant every step answers a next state.
-/
def Obligations.StepNeverStops : Prop := ∀ s : State, s.Inv → ∃ t, step s = .next t

/-- R47, R110, R200: whatever the Host does while a command runs, the command is not disturbed: nothing it reads or
writes changes, and it is still running. -/
def Obligations.HostCannotDisturbARunningCommand : Prop :=
  ∀ (s : State) (a : Access) (ts : List Turn), s.Inv → s.accessNext a ts → s.busy = true →
    ∃ t, step s = .next t ∧ t.engineView = s.engineView ∧ t.busy = true

/-- R107, R117: a running command's results do not depend on how the Host's accesses interleave with the Core's steps:
if the command is still running before each of the schedule's Core turns, the schedule leaves the same registers and
buffers as the Core's steps alone. -/
def Obligations.ResultsDoNotDependOnTheSchedule : Prop :=
  ∀ (s u : State) (ts : List Turn), s.Inv → s.rstN = true → s.busy = true → (∀ t ∈ ts, t.notReset = true) →
    (∀ k, k ≤ coreTurns ts → ∃ v, runSteps k { s with turns := [] } = .next v ∧ v.busy = true) →
    runSteps (coreTurns ts + 1) { s with turns := [] } = .next u →
    ∃ t, runSteps (ts.length + 1) { s with turns := ts ++ [.core] } = .next t ∧ t.engineView = u.engineView

/-! ### Frames -/

/-- R86, R110, R115, R116: what issuing a command can change. Every command leaves W, S, COUNTER, MSG_LEN, the operand
and result registers, CTRL, WDROP, every byte of IN and of OUT and the reset pin alone; only KEY_CLR writes the key
and only NONCE_CLR the nonce; only INIT, BLOCK and STREAM write CTR_CUR, BLOCKS_DONE and BLK; only DROUND writes DR
and QI. -/
def Obligations.CommandIssueFrame : Prop :=
  ∀ (i : Instr) (s t : State), exec i s = .next t →
    (t.wReg = s.wReg ∧ t.sReg = s.sReg ∧ t.counter = s.counter ∧ t.msgLen = s.msgLen ∧ t.opa = s.opa ∧
      t.opb = s.opb ∧ t.res = s.res ∧ t.qa = s.qa ∧ t.qb = s.qb ∧ t.qc = s.qc ∧ t.qd = s.qd ∧
      t.emptyErr = s.emptyErr ∧ t.irqEn = s.irqEn ∧ t.wdrop = s.wdrop ∧ t.rstN = s.rstN) ∧
    (∀ p, t.inByte p = s.inByte p ∧ t.outByte p = s.outByte p) ∧
    (i ≠ .keyClr → t.key = s.key ∧ t.keyCnt = s.keyCnt) ∧
    (i ≠ .nonceClr → t.nonce = s.nonce ∧ t.nonceCnt = s.nonceCnt) ∧
    (i ≠ .init → i ≠ .block → i ≠ .stream →
      t.ctrCur = s.ctrCur ∧ t.blocksDone = s.blocksDone ∧ t.blk = s.blk) ∧
    (i ≠ .dround → t.dr = s.dr ∧ t.qi = s.qi) ∧
    (i = .nop ∨ i = .keyClr ∨ i = .nonceClr →
      t.busy = s.busy ∧ t.done = s.done ∧ t.phase = s.phase ∧ t.opc = s.opc)

/-- R23, R24, R40, R86: what a Core step can change. It leaves every input register, CTRL, the error flags, the reset
pin and every byte of IN alone; RES is written only in PHASE ALU, QA to QD only in QRT, S only in LOAD, W only in
LOAD, ROUND and FFWD, CTR_CUR and BLOCKS_DONE only in FFWD and XOR, and an OUT byte only in XOR and only in the words
of block BLK that hold message bytes. -/
def Obligations.CoreStepFrame : Prop :=
  ∀ s t : State, coreStep s = .next t → s.outBuf.wf = true →
    (t.key = s.key ∧ t.keyCnt = s.keyCnt ∧ t.nonce = s.nonce ∧ t.nonceCnt = s.nonceCnt ∧ t.counter = s.counter ∧
      t.msgLen = s.msgLen ∧ t.opa = s.opa ∧ t.opb = s.opb ∧ t.emptyErr = s.emptyErr ∧ t.irqEn = s.irqEn ∧
      t.err = s.err ∧ t.errCode = s.errCode ∧ t.wdrop = s.wdrop ∧ t.rstN = s.rstN ∧ t.opc = s.opc) ∧
    (∀ p, t.inByte p = s.inByte p) ∧
    (s.phase ≠ .alu → t.res = s.res) ∧
    (s.phase ≠ .qrt → t.qa = s.qa ∧ t.qb = s.qb ∧ t.qc = s.qc ∧ t.qd = s.qd) ∧
    (s.phase ≠ .load → t.sReg = s.sReg) ∧
    (s.phase ≠ .load → s.phase ≠ .round → s.phase ≠ .ffwd → t.wReg = s.wReg) ∧
    (s.phase ≠ .ffwd → s.phase ≠ .xor → t.ctrCur = s.ctrCur ∧ t.blocksDone = s.blocksDone) ∧
    (∀ p, s.phase ≠ .xor ∨ p < 64 * s.blk ∨ 64 * s.blk + 64 ≤ p ∨ s.msgLen.toNat ≤ 4 * (p / 4) →
      t.outByte p = s.outByte p)
end

