-- ==== Sys2Proof/Laws/State.lean ====
section
/-! SUPPORT. One lemma per field per update of the state, each true by unfolding the update once, so that no later proof
unfolds a record update. The updates are those of Machine/Ops.lean, Machine/Flags.lean and the Core's steps. -/

namespace Sys2Proof.Machine

/-! #### raise (R201) -/

@[simp] theorem State.raise_wReg (s : State) (e : ErrorCode) : (s.raise e).wReg = s.wReg := rfl
@[simp] theorem State.raise_sReg (s : State) (e : ErrorCode) : (s.raise e).sReg = s.sReg := rfl
@[simp] theorem State.raise_key (s : State) (e : ErrorCode) : (s.raise e).key = s.key := rfl
@[simp] theorem State.raise_keyCnt (s : State) (e : ErrorCode) : (s.raise e).keyCnt = s.keyCnt := rfl
@[simp] theorem State.raise_nonce (s : State) (e : ErrorCode) : (s.raise e).nonce = s.nonce := rfl
@[simp] theorem State.raise_nonceCnt (s : State) (e : ErrorCode) : (s.raise e).nonceCnt = s.nonceCnt := rfl
@[simp] theorem State.raise_counter (s : State) (e : ErrorCode) : (s.raise e).counter = s.counter := rfl
@[simp] theorem State.raise_msgLen (s : State) (e : ErrorCode) : (s.raise e).msgLen = s.msgLen := rfl
@[simp] theorem State.raise_ctrCur (s : State) (e : ErrorCode) : (s.raise e).ctrCur = s.ctrCur := rfl
@[simp] theorem State.raise_blocksDone (s : State) (e : ErrorCode) : (s.raise e).blocksDone = s.blocksDone := rfl
@[simp] theorem State.raise_opa (s : State) (e : ErrorCode) : (s.raise e).opa = s.opa := rfl
@[simp] theorem State.raise_opb (s : State) (e : ErrorCode) : (s.raise e).opb = s.opb := rfl
@[simp] theorem State.raise_res (s : State) (e : ErrorCode) : (s.raise e).res = s.res := rfl
@[simp] theorem State.raise_qa (s : State) (e : ErrorCode) : (s.raise e).qa = s.qa := rfl
@[simp] theorem State.raise_qb (s : State) (e : ErrorCode) : (s.raise e).qb = s.qb := rfl
@[simp] theorem State.raise_qc (s : State) (e : ErrorCode) : (s.raise e).qc = s.qc := rfl
@[simp] theorem State.raise_qd (s : State) (e : ErrorCode) : (s.raise e).qd = s.qd := rfl
@[simp] theorem State.raise_emptyErr (s : State) (e : ErrorCode) : (s.raise e).emptyErr = s.emptyErr := rfl
@[simp] theorem State.raise_irqEn (s : State) (e : ErrorCode) : (s.raise e).irqEn = s.irqEn := rfl
@[simp] theorem State.raise_busy (s : State) (e : ErrorCode) : (s.raise e).busy = s.busy := rfl
@[simp] theorem State.raise_done (s : State) (e : ErrorCode) : (s.raise e).done = s.done := rfl
@[simp] theorem State.raise_err (s : State) (e : ErrorCode) : (s.raise e).err = true := rfl
@[simp] theorem State.raise_wdrop (s : State) (e : ErrorCode) : (s.raise e).wdrop = s.wdrop := rfl
@[simp] theorem State.raise_errCode (s : State) (e : ErrorCode) :
    (s.raise e).errCode = if s.err then s.errCode else e := rfl
@[simp] theorem State.raise_phase (s : State) (e : ErrorCode) : (s.raise e).phase = s.phase := rfl
@[simp] theorem State.raise_opc (s : State) (e : ErrorCode) : (s.raise e).opc = s.opc := rfl
@[simp] theorem State.raise_dr (s : State) (e : ErrorCode) : (s.raise e).dr = s.dr := rfl
@[simp] theorem State.raise_qi (s : State) (e : ErrorCode) : (s.raise e).qi = s.qi := rfl
@[simp] theorem State.raise_blk (s : State) (e : ErrorCode) : (s.raise e).blk = s.blk := rfl
@[simp] theorem State.raise_inBuf (s : State) (e : ErrorCode) : (s.raise e).inBuf = s.inBuf := rfl
@[simp] theorem State.raise_outBuf (s : State) (e : ErrorCode) : (s.raise e).outBuf = s.outBuf := rfl
@[simp] theorem State.raise_rstN (s : State) (e : ErrorCode) : (s.raise e).rstN = s.rstN := rfl
@[simp] theorem State.raise_epoch (s : State) (e : ErrorCode) : (s.raise e).epoch = s.epoch := rfl
@[simp] theorem State.raise_draws (s : State) (e : ErrorCode) : (s.raise e).draws = s.draws := rfl
@[simp] theorem State.raise_turns (s : State) (e : ErrorCode) : (s.raise e).turns = s.turns := rfl
@[simp] theorem State.raise_log (s : State) (e : ErrorCode) : (s.raise e).log = s.log := rfl

/-! #### complete (R113) -/

@[simp] theorem State.complete_wReg (s : State) : s.complete.wReg = s.wReg := rfl
@[simp] theorem State.complete_sReg (s : State) : s.complete.sReg = s.sReg := rfl
@[simp] theorem State.complete_key (s : State) : s.complete.key = s.key := rfl
@[simp] theorem State.complete_keyCnt (s : State) : s.complete.keyCnt = s.keyCnt := rfl
@[simp] theorem State.complete_nonce (s : State) : s.complete.nonce = s.nonce := rfl
@[simp] theorem State.complete_nonceCnt (s : State) : s.complete.nonceCnt = s.nonceCnt := rfl
@[simp] theorem State.complete_counter (s : State) : s.complete.counter = s.counter := rfl
@[simp] theorem State.complete_msgLen (s : State) : s.complete.msgLen = s.msgLen := rfl
@[simp] theorem State.complete_ctrCur (s : State) : s.complete.ctrCur = s.ctrCur := rfl
@[simp] theorem State.complete_blocksDone (s : State) : s.complete.blocksDone = s.blocksDone := rfl
@[simp] theorem State.complete_opa (s : State) : s.complete.opa = s.opa := rfl
@[simp] theorem State.complete_opb (s : State) : s.complete.opb = s.opb := rfl
@[simp] theorem State.complete_res (s : State) : s.complete.res = s.res := rfl
@[simp] theorem State.complete_qa (s : State) : s.complete.qa = s.qa := rfl
@[simp] theorem State.complete_qb (s : State) : s.complete.qb = s.qb := rfl
@[simp] theorem State.complete_qc (s : State) : s.complete.qc = s.qc := rfl
@[simp] theorem State.complete_qd (s : State) : s.complete.qd = s.qd := rfl
@[simp] theorem State.complete_emptyErr (s : State) : s.complete.emptyErr = s.emptyErr := rfl
@[simp] theorem State.complete_irqEn (s : State) : s.complete.irqEn = s.irqEn := rfl
@[simp] theorem State.complete_busy (s : State) : s.complete.busy = false := rfl
@[simp] theorem State.complete_done (s : State) : s.complete.done = true := rfl
@[simp] theorem State.complete_err (s : State) : s.complete.err = s.err := rfl
@[simp] theorem State.complete_wdrop (s : State) : s.complete.wdrop = s.wdrop := rfl
@[simp] theorem State.complete_errCode (s : State) : s.complete.errCode = s.errCode := rfl
@[simp] theorem State.complete_phase (s : State) : s.complete.phase = .idle := rfl
@[simp] theorem State.complete_opc (s : State) : s.complete.opc = s.opc := rfl
@[simp] theorem State.complete_dr (s : State) : s.complete.dr = s.dr := rfl
@[simp] theorem State.complete_qi (s : State) : s.complete.qi = s.qi := rfl
@[simp] theorem State.complete_blk (s : State) : s.complete.blk = s.blk := rfl
@[simp] theorem State.complete_inBuf (s : State) : s.complete.inBuf = s.inBuf := rfl
@[simp] theorem State.complete_outBuf (s : State) : s.complete.outBuf = s.outBuf := rfl
@[simp] theorem State.complete_rstN (s : State) : s.complete.rstN = s.rstN := rfl
@[simp] theorem State.complete_epoch (s : State) : s.complete.epoch = s.epoch := rfl
@[simp] theorem State.complete_draws (s : State) : s.complete.draws = s.draws := rfl
@[simp] theorem State.complete_turns (s : State) : s.complete.turns = s.turns := rfl
@[simp] theorem State.complete_log (s : State) : s.complete.log = s.log := rfl

/-! #### accept (R112) -/

@[simp] theorem State.accept_wReg (s : State) (c : Instr) (p : Phase) : (s.accept c p).wReg = s.wReg := rfl
@[simp] theorem State.accept_sReg (s : State) (c : Instr) (p : Phase) : (s.accept c p).sReg = s.sReg := rfl
@[simp] theorem State.accept_key (s : State) (c : Instr) (p : Phase) : (s.accept c p).key = s.key := rfl
@[simp] theorem State.accept_keyCnt (s : State) (c : Instr) (p : Phase) : (s.accept c p).keyCnt = s.keyCnt := rfl
@[simp] theorem State.accept_nonce (s : State) (c : Instr) (p : Phase) : (s.accept c p).nonce = s.nonce := rfl
@[simp] theorem State.accept_nonceCnt (s : State) (c : Instr) (p : Phase) :
    (s.accept c p).nonceCnt = s.nonceCnt := rfl
@[simp] theorem State.accept_counter (s : State) (c : Instr) (p : Phase) : (s.accept c p).counter = s.counter := rfl
@[simp] theorem State.accept_msgLen (s : State) (c : Instr) (p : Phase) : (s.accept c p).msgLen = s.msgLen := rfl
@[simp] theorem State.accept_ctrCur (s : State) (c : Instr) (p : Phase) : (s.accept c p).ctrCur = s.ctrCur := rfl
@[simp] theorem State.accept_blocksDone (s : State) (c : Instr) (p : Phase) :
    (s.accept c p).blocksDone = s.blocksDone := rfl
@[simp] theorem State.accept_opa (s : State) (c : Instr) (p : Phase) : (s.accept c p).opa = s.opa := rfl
@[simp] theorem State.accept_opb (s : State) (c : Instr) (p : Phase) : (s.accept c p).opb = s.opb := rfl
@[simp] theorem State.accept_res (s : State) (c : Instr) (p : Phase) : (s.accept c p).res = s.res := rfl
@[simp] theorem State.accept_qa (s : State) (c : Instr) (p : Phase) : (s.accept c p).qa = s.qa := rfl
@[simp] theorem State.accept_qb (s : State) (c : Instr) (p : Phase) : (s.accept c p).qb = s.qb := rfl
@[simp] theorem State.accept_qc (s : State) (c : Instr) (p : Phase) : (s.accept c p).qc = s.qc := rfl
@[simp] theorem State.accept_qd (s : State) (c : Instr) (p : Phase) : (s.accept c p).qd = s.qd := rfl
@[simp] theorem State.accept_emptyErr (s : State) (c : Instr) (p : Phase) :
    (s.accept c p).emptyErr = s.emptyErr := rfl
@[simp] theorem State.accept_irqEn (s : State) (c : Instr) (p : Phase) : (s.accept c p).irqEn = s.irqEn := rfl
@[simp] theorem State.accept_busy (s : State) (c : Instr) (p : Phase) : (s.accept c p).busy = true := rfl
@[simp] theorem State.accept_done (s : State) (c : Instr) (p : Phase) : (s.accept c p).done = false := rfl
@[simp] theorem State.accept_err (s : State) (c : Instr) (p : Phase) : (s.accept c p).err = s.err := rfl
@[simp] theorem State.accept_wdrop (s : State) (c : Instr) (p : Phase) : (s.accept c p).wdrop = s.wdrop := rfl
@[simp] theorem State.accept_errCode (s : State) (c : Instr) (p : Phase) : (s.accept c p).errCode = s.errCode := rfl
@[simp] theorem State.accept_phase (s : State) (c : Instr) (p : Phase) : (s.accept c p).phase = p := rfl
@[simp] theorem State.accept_opc (s : State) (c : Instr) (p : Phase) : (s.accept c p).opc = c := rfl
@[simp] theorem State.accept_dr (s : State) (c : Instr) (p : Phase) : (s.accept c p).dr = s.dr := rfl
@[simp] theorem State.accept_qi (s : State) (c : Instr) (p : Phase) : (s.accept c p).qi = s.qi := rfl
@[simp] theorem State.accept_blk (s : State) (c : Instr) (p : Phase) : (s.accept c p).blk = s.blk := rfl
@[simp] theorem State.accept_inBuf (s : State) (c : Instr) (p : Phase) : (s.accept c p).inBuf = s.inBuf := rfl
@[simp] theorem State.accept_outBuf (s : State) (c : Instr) (p : Phase) : (s.accept c p).outBuf = s.outBuf := rfl
@[simp] theorem State.accept_rstN (s : State) (c : Instr) (p : Phase) : (s.accept c p).rstN = s.rstN := rfl
@[simp] theorem State.accept_epoch (s : State) (c : Instr) (p : Phase) : (s.accept c p).epoch = s.epoch := rfl
@[simp] theorem State.accept_draws (s : State) (c : Instr) (p : Phase) : (s.accept c p).draws = s.draws := rfl
@[simp] theorem State.accept_turns (s : State) (c : Instr) (p : Phase) : (s.accept c p).turns = s.turns := rfl
@[simp] theorem State.accept_log (s : State) (c : Instr) (p : Phase) : (s.accept c p).log = s.log := rfl

/-! #### startDriver (R112) -/

@[simp] theorem State.startDriver_wReg (s : State) : s.startDriver.wReg = s.wReg := rfl
@[simp] theorem State.startDriver_sReg (s : State) : s.startDriver.sReg = s.sReg := rfl
@[simp] theorem State.startDriver_key (s : State) : s.startDriver.key = s.key := rfl
@[simp] theorem State.startDriver_keyCnt (s : State) : s.startDriver.keyCnt = s.keyCnt := rfl
@[simp] theorem State.startDriver_nonce (s : State) : s.startDriver.nonce = s.nonce := rfl
@[simp] theorem State.startDriver_nonceCnt (s : State) : s.startDriver.nonceCnt = s.nonceCnt := rfl
@[simp] theorem State.startDriver_counter (s : State) : s.startDriver.counter = s.counter := rfl
@[simp] theorem State.startDriver_msgLen (s : State) : s.startDriver.msgLen = s.msgLen := rfl
@[simp] theorem State.startDriver_ctrCur (s : State) : s.startDriver.ctrCur = s.counter := rfl
@[simp] theorem State.startDriver_blocksDone (s : State) : s.startDriver.blocksDone = 0#32 := rfl
@[simp] theorem State.startDriver_opa (s : State) : s.startDriver.opa = s.opa := rfl
@[simp] theorem State.startDriver_opb (s : State) : s.startDriver.opb = s.opb := rfl
@[simp] theorem State.startDriver_res (s : State) : s.startDriver.res = s.res := rfl
@[simp] theorem State.startDriver_qa (s : State) : s.startDriver.qa = s.qa := rfl
@[simp] theorem State.startDriver_qb (s : State) : s.startDriver.qb = s.qb := rfl
@[simp] theorem State.startDriver_qc (s : State) : s.startDriver.qc = s.qc := rfl
@[simp] theorem State.startDriver_qd (s : State) : s.startDriver.qd = s.qd := rfl
@[simp] theorem State.startDriver_emptyErr (s : State) : s.startDriver.emptyErr = s.emptyErr := rfl
@[simp] theorem State.startDriver_irqEn (s : State) : s.startDriver.irqEn = s.irqEn := rfl
@[simp] theorem State.startDriver_busy (s : State) : s.startDriver.busy = s.busy := rfl
@[simp] theorem State.startDriver_done (s : State) : s.startDriver.done = s.done := rfl
@[simp] theorem State.startDriver_err (s : State) : s.startDriver.err = s.err := rfl
@[simp] theorem State.startDriver_wdrop (s : State) : s.startDriver.wdrop = s.wdrop := rfl
@[simp] theorem State.startDriver_errCode (s : State) : s.startDriver.errCode = s.errCode := rfl
@[simp] theorem State.startDriver_phase (s : State) : s.startDriver.phase = s.phase := rfl
@[simp] theorem State.startDriver_opc (s : State) : s.startDriver.opc = s.opc := rfl
@[simp] theorem State.startDriver_dr (s : State) : s.startDriver.dr = s.dr := rfl
@[simp] theorem State.startDriver_qi (s : State) : s.startDriver.qi = s.qi := rfl
@[simp] theorem State.startDriver_blk (s : State) : s.startDriver.blk = 0 := rfl
@[simp] theorem State.startDriver_inBuf (s : State) : s.startDriver.inBuf = s.inBuf := rfl
@[simp] theorem State.startDriver_outBuf (s : State) : s.startDriver.outBuf = s.outBuf := rfl
@[simp] theorem State.startDriver_rstN (s : State) : s.startDriver.rstN = s.rstN := rfl
@[simp] theorem State.startDriver_epoch (s : State) : s.startDriver.epoch = s.epoch := rfl
@[simp] theorem State.startDriver_draws (s : State) : s.startDriver.draws = s.draws := rfl
@[simp] theorem State.startDriver_turns (s : State) : s.startDriver.turns = s.turns := rfl
@[simp] theorem State.startDriver_log (s : State) : s.startDriver.log = s.log := rfl

/-! #### startRounds (R112) -/

@[simp] theorem State.startRounds_wReg (s : State) : s.startRounds.wReg = s.wReg := rfl
@[simp] theorem State.startRounds_sReg (s : State) : s.startRounds.sReg = s.sReg := rfl
@[simp] theorem State.startRounds_key (s : State) : s.startRounds.key = s.key := rfl
@[simp] theorem State.startRounds_keyCnt (s : State) : s.startRounds.keyCnt = s.keyCnt := rfl
@[simp] theorem State.startRounds_nonce (s : State) : s.startRounds.nonce = s.nonce := rfl
@[simp] theorem State.startRounds_nonceCnt (s : State) : s.startRounds.nonceCnt = s.nonceCnt := rfl
@[simp] theorem State.startRounds_counter (s : State) : s.startRounds.counter = s.counter := rfl
@[simp] theorem State.startRounds_msgLen (s : State) : s.startRounds.msgLen = s.msgLen := rfl
@[simp] theorem State.startRounds_ctrCur (s : State) : s.startRounds.ctrCur = s.ctrCur := rfl
@[simp] theorem State.startRounds_blocksDone (s : State) : s.startRounds.blocksDone = s.blocksDone := rfl
@[simp] theorem State.startRounds_opa (s : State) : s.startRounds.opa = s.opa := rfl
@[simp] theorem State.startRounds_opb (s : State) : s.startRounds.opb = s.opb := rfl
@[simp] theorem State.startRounds_res (s : State) : s.startRounds.res = s.res := rfl
@[simp] theorem State.startRounds_qa (s : State) : s.startRounds.qa = s.qa := rfl
@[simp] theorem State.startRounds_qb (s : State) : s.startRounds.qb = s.qb := rfl
@[simp] theorem State.startRounds_qc (s : State) : s.startRounds.qc = s.qc := rfl
@[simp] theorem State.startRounds_qd (s : State) : s.startRounds.qd = s.qd := rfl
@[simp] theorem State.startRounds_emptyErr (s : State) : s.startRounds.emptyErr = s.emptyErr := rfl
@[simp] theorem State.startRounds_irqEn (s : State) : s.startRounds.irqEn = s.irqEn := rfl
@[simp] theorem State.startRounds_busy (s : State) : s.startRounds.busy = s.busy := rfl
@[simp] theorem State.startRounds_done (s : State) : s.startRounds.done = s.done := rfl
@[simp] theorem State.startRounds_err (s : State) : s.startRounds.err = s.err := rfl
@[simp] theorem State.startRounds_wdrop (s : State) : s.startRounds.wdrop = s.wdrop := rfl
@[simp] theorem State.startRounds_errCode (s : State) : s.startRounds.errCode = s.errCode := rfl
@[simp] theorem State.startRounds_phase (s : State) : s.startRounds.phase = s.phase := rfl
@[simp] theorem State.startRounds_opc (s : State) : s.startRounds.opc = s.opc := rfl
@[simp] theorem State.startRounds_dr (s : State) : s.startRounds.dr = 0 := rfl
@[simp] theorem State.startRounds_qi (s : State) : s.startRounds.qi = 0 := rfl
@[simp] theorem State.startRounds_blk (s : State) : s.startRounds.blk = s.blk := rfl
@[simp] theorem State.startRounds_inBuf (s : State) : s.startRounds.inBuf = s.inBuf := rfl
@[simp] theorem State.startRounds_outBuf (s : State) : s.startRounds.outBuf = s.outBuf := rfl
@[simp] theorem State.startRounds_rstN (s : State) : s.startRounds.rstN = s.rstN := rfl
@[simp] theorem State.startRounds_epoch (s : State) : s.startRounds.epoch = s.epoch := rfl
@[simp] theorem State.startRounds_draws (s : State) : s.startRounds.draws = s.draws := rfl
@[simp] theorem State.startRounds_turns (s : State) : s.startRounds.turns = s.turns := rfl
@[simp] theorem State.startRounds_log (s : State) : s.startRounds.log = s.log := rfl

/-! #### writeStatus (R29) -/

@[simp] theorem State.writeStatus_wReg (s : State) (v : Word) : (s.writeStatus v).wReg = s.wReg := rfl
@[simp] theorem State.writeStatus_sReg (s : State) (v : Word) : (s.writeStatus v).sReg = s.sReg := rfl
@[simp] theorem State.writeStatus_key (s : State) (v : Word) : (s.writeStatus v).key = s.key := rfl
@[simp] theorem State.writeStatus_keyCnt (s : State) (v : Word) : (s.writeStatus v).keyCnt = s.keyCnt := rfl
@[simp] theorem State.writeStatus_nonce (s : State) (v : Word) : (s.writeStatus v).nonce = s.nonce := rfl
@[simp] theorem State.writeStatus_nonceCnt (s : State) (v : Word) : (s.writeStatus v).nonceCnt = s.nonceCnt := rfl
@[simp] theorem State.writeStatus_counter (s : State) (v : Word) : (s.writeStatus v).counter = s.counter := rfl
@[simp] theorem State.writeStatus_msgLen (s : State) (v : Word) : (s.writeStatus v).msgLen = s.msgLen := rfl
@[simp] theorem State.writeStatus_ctrCur (s : State) (v : Word) : (s.writeStatus v).ctrCur = s.ctrCur := rfl
@[simp] theorem State.writeStatus_blocksDone (s : State) (v : Word) :
    (s.writeStatus v).blocksDone = s.blocksDone := rfl
@[simp] theorem State.writeStatus_opa (s : State) (v : Word) : (s.writeStatus v).opa = s.opa := rfl
@[simp] theorem State.writeStatus_opb (s : State) (v : Word) : (s.writeStatus v).opb = s.opb := rfl
@[simp] theorem State.writeStatus_res (s : State) (v : Word) : (s.writeStatus v).res = s.res := rfl
@[simp] theorem State.writeStatus_qa (s : State) (v : Word) : (s.writeStatus v).qa = s.qa := rfl
@[simp] theorem State.writeStatus_qb (s : State) (v : Word) : (s.writeStatus v).qb = s.qb := rfl
@[simp] theorem State.writeStatus_qc (s : State) (v : Word) : (s.writeStatus v).qc = s.qc := rfl
@[simp] theorem State.writeStatus_qd (s : State) (v : Word) : (s.writeStatus v).qd = s.qd := rfl
@[simp] theorem State.writeStatus_emptyErr (s : State) (v : Word) : (s.writeStatus v).emptyErr = s.emptyErr := rfl
@[simp] theorem State.writeStatus_irqEn (s : State) (v : Word) : (s.writeStatus v).irqEn = s.irqEn := rfl
@[simp] theorem State.writeStatus_busy (s : State) (v : Word) : (s.writeStatus v).busy = s.busy := rfl
@[simp] theorem State.writeStatus_done (s : State) (v : Word) :
    (s.writeStatus v).done = (s.done && !v.getLsbD 1) := rfl
@[simp] theorem State.writeStatus_err (s : State) (v : Word) : (s.writeStatus v).err = (s.err && !v.getLsbD 2) := rfl
@[simp] theorem State.writeStatus_wdrop (s : State) (v : Word) :
    (s.writeStatus v).wdrop = (s.wdrop && !v.getLsbD 3) := rfl
@[simp] theorem State.writeStatus_errCode (s : State) (v : Word) :
    (s.writeStatus v).errCode = if v.getLsbD 2 then .none else s.errCode := rfl
@[simp] theorem State.writeStatus_phase (s : State) (v : Word) : (s.writeStatus v).phase = s.phase := rfl
@[simp] theorem State.writeStatus_opc (s : State) (v : Word) : (s.writeStatus v).opc = s.opc := rfl
@[simp] theorem State.writeStatus_dr (s : State) (v : Word) : (s.writeStatus v).dr = s.dr := rfl
@[simp] theorem State.writeStatus_qi (s : State) (v : Word) : (s.writeStatus v).qi = s.qi := rfl
@[simp] theorem State.writeStatus_blk (s : State) (v : Word) : (s.writeStatus v).blk = s.blk := rfl
@[simp] theorem State.writeStatus_inBuf (s : State) (v : Word) : (s.writeStatus v).inBuf = s.inBuf := rfl
@[simp] theorem State.writeStatus_outBuf (s : State) (v : Word) : (s.writeStatus v).outBuf = s.outBuf := rfl
@[simp] theorem State.writeStatus_rstN (s : State) (v : Word) : (s.writeStatus v).rstN = s.rstN := rfl
@[simp] theorem State.writeStatus_epoch (s : State) (v : Word) : (s.writeStatus v).epoch = s.epoch := rfl
@[simp] theorem State.writeStatus_draws (s : State) (v : Word) : (s.writeStatus v).draws = s.draws := rfl
@[simp] theorem State.writeStatus_turns (s : State) (v : Word) : (s.writeStatus v).turns = s.turns := rfl
@[simp] theorem State.writeStatus_log (s : State) (v : Word) : (s.writeStatus v).log = s.log := rfl

/-! #### writeCtrl (R26) -/

@[simp] theorem State.writeCtrl_wReg (s : State) (v : Word) : (s.writeCtrl v).wReg = s.wReg := rfl
@[simp] theorem State.writeCtrl_sReg (s : State) (v : Word) : (s.writeCtrl v).sReg = s.sReg := rfl
@[simp] theorem State.writeCtrl_key (s : State) (v : Word) : (s.writeCtrl v).key = s.key := rfl
@[simp] theorem State.writeCtrl_keyCnt (s : State) (v : Word) : (s.writeCtrl v).keyCnt = s.keyCnt := rfl
@[simp] theorem State.writeCtrl_nonce (s : State) (v : Word) : (s.writeCtrl v).nonce = s.nonce := rfl
@[simp] theorem State.writeCtrl_nonceCnt (s : State) (v : Word) : (s.writeCtrl v).nonceCnt = s.nonceCnt := rfl
@[simp] theorem State.writeCtrl_counter (s : State) (v : Word) : (s.writeCtrl v).counter = s.counter := rfl
@[simp] theorem State.writeCtrl_msgLen (s : State) (v : Word) : (s.writeCtrl v).msgLen = s.msgLen := rfl
@[simp] theorem State.writeCtrl_ctrCur (s : State) (v : Word) : (s.writeCtrl v).ctrCur = s.ctrCur := rfl
@[simp] theorem State.writeCtrl_blocksDone (s : State) (v : Word) : (s.writeCtrl v).blocksDone = s.blocksDone := rfl
@[simp] theorem State.writeCtrl_opa (s : State) (v : Word) : (s.writeCtrl v).opa = s.opa := rfl
@[simp] theorem State.writeCtrl_opb (s : State) (v : Word) : (s.writeCtrl v).opb = s.opb := rfl
@[simp] theorem State.writeCtrl_res (s : State) (v : Word) : (s.writeCtrl v).res = s.res := rfl
@[simp] theorem State.writeCtrl_qa (s : State) (v : Word) : (s.writeCtrl v).qa = s.qa := rfl
@[simp] theorem State.writeCtrl_qb (s : State) (v : Word) : (s.writeCtrl v).qb = s.qb := rfl
@[simp] theorem State.writeCtrl_qc (s : State) (v : Word) : (s.writeCtrl v).qc = s.qc := rfl
@[simp] theorem State.writeCtrl_qd (s : State) (v : Word) : (s.writeCtrl v).qd = s.qd := rfl
@[simp] theorem State.writeCtrl_emptyErr (s : State) (v : Word) : (s.writeCtrl v).emptyErr = v.getLsbD 0 := rfl
@[simp] theorem State.writeCtrl_irqEn (s : State) (v : Word) : (s.writeCtrl v).irqEn = v.getLsbD 1 := rfl
@[simp] theorem State.writeCtrl_busy (s : State) (v : Word) : (s.writeCtrl v).busy = s.busy := rfl
@[simp] theorem State.writeCtrl_done (s : State) (v : Word) : (s.writeCtrl v).done = s.done := rfl
@[simp] theorem State.writeCtrl_err (s : State) (v : Word) : (s.writeCtrl v).err = s.err := rfl
@[simp] theorem State.writeCtrl_wdrop (s : State) (v : Word) : (s.writeCtrl v).wdrop = s.wdrop := rfl
@[simp] theorem State.writeCtrl_errCode (s : State) (v : Word) : (s.writeCtrl v).errCode = s.errCode := rfl
@[simp] theorem State.writeCtrl_phase (s : State) (v : Word) : (s.writeCtrl v).phase = s.phase := rfl
@[simp] theorem State.writeCtrl_opc (s : State) (v : Word) : (s.writeCtrl v).opc = s.opc := rfl
@[simp] theorem State.writeCtrl_dr (s : State) (v : Word) : (s.writeCtrl v).dr = s.dr := rfl
@[simp] theorem State.writeCtrl_qi (s : State) (v : Word) : (s.writeCtrl v).qi = s.qi := rfl
@[simp] theorem State.writeCtrl_blk (s : State) (v : Word) : (s.writeCtrl v).blk = s.blk := rfl
@[simp] theorem State.writeCtrl_inBuf (s : State) (v : Word) : (s.writeCtrl v).inBuf = s.inBuf := rfl
@[simp] theorem State.writeCtrl_outBuf (s : State) (v : Word) : (s.writeCtrl v).outBuf = s.outBuf := rfl
@[simp] theorem State.writeCtrl_rstN (s : State) (v : Word) : (s.writeCtrl v).rstN = s.rstN := rfl
@[simp] theorem State.writeCtrl_epoch (s : State) (v : Word) : (s.writeCtrl v).epoch = s.epoch := rfl
@[simp] theorem State.writeCtrl_draws (s : State) (v : Word) : (s.writeCtrl v).draws = s.draws := rfl
@[simp] theorem State.writeCtrl_turns (s : State) (v : Word) : (s.writeCtrl v).turns = s.turns := rfl
@[simp] theorem State.writeCtrl_log (s : State) (v : Word) : (s.writeCtrl v).log = s.log := rfl

/-! #### pushKey (R31) -/

@[simp] theorem State.pushKey_wReg (s : State) (v : Word) : (s.pushKey v).wReg = s.wReg := rfl
@[simp] theorem State.pushKey_sReg (s : State) (v : Word) : (s.pushKey v).sReg = s.sReg := rfl
@[simp] theorem State.pushKey_key (s : State) (v : Word) :
    (s.pushKey v).key = if h : s.keyCnt.toNat < 8 then s.key.set s.keyCnt.toNat v h else s.key := rfl
@[simp] theorem State.pushKey_keyCnt (s : State) (v : Word) : (s.pushKey v).keyCnt = saturatingSucc s.keyCnt := rfl
@[simp] theorem State.pushKey_nonce (s : State) (v : Word) : (s.pushKey v).nonce = s.nonce := rfl
@[simp] theorem State.pushKey_nonceCnt (s : State) (v : Word) : (s.pushKey v).nonceCnt = s.nonceCnt := rfl
@[simp] theorem State.pushKey_counter (s : State) (v : Word) : (s.pushKey v).counter = s.counter := rfl
@[simp] theorem State.pushKey_msgLen (s : State) (v : Word) : (s.pushKey v).msgLen = s.msgLen := rfl
@[simp] theorem State.pushKey_ctrCur (s : State) (v : Word) : (s.pushKey v).ctrCur = s.ctrCur := rfl
@[simp] theorem State.pushKey_blocksDone (s : State) (v : Word) : (s.pushKey v).blocksDone = s.blocksDone := rfl
@[simp] theorem State.pushKey_opa (s : State) (v : Word) : (s.pushKey v).opa = s.opa := rfl
@[simp] theorem State.pushKey_opb (s : State) (v : Word) : (s.pushKey v).opb = s.opb := rfl
@[simp] theorem State.pushKey_res (s : State) (v : Word) : (s.pushKey v).res = s.res := rfl
@[simp] theorem State.pushKey_qa (s : State) (v : Word) : (s.pushKey v).qa = s.qa := rfl
@[simp] theorem State.pushKey_qb (s : State) (v : Word) : (s.pushKey v).qb = s.qb := rfl
@[simp] theorem State.pushKey_qc (s : State) (v : Word) : (s.pushKey v).qc = s.qc := rfl
@[simp] theorem State.pushKey_qd (s : State) (v : Word) : (s.pushKey v).qd = s.qd := rfl
@[simp] theorem State.pushKey_emptyErr (s : State) (v : Word) : (s.pushKey v).emptyErr = s.emptyErr := rfl
@[simp] theorem State.pushKey_irqEn (s : State) (v : Word) : (s.pushKey v).irqEn = s.irqEn := rfl
@[simp] theorem State.pushKey_busy (s : State) (v : Word) : (s.pushKey v).busy = s.busy := rfl
@[simp] theorem State.pushKey_done (s : State) (v : Word) : (s.pushKey v).done = s.done := rfl
@[simp] theorem State.pushKey_err (s : State) (v : Word) : (s.pushKey v).err = s.err := rfl
@[simp] theorem State.pushKey_wdrop (s : State) (v : Word) : (s.pushKey v).wdrop = s.wdrop := rfl
@[simp] theorem State.pushKey_errCode (s : State) (v : Word) : (s.pushKey v).errCode = s.errCode := rfl
@[simp] theorem State.pushKey_phase (s : State) (v : Word) : (s.pushKey v).phase = s.phase := rfl
@[simp] theorem State.pushKey_opc (s : State) (v : Word) : (s.pushKey v).opc = s.opc := rfl
@[simp] theorem State.pushKey_dr (s : State) (v : Word) : (s.pushKey v).dr = s.dr := rfl
@[simp] theorem State.pushKey_qi (s : State) (v : Word) : (s.pushKey v).qi = s.qi := rfl
@[simp] theorem State.pushKey_blk (s : State) (v : Word) : (s.pushKey v).blk = s.blk := rfl
@[simp] theorem State.pushKey_inBuf (s : State) (v : Word) : (s.pushKey v).inBuf = s.inBuf := rfl
@[simp] theorem State.pushKey_outBuf (s : State) (v : Word) : (s.pushKey v).outBuf = s.outBuf := rfl
@[simp] theorem State.pushKey_rstN (s : State) (v : Word) : (s.pushKey v).rstN = s.rstN := rfl
@[simp] theorem State.pushKey_epoch (s : State) (v : Word) : (s.pushKey v).epoch = s.epoch := rfl
@[simp] theorem State.pushKey_draws (s : State) (v : Word) : (s.pushKey v).draws = s.draws := rfl
@[simp] theorem State.pushKey_turns (s : State) (v : Word) : (s.pushKey v).turns = s.turns := rfl
@[simp] theorem State.pushKey_log (s : State) (v : Word) : (s.pushKey v).log = s.log := rfl

/-! #### pushNonce (R33) -/

@[simp] theorem State.pushNonce_wReg (s : State) (v : Word) : (s.pushNonce v).wReg = s.wReg := rfl
@[simp] theorem State.pushNonce_sReg (s : State) (v : Word) : (s.pushNonce v).sReg = s.sReg := rfl
@[simp] theorem State.pushNonce_key (s : State) (v : Word) : (s.pushNonce v).key = s.key := rfl
@[simp] theorem State.pushNonce_keyCnt (s : State) (v : Word) : (s.pushNonce v).keyCnt = s.keyCnt := rfl
@[simp] theorem State.pushNonce_nonce (s : State) (v : Word) :
    (s.pushNonce v).nonce = if h : s.nonceCnt.toNat < 3 then s.nonce.set s.nonceCnt.toNat v h else s.nonce := rfl
@[simp] theorem State.pushNonce_nonceCnt (s : State) (v : Word) :
    (s.pushNonce v).nonceCnt = saturatingSucc s.nonceCnt := rfl
@[simp] theorem State.pushNonce_counter (s : State) (v : Word) : (s.pushNonce v).counter = s.counter := rfl
@[simp] theorem State.pushNonce_msgLen (s : State) (v : Word) : (s.pushNonce v).msgLen = s.msgLen := rfl
@[simp] theorem State.pushNonce_ctrCur (s : State) (v : Word) : (s.pushNonce v).ctrCur = s.ctrCur := rfl
@[simp] theorem State.pushNonce_blocksDone (s : State) (v : Word) : (s.pushNonce v).blocksDone = s.blocksDone := rfl
@[simp] theorem State.pushNonce_opa (s : State) (v : Word) : (s.pushNonce v).opa = s.opa := rfl
@[simp] theorem State.pushNonce_opb (s : State) (v : Word) : (s.pushNonce v).opb = s.opb := rfl
@[simp] theorem State.pushNonce_res (s : State) (v : Word) : (s.pushNonce v).res = s.res := rfl
@[simp] theorem State.pushNonce_qa (s : State) (v : Word) : (s.pushNonce v).qa = s.qa := rfl
@[simp] theorem State.pushNonce_qb (s : State) (v : Word) : (s.pushNonce v).qb = s.qb := rfl
@[simp] theorem State.pushNonce_qc (s : State) (v : Word) : (s.pushNonce v).qc = s.qc := rfl
@[simp] theorem State.pushNonce_qd (s : State) (v : Word) : (s.pushNonce v).qd = s.qd := rfl
@[simp] theorem State.pushNonce_emptyErr (s : State) (v : Word) : (s.pushNonce v).emptyErr = s.emptyErr := rfl
@[simp] theorem State.pushNonce_irqEn (s : State) (v : Word) : (s.pushNonce v).irqEn = s.irqEn := rfl
@[simp] theorem State.pushNonce_busy (s : State) (v : Word) : (s.pushNonce v).busy = s.busy := rfl
@[simp] theorem State.pushNonce_done (s : State) (v : Word) : (s.pushNonce v).done = s.done := rfl
@[simp] theorem State.pushNonce_err (s : State) (v : Word) : (s.pushNonce v).err = s.err := rfl
@[simp] theorem State.pushNonce_wdrop (s : State) (v : Word) : (s.pushNonce v).wdrop = s.wdrop := rfl
@[simp] theorem State.pushNonce_errCode (s : State) (v : Word) : (s.pushNonce v).errCode = s.errCode := rfl
@[simp] theorem State.pushNonce_phase (s : State) (v : Word) : (s.pushNonce v).phase = s.phase := rfl
@[simp] theorem State.pushNonce_opc (s : State) (v : Word) : (s.pushNonce v).opc = s.opc := rfl
@[simp] theorem State.pushNonce_dr (s : State) (v : Word) : (s.pushNonce v).dr = s.dr := rfl
@[simp] theorem State.pushNonce_qi (s : State) (v : Word) : (s.pushNonce v).qi = s.qi := rfl
@[simp] theorem State.pushNonce_blk (s : State) (v : Word) : (s.pushNonce v).blk = s.blk := rfl
@[simp] theorem State.pushNonce_inBuf (s : State) (v : Word) : (s.pushNonce v).inBuf = s.inBuf := rfl
@[simp] theorem State.pushNonce_outBuf (s : State) (v : Word) : (s.pushNonce v).outBuf = s.outBuf := rfl
@[simp] theorem State.pushNonce_rstN (s : State) (v : Word) : (s.pushNonce v).rstN = s.rstN := rfl
@[simp] theorem State.pushNonce_epoch (s : State) (v : Word) : (s.pushNonce v).epoch = s.epoch := rfl
@[simp] theorem State.pushNonce_draws (s : State) (v : Word) : (s.pushNonce v).draws = s.draws := rfl
@[simp] theorem State.pushNonce_turns (s : State) (v : Word) : (s.pushNonce v).turns = s.turns := rfl
@[simp] theorem State.pushNonce_log (s : State) (v : Word) : (s.pushNonce v).log = s.log := rfl

/-! #### clearKey (R115) -/

@[simp] theorem State.clearKey_wReg (s : State) : s.clearKey.wReg = s.wReg := rfl
@[simp] theorem State.clearKey_sReg (s : State) : s.clearKey.sReg = s.sReg := rfl
@[simp] theorem State.clearKey_key (s : State) : s.clearKey.key = Vector.replicate 8 0#32 := rfl
@[simp] theorem State.clearKey_keyCnt (s : State) : s.clearKey.keyCnt = 0#4 := rfl
@[simp] theorem State.clearKey_nonce (s : State) : s.clearKey.nonce = s.nonce := rfl
@[simp] theorem State.clearKey_nonceCnt (s : State) : s.clearKey.nonceCnt = s.nonceCnt := rfl
@[simp] theorem State.clearKey_counter (s : State) : s.clearKey.counter = s.counter := rfl
@[simp] theorem State.clearKey_msgLen (s : State) : s.clearKey.msgLen = s.msgLen := rfl
@[simp] theorem State.clearKey_ctrCur (s : State) : s.clearKey.ctrCur = s.ctrCur := rfl
@[simp] theorem State.clearKey_blocksDone (s : State) : s.clearKey.blocksDone = s.blocksDone := rfl
@[simp] theorem State.clearKey_opa (s : State) : s.clearKey.opa = s.opa := rfl
@[simp] theorem State.clearKey_opb (s : State) : s.clearKey.opb = s.opb := rfl
@[simp] theorem State.clearKey_res (s : State) : s.clearKey.res = s.res := rfl
@[simp] theorem State.clearKey_qa (s : State) : s.clearKey.qa = s.qa := rfl
@[simp] theorem State.clearKey_qb (s : State) : s.clearKey.qb = s.qb := rfl
@[simp] theorem State.clearKey_qc (s : State) : s.clearKey.qc = s.qc := rfl
@[simp] theorem State.clearKey_qd (s : State) : s.clearKey.qd = s.qd := rfl
@[simp] theorem State.clearKey_emptyErr (s : State) : s.clearKey.emptyErr = s.emptyErr := rfl
@[simp] theorem State.clearKey_irqEn (s : State) : s.clearKey.irqEn = s.irqEn := rfl
@[simp] theorem State.clearKey_busy (s : State) : s.clearKey.busy = s.busy := rfl
@[simp] theorem State.clearKey_done (s : State) : s.clearKey.done = s.done := rfl
@[simp] theorem State.clearKey_err (s : State) : s.clearKey.err = s.err := rfl
@[simp] theorem State.clearKey_wdrop (s : State) : s.clearKey.wdrop = s.wdrop := rfl
@[simp] theorem State.clearKey_errCode (s : State) : s.clearKey.errCode = s.errCode := rfl
@[simp] theorem State.clearKey_phase (s : State) : s.clearKey.phase = s.phase := rfl
@[simp] theorem State.clearKey_opc (s : State) : s.clearKey.opc = s.opc := rfl
@[simp] theorem State.clearKey_dr (s : State) : s.clearKey.dr = s.dr := rfl
@[simp] theorem State.clearKey_qi (s : State) : s.clearKey.qi = s.qi := rfl
@[simp] theorem State.clearKey_blk (s : State) : s.clearKey.blk = s.blk := rfl
@[simp] theorem State.clearKey_inBuf (s : State) : s.clearKey.inBuf = s.inBuf := rfl
@[simp] theorem State.clearKey_outBuf (s : State) : s.clearKey.outBuf = s.outBuf := rfl
@[simp] theorem State.clearKey_rstN (s : State) : s.clearKey.rstN = s.rstN := rfl
@[simp] theorem State.clearKey_epoch (s : State) : s.clearKey.epoch = s.epoch := rfl
@[simp] theorem State.clearKey_draws (s : State) : s.clearKey.draws = s.draws := rfl
@[simp] theorem State.clearKey_turns (s : State) : s.clearKey.turns = s.turns := rfl
@[simp] theorem State.clearKey_log (s : State) : s.clearKey.log = s.log := rfl

/-! #### clearNonce (R116) -/

@[simp] theorem State.clearNonce_wReg (s : State) : s.clearNonce.wReg = s.wReg := rfl
@[simp] theorem State.clearNonce_sReg (s : State) : s.clearNonce.sReg = s.sReg := rfl
@[simp] theorem State.clearNonce_key (s : State) : s.clearNonce.key = s.key := rfl
@[simp] theorem State.clearNonce_keyCnt (s : State) : s.clearNonce.keyCnt = s.keyCnt := rfl
@[simp] theorem State.clearNonce_nonce (s : State) : s.clearNonce.nonce = Vector.replicate 3 0#32 := rfl
@[simp] theorem State.clearNonce_nonceCnt (s : State) : s.clearNonce.nonceCnt = 0#4 := rfl
@[simp] theorem State.clearNonce_counter (s : State) : s.clearNonce.counter = s.counter := rfl
@[simp] theorem State.clearNonce_msgLen (s : State) : s.clearNonce.msgLen = s.msgLen := rfl
@[simp] theorem State.clearNonce_ctrCur (s : State) : s.clearNonce.ctrCur = s.ctrCur := rfl
@[simp] theorem State.clearNonce_blocksDone (s : State) : s.clearNonce.blocksDone = s.blocksDone := rfl
@[simp] theorem State.clearNonce_opa (s : State) : s.clearNonce.opa = s.opa := rfl
@[simp] theorem State.clearNonce_opb (s : State) : s.clearNonce.opb = s.opb := rfl
@[simp] theorem State.clearNonce_res (s : State) : s.clearNonce.res = s.res := rfl
@[simp] theorem State.clearNonce_qa (s : State) : s.clearNonce.qa = s.qa := rfl
@[simp] theorem State.clearNonce_qb (s : State) : s.clearNonce.qb = s.qb := rfl
@[simp] theorem State.clearNonce_qc (s : State) : s.clearNonce.qc = s.qc := rfl
@[simp] theorem State.clearNonce_qd (s : State) : s.clearNonce.qd = s.qd := rfl
@[simp] theorem State.clearNonce_emptyErr (s : State) : s.clearNonce.emptyErr = s.emptyErr := rfl
@[simp] theorem State.clearNonce_irqEn (s : State) : s.clearNonce.irqEn = s.irqEn := rfl
@[simp] theorem State.clearNonce_busy (s : State) : s.clearNonce.busy = s.busy := rfl
@[simp] theorem State.clearNonce_done (s : State) : s.clearNonce.done = s.done := rfl
@[simp] theorem State.clearNonce_err (s : State) : s.clearNonce.err = s.err := rfl
@[simp] theorem State.clearNonce_wdrop (s : State) : s.clearNonce.wdrop = s.wdrop := rfl
@[simp] theorem State.clearNonce_errCode (s : State) : s.clearNonce.errCode = s.errCode := rfl
@[simp] theorem State.clearNonce_phase (s : State) : s.clearNonce.phase = s.phase := rfl
@[simp] theorem State.clearNonce_opc (s : State) : s.clearNonce.opc = s.opc := rfl
@[simp] theorem State.clearNonce_dr (s : State) : s.clearNonce.dr = s.dr := rfl
@[simp] theorem State.clearNonce_qi (s : State) : s.clearNonce.qi = s.qi := rfl
@[simp] theorem State.clearNonce_blk (s : State) : s.clearNonce.blk = s.blk := rfl
@[simp] theorem State.clearNonce_inBuf (s : State) : s.clearNonce.inBuf = s.inBuf := rfl
@[simp] theorem State.clearNonce_outBuf (s : State) : s.clearNonce.outBuf = s.outBuf := rfl
@[simp] theorem State.clearNonce_rstN (s : State) : s.clearNonce.rstN = s.rstN := rfl
@[simp] theorem State.clearNonce_epoch (s : State) : s.clearNonce.epoch = s.epoch := rfl
@[simp] theorem State.clearNonce_draws (s : State) : s.clearNonce.draws = s.draws := rfl
@[simp] theorem State.clearNonce_turns (s : State) : s.clearNonce.turns = s.turns := rfl
@[simp] theorem State.clearNonce_log (s : State) : s.clearNonce.log = s.log := rfl

/-! #### setInWord (R43) -/

@[simp] theorem State.setInWord_wReg (s : State) (g : Nat) (v : Word) : (s.setInWord g v).wReg = s.wReg := rfl
@[simp] theorem State.setInWord_sReg (s : State) (g : Nat) (v : Word) : (s.setInWord g v).sReg = s.sReg := rfl
@[simp] theorem State.setInWord_key (s : State) (g : Nat) (v : Word) : (s.setInWord g v).key = s.key := rfl
@[simp] theorem State.setInWord_keyCnt (s : State) (g : Nat) (v : Word) : (s.setInWord g v).keyCnt = s.keyCnt := rfl
@[simp] theorem State.setInWord_nonce (s : State) (g : Nat) (v : Word) : (s.setInWord g v).nonce = s.nonce := rfl
@[simp] theorem State.setInWord_nonceCnt (s : State) (g : Nat) (v : Word) :
    (s.setInWord g v).nonceCnt = s.nonceCnt := rfl
@[simp] theorem State.setInWord_counter (s : State) (g : Nat) (v : Word) :
    (s.setInWord g v).counter = s.counter := rfl
@[simp] theorem State.setInWord_msgLen (s : State) (g : Nat) (v : Word) : (s.setInWord g v).msgLen = s.msgLen := rfl
@[simp] theorem State.setInWord_ctrCur (s : State) (g : Nat) (v : Word) : (s.setInWord g v).ctrCur = s.ctrCur := rfl
@[simp] theorem State.setInWord_blocksDone (s : State) (g : Nat) (v : Word) :
    (s.setInWord g v).blocksDone = s.blocksDone := rfl
@[simp] theorem State.setInWord_opa (s : State) (g : Nat) (v : Word) : (s.setInWord g v).opa = s.opa := rfl
@[simp] theorem State.setInWord_opb (s : State) (g : Nat) (v : Word) : (s.setInWord g v).opb = s.opb := rfl
@[simp] theorem State.setInWord_res (s : State) (g : Nat) (v : Word) : (s.setInWord g v).res = s.res := rfl
@[simp] theorem State.setInWord_qa (s : State) (g : Nat) (v : Word) : (s.setInWord g v).qa = s.qa := rfl
@[simp] theorem State.setInWord_qb (s : State) (g : Nat) (v : Word) : (s.setInWord g v).qb = s.qb := rfl
@[simp] theorem State.setInWord_qc (s : State) (g : Nat) (v : Word) : (s.setInWord g v).qc = s.qc := rfl
@[simp] theorem State.setInWord_qd (s : State) (g : Nat) (v : Word) : (s.setInWord g v).qd = s.qd := rfl
@[simp] theorem State.setInWord_emptyErr (s : State) (g : Nat) (v : Word) :
    (s.setInWord g v).emptyErr = s.emptyErr := rfl
@[simp] theorem State.setInWord_irqEn (s : State) (g : Nat) (v : Word) : (s.setInWord g v).irqEn = s.irqEn := rfl
@[simp] theorem State.setInWord_busy (s : State) (g : Nat) (v : Word) : (s.setInWord g v).busy = s.busy := rfl
@[simp] theorem State.setInWord_done (s : State) (g : Nat) (v : Word) : (s.setInWord g v).done = s.done := rfl
@[simp] theorem State.setInWord_err (s : State) (g : Nat) (v : Word) : (s.setInWord g v).err = s.err := rfl
@[simp] theorem State.setInWord_wdrop (s : State) (g : Nat) (v : Word) : (s.setInWord g v).wdrop = s.wdrop := rfl
@[simp] theorem State.setInWord_errCode (s : State) (g : Nat) (v : Word) :
    (s.setInWord g v).errCode = s.errCode := rfl
@[simp] theorem State.setInWord_phase (s : State) (g : Nat) (v : Word) : (s.setInWord g v).phase = s.phase := rfl
@[simp] theorem State.setInWord_opc (s : State) (g : Nat) (v : Word) : (s.setInWord g v).opc = s.opc := rfl
@[simp] theorem State.setInWord_dr (s : State) (g : Nat) (v : Word) : (s.setInWord g v).dr = s.dr := rfl
@[simp] theorem State.setInWord_qi (s : State) (g : Nat) (v : Word) : (s.setInWord g v).qi = s.qi := rfl
@[simp] theorem State.setInWord_blk (s : State) (g : Nat) (v : Word) : (s.setInWord g v).blk = s.blk := rfl
@[simp] theorem State.setInWord_inBuf (s : State) (g : Nat) (v : Word) :
    (s.setInWord g v).inBuf = s.inBuf.writeWord g v := rfl
@[simp] theorem State.setInWord_outBuf (s : State) (g : Nat) (v : Word) : (s.setInWord g v).outBuf = s.outBuf := rfl
@[simp] theorem State.setInWord_rstN (s : State) (g : Nat) (v : Word) : (s.setInWord g v).rstN = s.rstN := rfl
@[simp] theorem State.setInWord_epoch (s : State) (g : Nat) (v : Word) : (s.setInWord g v).epoch = s.epoch := rfl
@[simp] theorem State.setInWord_draws (s : State) (g : Nat) (v : Word) : (s.setInWord g v).draws = s.draws := rfl
@[simp] theorem State.setInWord_turns (s : State) (g : Nat) (v : Word) : (s.setInWord g v).turns = s.turns := rfl
@[simp] theorem State.setInWord_log (s : State) (g : Nat) (v : Word) : (s.setInWord g v).log = s.log := rfl

/-! #### setOutWord (R186) -/

@[simp] theorem State.setOutWord_wReg (s : State) (g : Nat) (v : Word) : (s.setOutWord g v).wReg = s.wReg := rfl
@[simp] theorem State.setOutWord_sReg (s : State) (g : Nat) (v : Word) : (s.setOutWord g v).sReg = s.sReg := rfl
@[simp] theorem State.setOutWord_key (s : State) (g : Nat) (v : Word) : (s.setOutWord g v).key = s.key := rfl
@[simp] theorem State.setOutWord_keyCnt (s : State) (g : Nat) (v : Word) : (s.setOutWord g v).keyCnt = s.keyCnt := rfl
@[simp] theorem State.setOutWord_nonce (s : State) (g : Nat) (v : Word) : (s.setOutWord g v).nonce = s.nonce := rfl
@[simp] theorem State.setOutWord_nonceCnt (s : State) (g : Nat) (v : Word) :
    (s.setOutWord g v).nonceCnt = s.nonceCnt := rfl
@[simp] theorem State.setOutWord_counter (s : State) (g : Nat) (v : Word) :
    (s.setOutWord g v).counter = s.counter := rfl
@[simp] theorem State.setOutWord_msgLen (s : State) (g : Nat) (v : Word) : (s.setOutWord g v).msgLen = s.msgLen := rfl
@[simp] theorem State.setOutWord_ctrCur (s : State) (g : Nat) (v : Word) : (s.setOutWord g v).ctrCur = s.ctrCur := rfl
@[simp] theorem State.setOutWord_blocksDone (s : State) (g : Nat) (v : Word) :
    (s.setOutWord g v).blocksDone = s.blocksDone := rfl
@[simp] theorem State.setOutWord_opa (s : State) (g : Nat) (v : Word) : (s.setOutWord g v).opa = s.opa := rfl
@[simp] theorem State.setOutWord_opb (s : State) (g : Nat) (v : Word) : (s.setOutWord g v).opb = s.opb := rfl
@[simp] theorem State.setOutWord_res (s : State) (g : Nat) (v : Word) : (s.setOutWord g v).res = s.res := rfl
@[simp] theorem State.setOutWord_qa (s : State) (g : Nat) (v : Word) : (s.setOutWord g v).qa = s.qa := rfl
@[simp] theorem State.setOutWord_qb (s : State) (g : Nat) (v : Word) : (s.setOutWord g v).qb = s.qb := rfl
@[simp] theorem State.setOutWord_qc (s : State) (g : Nat) (v : Word) : (s.setOutWord g v).qc = s.qc := rfl
@[simp] theorem State.setOutWord_qd (s : State) (g : Nat) (v : Word) : (s.setOutWord g v).qd = s.qd := rfl
@[simp] theorem State.setOutWord_emptyErr (s : State) (g : Nat) (v : Word) :
    (s.setOutWord g v).emptyErr = s.emptyErr := rfl
@[simp] theorem State.setOutWord_irqEn (s : State) (g : Nat) (v : Word) : (s.setOutWord g v).irqEn = s.irqEn := rfl
@[simp] theorem State.setOutWord_busy (s : State) (g : Nat) (v : Word) : (s.setOutWord g v).busy = s.busy := rfl
@[simp] theorem State.setOutWord_done (s : State) (g : Nat) (v : Word) : (s.setOutWord g v).done = s.done := rfl
@[simp] theorem State.setOutWord_err (s : State) (g : Nat) (v : Word) : (s.setOutWord g v).err = s.err := rfl
@[simp] theorem State.setOutWord_wdrop (s : State) (g : Nat) (v : Word) : (s.setOutWord g v).wdrop = s.wdrop := rfl
@[simp] theorem State.setOutWord_errCode (s : State) (g : Nat) (v : Word) :
    (s.setOutWord g v).errCode = s.errCode := rfl
@[simp] theorem State.setOutWord_phase (s : State) (g : Nat) (v : Word) : (s.setOutWord g v).phase = s.phase := rfl
@[simp] theorem State.setOutWord_opc (s : State) (g : Nat) (v : Word) : (s.setOutWord g v).opc = s.opc := rfl
@[simp] theorem State.setOutWord_dr (s : State) (g : Nat) (v : Word) : (s.setOutWord g v).dr = s.dr := rfl
@[simp] theorem State.setOutWord_qi (s : State) (g : Nat) (v : Word) : (s.setOutWord g v).qi = s.qi := rfl
@[simp] theorem State.setOutWord_blk (s : State) (g : Nat) (v : Word) : (s.setOutWord g v).blk = s.blk := rfl
@[simp] theorem State.setOutWord_inBuf (s : State) (g : Nat) (v : Word) : (s.setOutWord g v).inBuf = s.inBuf := rfl
@[simp] theorem State.setOutWord_outBuf (s : State) (g : Nat) (v : Word) :
    (s.setOutWord g v).outBuf = s.outBuf.writeWord g v := rfl
@[simp] theorem State.setOutWord_rstN (s : State) (g : Nat) (v : Word) : (s.setOutWord g v).rstN = s.rstN := rfl
@[simp] theorem State.setOutWord_epoch (s : State) (g : Nat) (v : Word) : (s.setOutWord g v).epoch = s.epoch := rfl
@[simp] theorem State.setOutWord_draws (s : State) (g : Nat) (v : Word) : (s.setOutWord g v).draws = s.draws := rfl
@[simp] theorem State.setOutWord_turns (s : State) (g : Nat) (v : Word) : (s.setOutWord g v).turns = s.turns := rfl
@[simp] theorem State.setOutWord_log (s : State) (g : Nat) (v : Word) : (s.setOutWord g v).log = s.log := rfl

/-! #### setQuad (R152) -/

@[simp] theorem State.setQuad_wReg (s : State) (q : Quad) : (s.setQuad q).wReg = s.wReg := rfl
@[simp] theorem State.setQuad_sReg (s : State) (q : Quad) : (s.setQuad q).sReg = s.sReg := rfl
@[simp] theorem State.setQuad_key (s : State) (q : Quad) : (s.setQuad q).key = s.key := rfl
@[simp] theorem State.setQuad_keyCnt (s : State) (q : Quad) : (s.setQuad q).keyCnt = s.keyCnt := rfl
@[simp] theorem State.setQuad_nonce (s : State) (q : Quad) : (s.setQuad q).nonce = s.nonce := rfl
@[simp] theorem State.setQuad_nonceCnt (s : State) (q : Quad) : (s.setQuad q).nonceCnt = s.nonceCnt := rfl
@[simp] theorem State.setQuad_counter (s : State) (q : Quad) : (s.setQuad q).counter = s.counter := rfl
@[simp] theorem State.setQuad_msgLen (s : State) (q : Quad) : (s.setQuad q).msgLen = s.msgLen := rfl
@[simp] theorem State.setQuad_ctrCur (s : State) (q : Quad) : (s.setQuad q).ctrCur = s.ctrCur := rfl
@[simp] theorem State.setQuad_blocksDone (s : State) (q : Quad) : (s.setQuad q).blocksDone = s.blocksDone := rfl
@[simp] theorem State.setQuad_opa (s : State) (q : Quad) : (s.setQuad q).opa = s.opa := rfl
@[simp] theorem State.setQuad_opb (s : State) (q : Quad) : (s.setQuad q).opb = s.opb := rfl
@[simp] theorem State.setQuad_res (s : State) (q : Quad) : (s.setQuad q).res = s.res := rfl
@[simp] theorem State.setQuad_qa (s : State) (q : Quad) : (s.setQuad q).qa = q.a := rfl
@[simp] theorem State.setQuad_qb (s : State) (q : Quad) : (s.setQuad q).qb = q.b := rfl
@[simp] theorem State.setQuad_qc (s : State) (q : Quad) : (s.setQuad q).qc = q.c := rfl
@[simp] theorem State.setQuad_qd (s : State) (q : Quad) : (s.setQuad q).qd = q.d := rfl
@[simp] theorem State.setQuad_emptyErr (s : State) (q : Quad) : (s.setQuad q).emptyErr = s.emptyErr := rfl
@[simp] theorem State.setQuad_irqEn (s : State) (q : Quad) : (s.setQuad q).irqEn = s.irqEn := rfl
@[simp] theorem State.setQuad_busy (s : State) (q : Quad) : (s.setQuad q).busy = s.busy := rfl
@[simp] theorem State.setQuad_done (s : State) (q : Quad) : (s.setQuad q).done = s.done := rfl
@[simp] theorem State.setQuad_err (s : State) (q : Quad) : (s.setQuad q).err = s.err := rfl
@[simp] theorem State.setQuad_wdrop (s : State) (q : Quad) : (s.setQuad q).wdrop = s.wdrop := rfl
@[simp] theorem State.setQuad_errCode (s : State) (q : Quad) : (s.setQuad q).errCode = s.errCode := rfl
@[simp] theorem State.setQuad_phase (s : State) (q : Quad) : (s.setQuad q).phase = s.phase := rfl
@[simp] theorem State.setQuad_opc (s : State) (q : Quad) : (s.setQuad q).opc = s.opc := rfl
@[simp] theorem State.setQuad_dr (s : State) (q : Quad) : (s.setQuad q).dr = s.dr := rfl
@[simp] theorem State.setQuad_qi (s : State) (q : Quad) : (s.setQuad q).qi = s.qi := rfl
@[simp] theorem State.setQuad_blk (s : State) (q : Quad) : (s.setQuad q).blk = s.blk := rfl
@[simp] theorem State.setQuad_inBuf (s : State) (q : Quad) : (s.setQuad q).inBuf = s.inBuf := rfl
@[simp] theorem State.setQuad_outBuf (s : State) (q : Quad) : (s.setQuad q).outBuf = s.outBuf := rfl
@[simp] theorem State.setQuad_rstN (s : State) (q : Quad) : (s.setQuad q).rstN = s.rstN := rfl
@[simp] theorem State.setQuad_epoch (s : State) (q : Quad) : (s.setQuad q).epoch = s.epoch := rfl
@[simp] theorem State.setQuad_draws (s : State) (q : Quad) : (s.setQuad q).draws = s.draws := rfl
@[simp] theorem State.setQuad_turns (s : State) (q : Quad) : (s.setQuad q).turns = s.turns := rfl
@[simp] theorem State.setQuad_log (s : State) (q : Quad) : (s.setQuad q).log = s.log := rfl

/-! #### respond (R60) -/

@[simp] theorem State.respond_wReg (s : State) (a : Access) (d : Word) (e : Bool) :
    (s.respond a d e).wReg = s.wReg := rfl
@[simp] theorem State.respond_sReg (s : State) (a : Access) (d : Word) (e : Bool) :
    (s.respond a d e).sReg = s.sReg := rfl
@[simp] theorem State.respond_key (s : State) (a : Access) (d : Word) (e : Bool) :
    (s.respond a d e).key = s.key := rfl
@[simp] theorem State.respond_keyCnt (s : State) (a : Access) (d : Word) (e : Bool) :
    (s.respond a d e).keyCnt = s.keyCnt := rfl
@[simp] theorem State.respond_nonce (s : State) (a : Access) (d : Word) (e : Bool) :
    (s.respond a d e).nonce = s.nonce := rfl
@[simp] theorem State.respond_nonceCnt (s : State) (a : Access) (d : Word) (e : Bool) :
    (s.respond a d e).nonceCnt = s.nonceCnt := rfl
@[simp] theorem State.respond_counter (s : State) (a : Access) (d : Word) (e : Bool) :
    (s.respond a d e).counter = s.counter := rfl
@[simp] theorem State.respond_msgLen (s : State) (a : Access) (d : Word) (e : Bool) :
    (s.respond a d e).msgLen = s.msgLen := rfl
@[simp] theorem State.respond_ctrCur (s : State) (a : Access) (d : Word) (e : Bool) :
    (s.respond a d e).ctrCur = s.ctrCur := rfl
@[simp] theorem State.respond_blocksDone (s : State) (a : Access) (d : Word) (e : Bool) :
    (s.respond a d e).blocksDone = s.blocksDone := rfl
@[simp] theorem State.respond_opa (s : State) (a : Access) (d : Word) (e : Bool) :
    (s.respond a d e).opa = s.opa := rfl
@[simp] theorem State.respond_opb (s : State) (a : Access) (d : Word) (e : Bool) :
    (s.respond a d e).opb = s.opb := rfl
@[simp] theorem State.respond_res (s : State) (a : Access) (d : Word) (e : Bool) :
    (s.respond a d e).res = s.res := rfl
@[simp] theorem State.respond_qa (s : State) (a : Access) (d : Word) (e : Bool) : (s.respond a d e).qa = s.qa := rfl
@[simp] theorem State.respond_qb (s : State) (a : Access) (d : Word) (e : Bool) : (s.respond a d e).qb = s.qb := rfl
@[simp] theorem State.respond_qc (s : State) (a : Access) (d : Word) (e : Bool) : (s.respond a d e).qc = s.qc := rfl
@[simp] theorem State.respond_qd (s : State) (a : Access) (d : Word) (e : Bool) : (s.respond a d e).qd = s.qd := rfl
@[simp] theorem State.respond_emptyErr (s : State) (a : Access) (d : Word) (e : Bool) :
    (s.respond a d e).emptyErr = s.emptyErr := rfl
@[simp] theorem State.respond_irqEn (s : State) (a : Access) (d : Word) (e : Bool) :
    (s.respond a d e).irqEn = s.irqEn := rfl
@[simp] theorem State.respond_busy (s : State) (a : Access) (d : Word) (e : Bool) :
    (s.respond a d e).busy = s.busy := rfl
@[simp] theorem State.respond_done (s : State) (a : Access) (d : Word) (e : Bool) :
    (s.respond a d e).done = s.done := rfl
@[simp] theorem State.respond_err (s : State) (a : Access) (d : Word) (e : Bool) :
    (s.respond a d e).err = s.err := rfl
@[simp] theorem State.respond_wdrop (s : State) (a : Access) (d : Word) (e : Bool) :
    (s.respond a d e).wdrop = s.wdrop := rfl
@[simp] theorem State.respond_errCode (s : State) (a : Access) (d : Word) (e : Bool) :
    (s.respond a d e).errCode = s.errCode := rfl
@[simp] theorem State.respond_phase (s : State) (a : Access) (d : Word) (e : Bool) :
    (s.respond a d e).phase = s.phase := rfl
@[simp] theorem State.respond_opc (s : State) (a : Access) (d : Word) (e : Bool) :
    (s.respond a d e).opc = s.opc := rfl
@[simp] theorem State.respond_dr (s : State) (a : Access) (d : Word) (e : Bool) : (s.respond a d e).dr = s.dr := rfl
@[simp] theorem State.respond_qi (s : State) (a : Access) (d : Word) (e : Bool) : (s.respond a d e).qi = s.qi := rfl
@[simp] theorem State.respond_blk (s : State) (a : Access) (d : Word) (e : Bool) :
    (s.respond a d e).blk = s.blk := rfl
@[simp] theorem State.respond_inBuf (s : State) (a : Access) (d : Word) (e : Bool) :
    (s.respond a d e).inBuf = s.inBuf := rfl
@[simp] theorem State.respond_outBuf (s : State) (a : Access) (d : Word) (e : Bool) :
    (s.respond a d e).outBuf = s.outBuf := rfl
@[simp] theorem State.respond_rstN (s : State) (a : Access) (d : Word) (e : Bool) :
    (s.respond a d e).rstN = s.rstN := rfl
@[simp] theorem State.respond_epoch (s : State) (a : Access) (d : Word) (e : Bool) :
    (s.respond a d e).epoch = s.epoch := rfl
@[simp] theorem State.respond_draws (s : State) (a : Access) (d : Word) (e : Bool) :
    (s.respond a d e).draws = s.draws := rfl
@[simp] theorem State.respond_turns (s : State) (a : Access) (d : Word) (e : Bool) :
    (s.respond a d e).turns = s.turns := rfl
@[simp] theorem State.respond_log (s : State) (a : Access) (d : Word) (e : Bool) :
    (s.respond a d e).log = ⟨a, d, e⟩ :: s.log := rfl

/-! #### mixGroup (R150) -/

@[simp] theorem State.mixGroup_wReg (s : State) : s.mixGroup.wReg = applyGroup sched[s.qi] s.wReg := rfl
@[simp] theorem State.mixGroup_sReg (s : State) : s.mixGroup.sReg = s.sReg := rfl
@[simp] theorem State.mixGroup_key (s : State) : s.mixGroup.key = s.key := rfl
@[simp] theorem State.mixGroup_keyCnt (s : State) : s.mixGroup.keyCnt = s.keyCnt := rfl
@[simp] theorem State.mixGroup_nonce (s : State) : s.mixGroup.nonce = s.nonce := rfl
@[simp] theorem State.mixGroup_nonceCnt (s : State) : s.mixGroup.nonceCnt = s.nonceCnt := rfl
@[simp] theorem State.mixGroup_counter (s : State) : s.mixGroup.counter = s.counter := rfl
@[simp] theorem State.mixGroup_msgLen (s : State) : s.mixGroup.msgLen = s.msgLen := rfl
@[simp] theorem State.mixGroup_ctrCur (s : State) : s.mixGroup.ctrCur = s.ctrCur := rfl
@[simp] theorem State.mixGroup_blocksDone (s : State) : s.mixGroup.blocksDone = s.blocksDone := rfl
@[simp] theorem State.mixGroup_opa (s : State) : s.mixGroup.opa = s.opa := rfl
@[simp] theorem State.mixGroup_opb (s : State) : s.mixGroup.opb = s.opb := rfl
@[simp] theorem State.mixGroup_res (s : State) : s.mixGroup.res = s.res := rfl
@[simp] theorem State.mixGroup_qa (s : State) : s.mixGroup.qa = s.qa := rfl
@[simp] theorem State.mixGroup_qb (s : State) : s.mixGroup.qb = s.qb := rfl
@[simp] theorem State.mixGroup_qc (s : State) : s.mixGroup.qc = s.qc := rfl
@[simp] theorem State.mixGroup_qd (s : State) : s.mixGroup.qd = s.qd := rfl
@[simp] theorem State.mixGroup_emptyErr (s : State) : s.mixGroup.emptyErr = s.emptyErr := rfl
@[simp] theorem State.mixGroup_irqEn (s : State) : s.mixGroup.irqEn = s.irqEn := rfl
@[simp] theorem State.mixGroup_busy (s : State) : s.mixGroup.busy = s.busy := rfl
@[simp] theorem State.mixGroup_done (s : State) : s.mixGroup.done = s.done := rfl
@[simp] theorem State.mixGroup_err (s : State) : s.mixGroup.err = s.err := rfl
@[simp] theorem State.mixGroup_wdrop (s : State) : s.mixGroup.wdrop = s.wdrop := rfl
@[simp] theorem State.mixGroup_errCode (s : State) : s.mixGroup.errCode = s.errCode := rfl
@[simp] theorem State.mixGroup_phase (s : State) : s.mixGroup.phase = s.phase := rfl
@[simp] theorem State.mixGroup_opc (s : State) : s.mixGroup.opc = s.opc := rfl
@[simp] theorem State.mixGroup_dr (s : State) : s.mixGroup.dr = s.dr := rfl
@[simp] theorem State.mixGroup_qi (s : State) : s.mixGroup.qi = s.qi := rfl
@[simp] theorem State.mixGroup_blk (s : State) : s.mixGroup.blk = s.blk := rfl
@[simp] theorem State.mixGroup_inBuf (s : State) : s.mixGroup.inBuf = s.inBuf := rfl
@[simp] theorem State.mixGroup_outBuf (s : State) : s.mixGroup.outBuf = s.outBuf := rfl
@[simp] theorem State.mixGroup_rstN (s : State) : s.mixGroup.rstN = s.rstN := rfl
@[simp] theorem State.mixGroup_epoch (s : State) : s.mixGroup.epoch = s.epoch := rfl
@[simp] theorem State.mixGroup_draws (s : State) : s.mixGroup.draws = s.draws := rfl
@[simp] theorem State.mixGroup_turns (s : State) : s.mixGroup.turns = s.turns := rfl
@[simp] theorem State.mixGroup_log (s : State) : s.mixGroup.log = s.log := rfl

/-! #### addOriginal (R167) -/

@[simp] theorem State.addOriginal_wReg (s : State) : s.addOriginal.wReg = feedForward s.wReg s.sReg := rfl
@[simp] theorem State.addOriginal_sReg (s : State) : s.addOriginal.sReg = s.sReg := rfl
@[simp] theorem State.addOriginal_key (s : State) : s.addOriginal.key = s.key := rfl
@[simp] theorem State.addOriginal_keyCnt (s : State) : s.addOriginal.keyCnt = s.keyCnt := rfl
@[simp] theorem State.addOriginal_nonce (s : State) : s.addOriginal.nonce = s.nonce := rfl
@[simp] theorem State.addOriginal_nonceCnt (s : State) : s.addOriginal.nonceCnt = s.nonceCnt := rfl
@[simp] theorem State.addOriginal_counter (s : State) : s.addOriginal.counter = s.counter := rfl
@[simp] theorem State.addOriginal_msgLen (s : State) : s.addOriginal.msgLen = s.msgLen := rfl
@[simp] theorem State.addOriginal_ctrCur (s : State) : s.addOriginal.ctrCur = s.ctrCur := rfl
@[simp] theorem State.addOriginal_blocksDone (s : State) : s.addOriginal.blocksDone = s.blocksDone := rfl
@[simp] theorem State.addOriginal_opa (s : State) : s.addOriginal.opa = s.opa := rfl
@[simp] theorem State.addOriginal_opb (s : State) : s.addOriginal.opb = s.opb := rfl
@[simp] theorem State.addOriginal_res (s : State) : s.addOriginal.res = s.res := rfl
@[simp] theorem State.addOriginal_qa (s : State) : s.addOriginal.qa = s.qa := rfl
@[simp] theorem State.addOriginal_qb (s : State) : s.addOriginal.qb = s.qb := rfl
@[simp] theorem State.addOriginal_qc (s : State) : s.addOriginal.qc = s.qc := rfl
@[simp] theorem State.addOriginal_qd (s : State) : s.addOriginal.qd = s.qd := rfl
@[simp] theorem State.addOriginal_emptyErr (s : State) : s.addOriginal.emptyErr = s.emptyErr := rfl
@[simp] theorem State.addOriginal_irqEn (s : State) : s.addOriginal.irqEn = s.irqEn := rfl
@[simp] theorem State.addOriginal_busy (s : State) : s.addOriginal.busy = s.busy := rfl
@[simp] theorem State.addOriginal_done (s : State) : s.addOriginal.done = s.done := rfl
@[simp] theorem State.addOriginal_err (s : State) : s.addOriginal.err = s.err := rfl
@[simp] theorem State.addOriginal_wdrop (s : State) : s.addOriginal.wdrop = s.wdrop := rfl
@[simp] theorem State.addOriginal_errCode (s : State) : s.addOriginal.errCode = s.errCode := rfl
@[simp] theorem State.addOriginal_phase (s : State) : s.addOriginal.phase = s.phase := rfl
@[simp] theorem State.addOriginal_opc (s : State) : s.addOriginal.opc = s.opc := rfl
@[simp] theorem State.addOriginal_dr (s : State) : s.addOriginal.dr = s.dr := rfl
@[simp] theorem State.addOriginal_qi (s : State) : s.addOriginal.qi = s.qi := rfl
@[simp] theorem State.addOriginal_blk (s : State) : s.addOriginal.blk = s.blk := rfl
@[simp] theorem State.addOriginal_inBuf (s : State) : s.addOriginal.inBuf = s.inBuf := rfl
@[simp] theorem State.addOriginal_outBuf (s : State) : s.addOriginal.outBuf = s.outBuf := rfl
@[simp] theorem State.addOriginal_rstN (s : State) : s.addOriginal.rstN = s.rstN := rfl
@[simp] theorem State.addOriginal_epoch (s : State) : s.addOriginal.epoch = s.epoch := rfl
@[simp] theorem State.addOriginal_draws (s : State) : s.addOriginal.draws = s.draws := rfl
@[simp] theorem State.addOriginal_turns (s : State) : s.addOriginal.turns = s.turns := rfl
@[simp] theorem State.addOriginal_log (s : State) : s.addOriginal.log = s.log := rfl

/-! #### advanceDriver (R186) -/

@[simp] theorem State.advanceDriver_wReg (s : State) : s.advanceDriver.wReg = s.wReg := rfl
@[simp] theorem State.advanceDriver_sReg (s : State) : s.advanceDriver.sReg = s.sReg := rfl
@[simp] theorem State.advanceDriver_key (s : State) : s.advanceDriver.key = s.key := rfl
@[simp] theorem State.advanceDriver_keyCnt (s : State) : s.advanceDriver.keyCnt = s.keyCnt := rfl
@[simp] theorem State.advanceDriver_nonce (s : State) : s.advanceDriver.nonce = s.nonce := rfl
@[simp] theorem State.advanceDriver_nonceCnt (s : State) : s.advanceDriver.nonceCnt = s.nonceCnt := rfl
@[simp] theorem State.advanceDriver_counter (s : State) : s.advanceDriver.counter = s.counter := rfl
@[simp] theorem State.advanceDriver_msgLen (s : State) : s.advanceDriver.msgLen = s.msgLen := rfl
@[simp] theorem State.advanceDriver_ctrCur (s : State) : s.advanceDriver.ctrCur = add32 s.ctrCur 1#32 := rfl
@[simp] theorem State.advanceDriver_blocksDone (s : State) :
    s.advanceDriver.blocksDone = BitVec.ofNat 32 (s.blk + 1) := rfl
@[simp] theorem State.advanceDriver_opa (s : State) : s.advanceDriver.opa = s.opa := rfl
@[simp] theorem State.advanceDriver_opb (s : State) : s.advanceDriver.opb = s.opb := rfl
@[simp] theorem State.advanceDriver_res (s : State) : s.advanceDriver.res = s.res := rfl
@[simp] theorem State.advanceDriver_qa (s : State) : s.advanceDriver.qa = s.qa := rfl
@[simp] theorem State.advanceDriver_qb (s : State) : s.advanceDriver.qb = s.qb := rfl
@[simp] theorem State.advanceDriver_qc (s : State) : s.advanceDriver.qc = s.qc := rfl
@[simp] theorem State.advanceDriver_qd (s : State) : s.advanceDriver.qd = s.qd := rfl
@[simp] theorem State.advanceDriver_emptyErr (s : State) : s.advanceDriver.emptyErr = s.emptyErr := rfl
@[simp] theorem State.advanceDriver_irqEn (s : State) : s.advanceDriver.irqEn = s.irqEn := rfl
@[simp] theorem State.advanceDriver_busy (s : State) : s.advanceDriver.busy = s.busy := rfl
@[simp] theorem State.advanceDriver_done (s : State) : s.advanceDriver.done = s.done := rfl
@[simp] theorem State.advanceDriver_err (s : State) : s.advanceDriver.err = s.err := rfl
@[simp] theorem State.advanceDriver_wdrop (s : State) : s.advanceDriver.wdrop = s.wdrop := rfl
@[simp] theorem State.advanceDriver_errCode (s : State) : s.advanceDriver.errCode = s.errCode := rfl
@[simp] theorem State.advanceDriver_phase (s : State) : s.advanceDriver.phase = s.phase := rfl
@[simp] theorem State.advanceDriver_opc (s : State) : s.advanceDriver.opc = s.opc := rfl
@[simp] theorem State.advanceDriver_dr (s : State) : s.advanceDriver.dr = s.dr := rfl
@[simp] theorem State.advanceDriver_qi (s : State) : s.advanceDriver.qi = s.qi := rfl
@[simp] theorem State.advanceDriver_blk (s : State) : s.advanceDriver.blk = s.blk + 1 := rfl
@[simp] theorem State.advanceDriver_inBuf (s : State) : s.advanceDriver.inBuf = s.inBuf := rfl
@[simp] theorem State.advanceDriver_outBuf (s : State) : s.advanceDriver.outBuf = s.outBuf := rfl
@[simp] theorem State.advanceDriver_rstN (s : State) : s.advanceDriver.rstN = s.rstN := rfl
@[simp] theorem State.advanceDriver_epoch (s : State) : s.advanceDriver.epoch = s.epoch := rfl
@[simp] theorem State.advanceDriver_draws (s : State) : s.advanceDriver.draws = s.draws := rfl
@[simp] theorem State.advanceDriver_turns (s : State) : s.advanceDriver.turns = s.turns := rfl
@[simp] theorem State.advanceDriver_log (s : State) : s.advanceDriver.log = s.log := rfl

/-! #### withTurns (R107) -/

@[simp] theorem State.withTurns_wReg (s : State) (ts : List Turn) : (s.withTurns ts).wReg = s.wReg := rfl
@[simp] theorem State.withTurns_sReg (s : State) (ts : List Turn) : (s.withTurns ts).sReg = s.sReg := rfl
@[simp] theorem State.withTurns_key (s : State) (ts : List Turn) : (s.withTurns ts).key = s.key := rfl
@[simp] theorem State.withTurns_keyCnt (s : State) (ts : List Turn) : (s.withTurns ts).keyCnt = s.keyCnt := rfl
@[simp] theorem State.withTurns_nonce (s : State) (ts : List Turn) : (s.withTurns ts).nonce = s.nonce := rfl
@[simp] theorem State.withTurns_nonceCnt (s : State) (ts : List Turn) : (s.withTurns ts).nonceCnt = s.nonceCnt := rfl
@[simp] theorem State.withTurns_counter (s : State) (ts : List Turn) : (s.withTurns ts).counter = s.counter := rfl
@[simp] theorem State.withTurns_msgLen (s : State) (ts : List Turn) : (s.withTurns ts).msgLen = s.msgLen := rfl
@[simp] theorem State.withTurns_ctrCur (s : State) (ts : List Turn) : (s.withTurns ts).ctrCur = s.ctrCur := rfl
@[simp] theorem State.withTurns_blocksDone (s : State) (ts : List Turn) :
    (s.withTurns ts).blocksDone = s.blocksDone := rfl
@[simp] theorem State.withTurns_opa (s : State) (ts : List Turn) : (s.withTurns ts).opa = s.opa := rfl
@[simp] theorem State.withTurns_opb (s : State) (ts : List Turn) : (s.withTurns ts).opb = s.opb := rfl
@[simp] theorem State.withTurns_res (s : State) (ts : List Turn) : (s.withTurns ts).res = s.res := rfl
@[simp] theorem State.withTurns_qa (s : State) (ts : List Turn) : (s.withTurns ts).qa = s.qa := rfl
@[simp] theorem State.withTurns_qb (s : State) (ts : List Turn) : (s.withTurns ts).qb = s.qb := rfl
@[simp] theorem State.withTurns_qc (s : State) (ts : List Turn) : (s.withTurns ts).qc = s.qc := rfl
@[simp] theorem State.withTurns_qd (s : State) (ts : List Turn) : (s.withTurns ts).qd = s.qd := rfl
@[simp] theorem State.withTurns_emptyErr (s : State) (ts : List Turn) : (s.withTurns ts).emptyErr = s.emptyErr := rfl
@[simp] theorem State.withTurns_irqEn (s : State) (ts : List Turn) : (s.withTurns ts).irqEn = s.irqEn := rfl
@[simp] theorem State.withTurns_busy (s : State) (ts : List Turn) : (s.withTurns ts).busy = s.busy := rfl
@[simp] theorem State.withTurns_done (s : State) (ts : List Turn) : (s.withTurns ts).done = s.done := rfl
@[simp] theorem State.withTurns_err (s : State) (ts : List Turn) : (s.withTurns ts).err = s.err := rfl
@[simp] theorem State.withTurns_wdrop (s : State) (ts : List Turn) : (s.withTurns ts).wdrop = s.wdrop := rfl
@[simp] theorem State.withTurns_errCode (s : State) (ts : List Turn) : (s.withTurns ts).errCode = s.errCode := rfl
@[simp] theorem State.withTurns_phase (s : State) (ts : List Turn) : (s.withTurns ts).phase = s.phase := rfl
@[simp] theorem State.withTurns_opc (s : State) (ts : List Turn) : (s.withTurns ts).opc = s.opc := rfl
@[simp] theorem State.withTurns_dr (s : State) (ts : List Turn) : (s.withTurns ts).dr = s.dr := rfl
@[simp] theorem State.withTurns_qi (s : State) (ts : List Turn) : (s.withTurns ts).qi = s.qi := rfl
@[simp] theorem State.withTurns_blk (s : State) (ts : List Turn) : (s.withTurns ts).blk = s.blk := rfl
@[simp] theorem State.withTurns_inBuf (s : State) (ts : List Turn) : (s.withTurns ts).inBuf = s.inBuf := rfl
@[simp] theorem State.withTurns_outBuf (s : State) (ts : List Turn) : (s.withTurns ts).outBuf = s.outBuf := rfl
@[simp] theorem State.withTurns_rstN (s : State) (ts : List Turn) : (s.withTurns ts).rstN = s.rstN := rfl
@[simp] theorem State.withTurns_epoch (s : State) (ts : List Turn) : (s.withTurns ts).epoch = s.epoch := rfl
@[simp] theorem State.withTurns_draws (s : State) (ts : List Turn) : (s.withTurns ts).draws = s.draws := rfl
@[simp] theorem State.withTurns_turns (s : State) (ts : List Turn) : (s.withTurns ts).turns = ts := rfl
@[simp] theorem State.withTurns_log (s : State) (ts : List Turn) : (s.withTurns ts).log = s.log := rfl

/-! #### resetTo (R227) -/

@[simp] theorem State.resetTo_wReg (s : State) (level : Bool) : (s.resetTo level).wReg = State.reset.wReg := rfl
@[simp] theorem State.resetTo_sReg (s : State) (level : Bool) : (s.resetTo level).sReg = State.reset.sReg := rfl
@[simp] theorem State.resetTo_key (s : State) (level : Bool) : (s.resetTo level).key = State.reset.key := rfl
@[simp] theorem State.resetTo_keyCnt (s : State) (level : Bool) : (s.resetTo level).keyCnt = State.reset.keyCnt := rfl
@[simp] theorem State.resetTo_nonce (s : State) (level : Bool) : (s.resetTo level).nonce = State.reset.nonce := rfl
@[simp] theorem State.resetTo_nonceCnt (s : State) (level : Bool) : (s.resetTo level).nonceCnt = State.reset.nonceCnt := rfl
@[simp] theorem State.resetTo_counter (s : State) (level : Bool) : (s.resetTo level).counter = State.reset.counter := rfl
@[simp] theorem State.resetTo_msgLen (s : State) (level : Bool) : (s.resetTo level).msgLen = State.reset.msgLen := rfl
@[simp] theorem State.resetTo_ctrCur (s : State) (level : Bool) : (s.resetTo level).ctrCur = State.reset.ctrCur := rfl
@[simp] theorem State.resetTo_blocksDone (s : State) (level : Bool) : (s.resetTo level).blocksDone = State.reset.blocksDone := rfl
@[simp] theorem State.resetTo_opa (s : State) (level : Bool) : (s.resetTo level).opa = State.reset.opa := rfl
@[simp] theorem State.resetTo_opb (s : State) (level : Bool) : (s.resetTo level).opb = State.reset.opb := rfl
@[simp] theorem State.resetTo_res (s : State) (level : Bool) : (s.resetTo level).res = State.reset.res := rfl
@[simp] theorem State.resetTo_qa (s : State) (level : Bool) : (s.resetTo level).qa = State.reset.qa := rfl
@[simp] theorem State.resetTo_qb (s : State) (level : Bool) : (s.resetTo level).qb = State.reset.qb := rfl
@[simp] theorem State.resetTo_qc (s : State) (level : Bool) : (s.resetTo level).qc = State.reset.qc := rfl
@[simp] theorem State.resetTo_qd (s : State) (level : Bool) : (s.resetTo level).qd = State.reset.qd := rfl
@[simp] theorem State.resetTo_emptyErr (s : State) (level : Bool) : (s.resetTo level).emptyErr = State.reset.emptyErr := rfl
@[simp] theorem State.resetTo_irqEn (s : State) (level : Bool) : (s.resetTo level).irqEn = State.reset.irqEn := rfl
@[simp] theorem State.resetTo_busy (s : State) (level : Bool) : (s.resetTo level).busy = State.reset.busy := rfl
@[simp] theorem State.resetTo_done (s : State) (level : Bool) : (s.resetTo level).done = State.reset.done := rfl
@[simp] theorem State.resetTo_err (s : State) (level : Bool) : (s.resetTo level).err = State.reset.err := rfl
@[simp] theorem State.resetTo_wdrop (s : State) (level : Bool) : (s.resetTo level).wdrop = State.reset.wdrop := rfl
@[simp] theorem State.resetTo_errCode (s : State) (level : Bool) : (s.resetTo level).errCode = State.reset.errCode := rfl
@[simp] theorem State.resetTo_phase (s : State) (level : Bool) : (s.resetTo level).phase = State.reset.phase := rfl
@[simp] theorem State.resetTo_opc (s : State) (level : Bool) : (s.resetTo level).opc = State.reset.opc := rfl
@[simp] theorem State.resetTo_dr (s : State) (level : Bool) : (s.resetTo level).dr = State.reset.dr := rfl
@[simp] theorem State.resetTo_qi (s : State) (level : Bool) : (s.resetTo level).qi = State.reset.qi := rfl
@[simp] theorem State.resetTo_blk (s : State) (level : Bool) : (s.resetTo level).blk = State.reset.blk := rfl
@[simp] theorem State.resetTo_inBuf (s : State) (level : Bool) : (s.resetTo level).inBuf = State.reset.inBuf := rfl
@[simp] theorem State.resetTo_outBuf (s : State) (level : Bool) : (s.resetTo level).outBuf = State.reset.outBuf := rfl
@[simp] theorem State.resetTo_rstN (s : State) (level : Bool) : (s.resetTo level).rstN = level := rfl
@[simp] theorem State.resetTo_epoch (s : State) (level : Bool) : (s.resetTo level).epoch = s.epoch + 1 := rfl
@[simp] theorem State.resetTo_draws (s : State) (level : Bool) : (s.resetTo level).draws = s.draws := rfl
@[simp] theorem State.resetTo_turns (s : State) (level : Bool) : (s.resetTo level).turns = s.turns := rfl
@[simp] theorem State.resetTo_log (s : State) (level : Bool) : (s.resetTo level).log = s.log := rfl

end Sys2Proof.Machine
end

