-- ==== Sys2Proof/Laws/Buffer.lean ====
section
/-! SUPPORT. The laws of the IN and OUT buffers: a read after a write, what a write leaves alone, and the canonical form,
which every write keeps. -/

namespace Sys2Proof.Machine

/-! ### Bytes -/

theorem Buffer.lookup_writeByte (m : Buffer) (p q : Nat) (b : Byte) (h : m.wf = true) :
    (m.writeByte p b).lookup q = if q = p then some b else m.lookup q := by
  induction m with
  | nil => simp [Buffer.writeByte, Buffer.lookup]
  | cons cell rest ih =>
    obtain ⟨r, c⟩ := cell
    have hrest : Buffer.wf rest = true := by
      cases rest with
      | nil => rfl
      | cons d ds => obtain ⟨d, x⟩ := d; simp [Buffer.wf] at h; exact h.2
    unfold Buffer.writeByte
    split
    · simp [Buffer.lookup]
    · split
      · subst p; by_cases hq : q = r <;> simp [Buffer.lookup, hq]
      · by_cases hq : q = r
        · subst q; simp [Buffer.lookup]; grind
        · simp [Buffer.lookup, hq, ih hrest]

/-- A byte written is the byte read, and a write of one position leaves every other position alone. -/
theorem Buffer.readByte_writeByte (init : Nat → Byte) (m : Buffer) (p q : Nat) (b : Byte) (h : m.wf = true) :
    (m.writeByte p b).readByte init q = if q = p then b else m.readByte init q := by
  unfold Buffer.readByte
  rw [Buffer.lookup_writeByte m p q b h]
  split <;> simp

theorem Buffer.wf_cons (p : Nat) (b : Byte) (m : Buffer) :
    Buffer.wf ((p, b) :: m) = true ↔ (∀ c ∈ m.head?, p < c.1) ∧ m.wf = true := by
  cases m with
  | nil => simp [Buffer.wf]
  | cons c cs => obtain ⟨q, x⟩ := c; simp [Buffer.wf]

theorem Buffer.head_writeByte (m : Buffer) (p : Nat) (b : Byte) :
    ∀ c ∈ (m.writeByte p b).head?, c.1 = p ∨ ∃ d ∈ m.head?, c.1 = d.1 := by
  cases m with
  | nil => simp [Buffer.writeByte]
  | cons d ds => obtain ⟨q, x⟩ := d; unfold Buffer.writeByte; split <;> [skip; split] <;> simp

/-- Every byte write keeps the canonical form. -/
theorem Buffer.wf_writeByte (m : Buffer) (p : Nat) (b : Byte) (h : m.wf = true) : (m.writeByte p b).wf = true := by
  induction m with
  | nil => simp [Buffer.writeByte, Buffer.wf]
  | cons cell rest ih =>
    obtain ⟨r, c⟩ := cell
    rw [Buffer.wf_cons] at h
    unfold Buffer.writeByte
    split
    · rw [Buffer.wf_cons, Buffer.wf_cons]
      exact ⟨by simp [*], h⟩
    · split
      · subst p; rw [Buffer.wf_cons]; exact h
      · rw [Buffer.wf_cons]
        refine ⟨fun d hd => ?_, ih h.2⟩
        rcases Buffer.head_writeByte rest p b d hd with hp | ⟨e, he, hde⟩
        · omega
        · have := h.1 e he; omega

/-- Every byte write inside the buffer stays inside it. -/
theorem Buffer.within_writeByte (mw : Nat) (m : Buffer) (p : Nat) (b : Byte) (hp : p < 4 * mw)
    (h : m.within mw = true) : (m.writeByte p b).within mw = true := by
  unfold Buffer.within at h ⊢
  induction m with
  | nil => simpa [Buffer.writeByte] using hp
  | cons cell rest ih =>
    obtain ⟨r, c⟩ := cell
    simp only [List.all_cons, Bool.and_eq_true, decide_eq_true_eq] at h
    unfold Buffer.writeByte
    split <;> [skip; split]
    · simp only [List.all_cons, Bool.and_eq_true, decide_eq_true_eq]; exact ⟨hp, h.1, h.2⟩
    · simp only [List.all_cons, Bool.and_eq_true, decide_eq_true_eq]; exact ⟨hp, h.2⟩
    · simp only [List.all_cons, Bool.and_eq_true, decide_eq_true_eq]; exact ⟨h.1, ih h.2⟩

/-! ### Words -/

/-- Every word write keeps the canonical form. -/
theorem Buffer.wf_writeWord (m : Buffer) (g : Nat) (v : Word) (h : m.wf = true) : (m.writeWord g v).wf = true :=
  wf_writeByte _ _ _ (wf_writeByte _ _ _ (wf_writeByte _ _ _ (wf_writeByte _ _ _ h)))

/-- Every word write inside the buffer stays inside it. -/
theorem Buffer.within_writeWord (mw : Nat) (m : Buffer) (g : Nat) (v : Word) (hg : g < mw)
    (h : m.within mw = true) : (m.writeWord g v).within mw = true := by
  unfold Buffer.writeWord
  iterate 4 refine within_writeByte _ _ _ _ (by omega) ?_
  exact h

/-- R67: a word write puts byte `p mod 4` of the word at each of its four positions and leaves the rest. -/
theorem Buffer.readByte_writeWord (init : Nat → Byte) (m : Buffer) (g p : Nat) (v : Word) (h : m.wf = true) :
    (m.writeWord g v).readByte init p = if p / 4 = g then byteOf v (p % 4) else m.readByte init p := by
  unfold Buffer.writeWord
  have h1 := wf_writeByte m (4 * g) (byteOf v 0) h
  have h2 := wf_writeByte _ (4 * g + 1) (byteOf v 1) h1
  have h3 := wf_writeByte _ (4 * g + 2) (byteOf v 2) h2
  rw [readByte_writeByte _ _ _ _ _ h3, readByte_writeByte _ _ _ _ _ h2, readByte_writeByte _ _ _ _ _ h1,
    readByte_writeByte _ _ _ _ _ h]
  by_cases hp : p / 4 = g
  · have : p = 4 * g ∨ p = 4 * g + 1 ∨ p = 4 * g + 2 ∨ p = 4 * g + 3 := by omega
    rcases this with rfl | rfl | rfl | rfl <;> simp [hp]
  · rw [if_neg (by omega), if_neg (by omega), if_neg (by omega), if_neg (by omega), if_neg hp]

theorem le_byteOf (v : Word) : le (byteOf v 0) (byteOf v 1) (byteOf v 2) (byteOf v 3) = v := by
  unfold le byteOf
  apply BitVec.eq_of_getLsbD_eq
  intro i hi
  simp only [BitVec.getLsbD_append, BitVec.getLsbD_extractLsb']
  grind

/-- A word written is the word read, and every other word reads as before. -/
theorem Buffer.readWord_writeWord (init : Nat → Byte) (m : Buffer) (g k : Nat) (v : Word) (h : m.wf = true) :
    (m.writeWord g v).readWord init k = if k = g then v else m.readWord init k := by
  unfold Buffer.readWord
  simp only [readByte_writeWord _ _ _ _ _ h]
  by_cases hk : k = g
  · subst k
    rw [if_pos (by omega), if_pos (by omega), if_pos (by omega), if_pos (by omega), if_pos rfl]
    have e0 : 4 * g % 4 = 0 := by omega
    have e1 : (4 * g + 1) % 4 = 1 := by omega
    have e2 : (4 * g + 2) % 4 = 2 := by omega
    have e3 : (4 * g + 3) % 4 = 3 := by omega
    rw [e0, e1, e2, e3, le_byteOf]
  · rw [if_neg (by omega), if_neg (by omega), if_neg (by omega), if_neg (by omega), if_neg hk]

theorem byteOf_le (b0 b1 b2 b3 : Byte) (i : Nat) (hi : i < 4) :
    byteOf (le b0 b1 b2 b3) i = [b0, b1, b2, b3][i] := by
  unfold le byteOf
  have : i = 0 ∨ i = 1 ∨ i = 2 ∨ i = 3 := by omega
  rcases this with rfl | rfl | rfl | rfl <;> ext j hj <;> simp <;> grind

/-- R67: byte `i` of word `g` of a buffer is the byte at position `4g + i`. -/
theorem Buffer.byteOf_readWord (init : Nat → Byte) (m : Buffer) (g i : Nat) (hi : i < 4) :
    byteOf (m.readWord init g) i = m.readByte init (4 * g + i) := by
  unfold Buffer.readWord
  rw [byteOf_le _ _ _ _ _ hi]
  have : i = 0 ∨ i = 1 ∨ i = 2 ∨ i = 3 := by omega
  rcases this with rfl | rfl | rfl | rfl <;> rfl

end Sys2Proof.Machine
end

