-- ==== Sys2Proof/Laws/Ops.lean ====
section
/-! SUPPORT. One lemma per shared operation of Machine/Ops.lean, saying once everything it can do: provers cite these
instead of unfolding the operations. -/

namespace Sys2Proof.Machine

/-! ### Errors -/

theorem State.raise_of_no_error {s : State} (e : ErrorCode) (h : s.err = false) :
    s.raise e = { s with err := true, errCode := e } := by
  simp [State.raise, h]

theorem State.raise_of_error {s : State} (e : ErrorCode) (h : s.err = true) : s.raise e = s := by
  cases s
  simp_all [State.raise]

theorem State.clearError_eq (s : State) : s.clearError = { s with err := false, errCode := .none } := by
  cases s
  simp [State.clearError, State.writeStatus]

/-! ### Issue -/

/-- R110: a compute command is refused while busy, rejected by its first failed check, or accepted. -/
theorem issueCompute_cases (checked : Option ErrorCode) (accepted s : State) :
    (s.busy = true ∧ issueCompute checked accepted s = s.raise .commandWhileBusy) ∨
    (s.busy = false ∧ ∃ e, checked = some e ∧ issueCompute checked accepted s = s.raise e) ∨
    (s.busy = false ∧ checked = none ∧ issueCompute checked accepted s = accepted) := by
  cases hb : s.busy <;> cases checked <;> simp [issueCompute, hb]

@[simp] theorem issueCompute_busy (checked : Option ErrorCode) (accepted : State) {s : State} (h : s.busy = true) :
    issueCompute checked accepted s = s.raise .commandWhileBusy := by simp [issueCompute, h]

@[simp] theorem issueCompute_pass (accepted : State) {s : State} (h : s.busy = false) :
    issueCompute none accepted s = accepted := by simp [issueCompute, h]

@[simp] theorem issueCompute_fail (e : ErrorCode) (accepted : State) {s : State} (h : s.busy = false) :
    issueCompute (some e) accepted s = s.raise e := by simp [issueCompute, h]

@[simp] theorem issueImmediate_busy (effect : State) {s : State} (h : s.busy = true) :
    issueImmediate effect s = s.raise .commandWhileBusy := by simp [issueImmediate, h]

@[simp] theorem issueImmediate_idle (effect : State) {s : State} (h : s.busy = false) :
    issueImmediate effect s = effect := by simp [issueImmediate, h]

/-- R47: an input write has its effect when idle and only sets WDROP when busy. -/
@[simp] theorem State.writeInput_busy {s : State} (effect : State) (h : s.busy = true) :
    s.writeInput effect = { s with wdrop := true } := by simp [State.writeInput, h]

@[simp] theorem State.writeInput_idle {s : State} (effect : State) (h : s.busy = false) :
    s.writeInput effect = effect := by simp [State.writeInput, h]

/-! ### Validation -/

/-- R111: the key check comes first. -/
theorem State.checkKeyNonce_cases (s : State) :
    (s.keyCnt ≠ 8#4 ∧ s.checkKeyNonce = some .invalidKeyLength) ∨
    (s.keyCnt = 8#4 ∧ s.nonceCnt ≠ 3#4 ∧ s.checkKeyNonce = some .invalidNonceLength) ∨
    (s.loaded ∧ s.checkKeyNonce = none) := by
  by_cases hk : s.keyCnt = 8#4 <;> by_cases hn : s.nonceCnt = 3#4 <;>
    simp [State.checkKeyNonce, State.loaded, hk, hn]

theorem State.checkKeyNonce_loaded {s : State} (h : s.loaded) : s.checkKeyNonce = none := by
  simp [State.checkKeyNonce, h.1, h.2]

/-- R111: the length check comes before the empty check. -/
theorem State.checkMessage_cases (mw : Nat) (s : State) :
    (s.msgLen.toNat > 4 * mw ∧ s.checkMessage mw = some .lengthTooLarge) ∨
    (s.msgLen = 0#32 ∧ s.emptyErr = true ∧ s.checkMessage mw = some .emptyMessage) ∨
    (s.msgLen.toNat ≤ 4 * mw ∧ (s.msgLen = 0#32 → s.emptyErr = false) ∧ s.checkMessage mw = none) := by
  by_cases hl : s.msgLen.toNat > 4 * mw
  · exact .inl ⟨hl, by simp [State.checkMessage, Config.maxLen, hl]⟩
  · have hl' : s.msgLen.toNat ≤ 4 * mw := by omega
    by_cases h0 : s.msgLen = 0#32
    · cases he : s.emptyErr
      · exact .inr (.inr ⟨hl', fun _ => rfl, by simp [State.checkMessage, h0, he, Config.maxLen]⟩)
      · exact .inr (.inl ⟨h0, rfl, by simp [State.checkMessage, h0, he, Config.maxLen]⟩)
    · exact .inr (.inr ⟨hl', fun h => absurd h h0, by simp [State.checkMessage, hl', h0, Config.maxLen]⟩)

/-! ### Counts and configuration -/

/-- R31, R33: the push counts saturate at 15. -/
theorem saturatingSucc_toNat (c : BitVec 4) : (saturatingSucc c).toNat = min (c.toNat + 1) 15 := by
  revert c
  decide

/-- R8: MSG_WORDS is legal. -/
theorem Config.msgWords_bounds : 16 ≤ Config.msgWords ∧ Config.msgWords ≤ 1024 := by
  unfold Config.msgWords
  omega

theorem Config.msgWords_wellFormed : Config.wellFormed Config.msgWords = true := by
  simp [Config.wellFormed, Config.legalMsgWords, Config.msgWords_bounds.1, Config.msgWords_bounds.2]

/-! ### Reset -/

theorem State.resetTo_eq (s : State) (level : Bool) :
    s.resetTo level = { State.reset with
      rstN := level, epoch := s.epoch + 1, draws := s.draws, turns := s.turns, log := s.log } := rfl

end Sys2Proof.Machine
end

