-- ==== Sys2Proof/Laws/Rounds.lean ====
section
/-! SUPPORT. The quarter-round engine, the round controller and the feed-forward: what each Core step of the datapath
does, said once. -/

namespace Sys2Proof.Machine

/-- R149: a double round is the eight groups of the schedule in order. -/
theorem mixGroups_eight (w : Vector Word 16) : mixGroups 8 w = doubleRound w := rfl

/-- R150: one more group. -/
theorem mixGroups_succ (n : Nat) (w : Vector Word 16) :
    mixGroups (n + 1) w = applyGroup (sched[n % 8]'(Nat.mod_lt _ (by decide))) (mixGroups n w) := rfl

theorem doubleRounds_succ (n : Nat) (w : Vector Word 16) :
    doubleRounds (n + 1) w = doubleRound (doubleRounds n w) := rfl

/-- R148: the four indices of a group are distinct. -/
theorem sched_distinct (i : Fin 8) :
    sched[i].p ≠ sched[i].q ∧ sched[i].p ≠ sched[i].r ∧ sched[i].p ≠ sched[i].s ∧ sched[i].q ≠ sched[i].r ∧
      sched[i].q ≠ sched[i].s ∧ sched[i].r ≠ sched[i].s := by
  revert i
  decide

/-- R149: a group leaves the twelve words outside it unchanged. -/
theorem applyGroup_other (g : Group) (w : Vector Word 16) (i : Fin 16)
    (hp : i ≠ g.p) (hq : i ≠ g.q) (hr : i ≠ g.r) (hs : i ≠ g.s) : (applyGroup g w)[i] = w[i] := by
  have hp' : g.p.val ≠ i.val := fun h => hp (Fin.ext h.symm)
  have hq' : g.q.val ≠ i.val := fun h => hq (Fin.ext h.symm)
  have hr' : g.r.val ≠ i.val := fun h => hr (Fin.ext h.symm)
  have hs' : g.s.val ≠ i.val := fun h => hs (Fin.ext h.symm)
  simp [applyGroup, hp', hq', hr', hs']

/-- R149: the four words of a group with distinct indices become the quarter round of them. -/
theorem applyGroup_quad (g : Group) (w : Vector Word 16) (pq : g.p ≠ g.q) (pr : g.p ≠ g.r) (ps : g.p ≠ g.s)
    (qr : g.q ≠ g.r) (qs : g.q ≠ g.s) (rs : g.r ≠ g.s) :
    (⟨(applyGroup g w)[g.p], (applyGroup g w)[g.q], (applyGroup g w)[g.r], (applyGroup g w)[g.s]⟩ : Quad) =
    quarterRound ⟨w[g.p], w[g.q], w[g.r], w[g.s]⟩ := by
  have pq' : g.q.val ≠ g.p.val := fun h => pq (Fin.ext h.symm)
  have pr' : g.r.val ≠ g.p.val := fun h => pr (Fin.ext h.symm)
  have ps' : g.s.val ≠ g.p.val := fun h => ps (Fin.ext h.symm)
  have qr' : g.r.val ≠ g.q.val := fun h => qr (Fin.ext h.symm)
  have qs' : g.s.val ≠ g.q.val := fun h => qs (Fin.ext h.symm)
  have rs' : g.s.val ≠ g.r.val := fun h => rs (Fin.ext h.symm)
  simp [applyGroup, pq', pr', ps', qr', qs', rs']

/-- R166: each lane is its own sum. -/
theorem feedForward_getElem (w s : Vector Word 16) (i : Fin 16) : (feedForward w s)[i] = w[i] + s[i] := by
  fin_cases i <;> rfl

/-! ### The Core's steps -/

/-- R150: everything a ROUND step can do. -/
theorem roundStep_cases (s : State) :
    (s.qi.val < 7 ∧ roundStep s = { s.mixGroup with qi := s.qi + 1 } ∧ (s.qi + 1).val = s.qi.val + 1) ∨
    (s.qi.val = 7 ∧ s.opc = .dround ∧ roundStep s = { s.mixGroup with qi := 0, dr := s.dr + 1 }.complete) ∨
    (s.qi.val = 7 ∧ s.opc ≠ .dround ∧ s.dr + 1 = 10 ∧
      roundStep s = { s.mixGroup with qi := 0, dr := s.dr + 1, phase := .ffwd }) ∨
    (s.qi.val = 7 ∧ s.opc ≠ .dround ∧ s.dr + 1 ≠ 10 ∧ roundStep s = { s.mixGroup with qi := 0, dr := s.dr + 1 }) := by
  by_cases hq : s.qi < 7
  · have hv : s.qi.val < 7 := hq
    refine .inl ⟨hv, ?_, ?_⟩
    · simp [roundStep, hq]
    · rw [Fin.val_add_one]; split
      · next h => exact absurd (congrArg Fin.val h) (by simp; omega)
      · rfl
  · have hv : s.qi.val = 7 := by
      have : ¬ s.qi.val < 7 := hq
      omega
    by_cases ho : s.opc = .dround
    · exact .inr (.inl ⟨hv, ho, by simp [roundStep, hq, ho]⟩)
    · by_cases hd : s.dr + 1 = 10
      · exact .inr (.inr (.inl ⟨hv, ho, hd, by simp [roundStep, hq, ho, show s.dr = 9 by omega]⟩))
      · exact .inr (.inr (.inr ⟨hv, ho, hd, by simp [roundStep, hq, ho, show s.dr ≠ 9 by omega]⟩))

/-- R164: what a LOAD step leaves for INIT, and for BLOCK and STREAM. -/
theorem loadStep_cases (s : State) :
    (s.opc = .init ∧ loadStep s = { s with
      sReg := buildState s.key s.nonce s.ctrCur, wReg := buildState s.key s.nonce s.ctrCur
      dr := 0, qi := 0, busy := false, done := true, phase := .idle }) ∨
    (s.opc ≠ .init ∧ loadStep s = { s with
      sReg := buildState s.key s.nonce s.ctrCur, wReg := buildState s.key s.nonce s.ctrCur
      dr := 0, qi := 0, phase := .round }) := by
  by_cases h : s.opc = .init
  · exact .inl ⟨h, by simp [loadStep, h, State.complete]⟩
  · exact .inr ⟨h, by simp [loadStep, h]⟩

/-- R167: what a FFWD step leaves for FFWD, BLOCK and STREAM; with any other OPC it stops. -/
theorem ffwdStep_cases (s : State) :
    (s.opc = .ffwd ∧ ffwdStep s = .next s.addOriginal.complete) ∨
    (s.opc = .block ∧ ffwdStep s =
      .next { s.addOriginal with ctrCur := s.ctrCur + 1#32, blocksDone := 1#32 }.complete) ∨
    (s.opc = .stream ∧ ffwdStep s = .next { s.addOriginal with phase := .xor }) ∨
    (s.opc ≠ .ffwd ∧ s.opc ≠ .block ∧ s.opc ≠ .stream ∧ ffwdStep s = .fault (.noStepForOpcode .ffwd s.opc)) := by
  unfold ffwdStep
  cases h : s.opc <;> simp [add32]

/-- R130: an ALU step writes RES and completes; with an OPC that is no arithmetic command it stops. -/
theorem aluStep_cases (s : State) :
    (∃ r, aluResult s.opc s.opa s.opb = some r ∧ isArithmetic s.opc ∧ aluStep s = .next { s with res := r }.complete) ∨
    (¬ isArithmetic s.opc ∧ aluStep s = .fault (.noStepForOpcode .alu s.opc)) := by
  unfold aluStep isArithmetic
  cases h : s.opc <;> simp [aluResult]

end Sys2Proof.Machine
end

