-- ==== Sys2Proof/Laws/Stream.lean ====
section
/-! SUPPORT. The XOR output stage (44_stream.md R184 to R186): what it writes and what it leaves alone. -/

namespace Sys2Proof.Machine

/-- R186: the OUT word `g` of the message that block word `w` gives. -/
def State.cipherWord (s : State) (w : Word) (g : Nat) : Word :=
  (s.inWord g ^^^ w) &&& byteMask (min 4 (s.msgLen.toNat - 4 * g))

/-- A lane only ever writes OUT. -/
theorem State.xorLane_eq (s : State) (i : Fin 16) : s.xorLane i = { s with outBuf := (s.xorLane i).outBuf } := by
  cases s
  unfold State.xorLane
  simp only []
  split <;> rfl

/-- R186: a lane writes its OUT word when the message reaches it, and nothing otherwise. -/
theorem State.xorLane_outBuf (s : State) (i : Fin 16) :
    (s.xorLane i).outBuf = if 4 * (16 * s.blk + i) < s.msgLen.toNat
      then s.outBuf.writeWord (16 * s.blk + i) (s.cipherWord s.wReg[i] (16 * s.blk + i)) else s.outBuf := by
  simp only [State.xorLane, State.cipherWord, xor32]
  split <;> rfl

/-- The stage over any list of lanes only writes OUT, keeps its canonical form, and writes word `16 BLK + i` for each
listed lane the message reaches. -/
theorem State.xorLanes_spec (l : List (Fin 16)) (s : State) (h : s.outBuf.wf = true) :
    let t := l.foldl State.xorLane s
    t = { s with outBuf := t.outBuf } ∧ t.outBuf.wf = true ∧
    (∀ i ∈ l, 4 * (16 * s.blk + i) < s.msgLen.toNat →
      t.outWord (16 * s.blk + i) = s.cipherWord s.wReg[i] (16 * s.blk + i)) ∧
    (∀ p, (∀ i ∈ l, p / 4 = 16 * s.blk + i → ¬ 4 * (p / 4) < s.msgLen.toNat) → t.outByte p = s.outByte p) ∧
    (∀ k, (∀ i ∈ l, k = 16 * s.blk + i → ¬ 4 * k < s.msgLen.toNat) → t.outWord k = s.outWord k) := by
  induction l generalizing s with
  | nil => cases s; simp [h]
  | cons j l ih =>
    have hj := s.xorLane_eq j
    have hb := s.xorLane_outBuf j
    set s1 := s.xorLane j with hs1
    have hwf1 : s1.outBuf.wf = true := by
      rw [hb]; split
      · exact Buffer.wf_writeWord _ _ _ h
      · exact h
    have e1 : s1.blk = s.blk := by rw [hj]
    have e2 : s1.msgLen = s.msgLen := by rw [hj]
    have e3 : s1.wReg = s.wReg := by rw [hj]
    have e4 : s1.epoch = s.epoch := by rw [hj]
    have e5 : ∀ g, s1.inWord g = s.inWord g := by intro g; rw [hj]; rfl
    have e6 : ∀ w g, s1.cipherWord w g = s.cipherWord w g := by
      intro w g; simp [State.cipherWord, e5, e2]
    obtain ⟨a, b, c, d, e⟩ := ih s1 hwf1
    simp only [List.foldl_cons, ← hs1]
    refine ⟨?_, b, ?_, ?_, ?_⟩
    · rw [a, hj]
    · intro i hi hlen
      by_cases hil : i ∈ l
      · have := c i hil (by rw [e1, e2]; exact hlen)
        rw [e1, e6, e3] at this
        exact this
      · have hij : i = j := by simpa [hil] using hi
        subst hij
        rw [e (16 * s.blk + i)]
        · rw [State.outWord, hb, e4, if_pos hlen, Buffer.readWord_writeWord _ _ _ _ _ h, if_pos rfl]
        · intro k hk hki
          rw [e1] at hki
          have : i = k := Fin.ext (by omega)
          exact absurd (this ▸ hk) hil
    · intro p hp
      rw [d p (fun i hi hpi => by rw [e1] at hpi; rw [e2]; exact hp i (List.mem_cons_of_mem _ hi) hpi)]
      rw [State.outByte, hb, e4]
      split
      · next hlt =>
        rw [Buffer.readByte_writeWord _ _ _ _ _ h, if_neg]
        · rfl
        · intro hpj
          exact hp j (List.mem_cons_self) hpj (hpj ▸ hlt)
      · rfl
    · intro k hk
      rw [e k (fun i hi hki => by rw [e1] at hki; rw [e2]; exact hk i (List.mem_cons_of_mem _ hi) hki)]
      rw [State.outWord, hb, e4]
      split
      · next hlt =>
        rw [Buffer.readWord_writeWord _ _ _ _ _ h, if_neg]
        · rfl
        · intro hkj
          exact hk j (List.mem_cons_self) hkj (hkj ▸ hlt)
      · rfl

theorem mem_lanes (i : Fin 16) : i ∈ lanes := by revert i; decide

/-- R186: the XOR stage only writes OUT. -/
theorem State.xorBlock_eq (s : State) : s.xorBlock = { s with outBuf := s.xorBlock.outBuf } := by
  unfold State.xorBlock
  generalize lanes = l
  induction l generalizing s with
  | nil => rfl
  | cons j l ih =>
    rw [List.foldl_cons, ih, s.xorLane_eq j]

/-- R186: the XOR stage keeps OUT canonical. -/
theorem State.xorBlock_wf (s : State) (h : s.outBuf.wf = true) : s.xorBlock.outBuf.wf = true :=
  (State.xorLanes_spec lanes s h).2.1

/-- R186: each word of the block that the message reaches is written with its cipher word. -/
theorem State.xorBlock_outWord (s : State) (h : s.outBuf.wf = true) (i : Fin 16)
    (hi : 4 * (16 * s.blk + i) < s.msgLen.toNat) :
    s.xorBlock.outWord (16 * s.blk + i) = s.cipherWord s.wReg[i] (16 * s.blk + i) :=
  (State.xorLanes_spec lanes s h).2.2.1 i (mem_lanes i) hi

/-- R186, R188: every byte outside the block's part of the message is left. -/
theorem State.xorBlock_outByte_other (s : State) (h : s.outBuf.wf = true) (p : Nat)
    (hp : p < 64 * s.blk ∨ 64 * s.blk + 64 ≤ p ∨ s.msgLen.toNat ≤ 4 * (p / 4)) :
    s.xorBlock.outByte p = s.outByte p :=
  (State.xorLanes_spec lanes s h).2.2.2.1 p (fun i _ hpi => by omega)

/-- R186, R188: every word outside the block's part of the message is left. -/
theorem State.xorBlock_outWord_other (s : State) (h : s.outBuf.wf = true) (k : Nat)
    (hk : k < 16 * s.blk ∨ 16 * s.blk + 16 ≤ k ∨ s.msgLen.toNat ≤ 4 * k) :
    s.xorBlock.outWord k = s.outWord k :=
  (State.xorLanes_spec lanes s h).2.2.2.2 k (fun i _ hki => by omega)

/-- R186: the XOR stage writes inside the buffer when the message fits it. -/
theorem State.xorBlock_within (s : State) (mw : Nat) (hl : s.msgLen.toNat ≤ 4 * mw)
    (h : s.outBuf.within mw = true) : s.xorBlock.outBuf.within mw = true := by
  unfold State.xorBlock
  generalize lanes = l
  induction l generalizing s with
  | nil => exact h
  | cons j l ih =>
    rw [List.foldl_cons]
    refine ih _ (by rw [s.xorLane_eq j]; exact hl) ?_
    rw [s.xorLane_outBuf j]
    split
    · exact Buffer.within_writeWord _ _ _ _ (by omega) h
    · exact h

/-- R186: everything an XOR step can do. -/
theorem xorStep_cases (s : State) :
    (64 * (s.blk + 1) ≥ s.msgLen.toNat ∧ xorStep s = { s with
      outBuf := s.xorBlock.outBuf, ctrCur := s.ctrCur + 1#32, blk := s.blk + 1
      blocksDone := BitVec.ofNat 32 (s.blk + 1), busy := false, done := true, phase := .idle }) ∨
    (64 * (s.blk + 1) < s.msgLen.toNat ∧ xorStep s = { s with
      outBuf := s.xorBlock.outBuf, ctrCur := s.ctrCur + 1#32, blk := s.blk + 1
      blocksDone := BitVec.ofNat 32 (s.blk + 1), phase := .load }) := by
  have hx := s.xorBlock_eq
  unfold xorStep
  generalize s.xorBlock = x at hx ⊢
  have ht : x.advanceDriver = { s with
      outBuf := x.outBuf, ctrCur := s.ctrCur + 1#32, blk := s.blk + 1
      blocksDone := BitVec.ofNat 32 (s.blk + 1) } := congrArg State.advanceDriver hx
  rw [ht]
  by_cases h : 64 * (s.blk + 1) ≥ s.msgLen.toNat
  · exact .inl ⟨h, by simp only [ge_iff_le] at h ⊢; rw [if_pos h]; rfl⟩
  · exact .inr ⟨by omega, by simp only [ge_iff_le] at h ⊢; rw [if_neg h]⟩

end Sys2Proof.Machine
end

