-- ==== Sys2Proof/Laws/Bus.lean ====
section
/-! SUPPORT. The register map and the bus access: which offset reaches what, and what one access can do, said once. -/

namespace Sys2Proof.Machine

/-! ### The register map -/

theorem registerTable_lookup_none (off : Nat) (h : off % 4 ≠ 0 ∨ off = 0x02C ∨ off = 0x03C ∨ 0x050 ≤ off) :
    registerTable.lookup off = none := by
  have hk : ∀ k, k % 4 = 0 ∧ k ≠ 0x02C ∧ k ≠ 0x03C ∧ k < 0x050 → (off == k) = false :=
    fun k hk => beq_false_of_ne (by omega)
  simp [registerTable, List.lookup, hk]

/-- R64: a table entry is a register. -/
theorem targetOfOffset_register {mw off : Nat} {t : Target} (h : registerTable.lookup off = some t) :
    targetOfOffset mw off = some t := by simp [targetOfOffset, h]

/-- R64: the W window. -/
theorem targetOfOffset_window (mw : Nat) (i : Fin 16) : targetOfOffset mw (0x080 + 4 * i.val) = some (.w i) := by
  rw [targetOfOffset, registerTable_lookup_none _ (by omega), windowTarget, dif_pos (by omega)]
  simp

/-- R64: the IN buffer. -/
theorem targetOfOffset_inBuf {mw g : Nat} (h : g < mw) :
    targetOfOffset mw (0x1000 + 4 * g) = some (.inBuf g) := by
  rw [targetOfOffset, registerTable_lookup_none _ (by omega), windowTarget, dif_neg (by omega), bufferTarget,
    if_neg (by omega), if_pos (by omega)]
  simp

/-- R64: the OUT buffer. -/
theorem targetOfOffset_outBuf {mw g : Nat} (hmw : mw ≤ 1024) (h : g < mw) :
    targetOfOffset mw (0x2000 + 4 * g) = some (.outBuf g) := by
  rw [targetOfOffset, registerTable_lookup_none _ (by omega), windowTarget, dif_neg (by omega), bufferTarget,
    if_neg (by omega), if_neg (by omega), if_pos (by omega)]
  simp

/-- R64, R65: what is mapped, and nothing else. -/
theorem targetOfOffset_isSome (mw off : Nat) :
    (targetOfOffset mw off).isSome = true ↔ off % 4 = 0 ∧
      (off ≤ 0x028 ∨ (0x030 ≤ off ∧ off ≤ 0x038) ∨ (0x040 ≤ off ∧ off ≤ 0x04C) ∨ (0x080 ≤ off ∧ off ≤ 0x0BC) ∨
        (0x1000 ≤ off ∧ off < 0x1000 + 4 * mw) ∨ (0x2000 ≤ off ∧ off < 0x2000 + 4 * mw)) := by
  by_cases h4 : off % 4 = 0
  · by_cases hlow : off < 0x050
    · have hw : windowTarget off = none := by rw [windowTarget, dif_neg (by omega)]
      have hb : bufferTarget mw off = none := by
        rw [bufferTarget, if_neg (by omega), if_neg (by omega), if_neg (by omega)]
      have hor : ∀ o : Option Target, (o.or (none.or none)).isSome = o.isSome := by intro o; cases o <;> rfl
      rw [targetOfOffset, hw, hb, hor]
      have key : ∀ o : Fin 0x050, o.val % 4 = 0 → ((registerTable.lookup o.val).isSome = true ↔
          (o.val ≤ 0x028 ∨ (0x030 ≤ o.val ∧ o.val ≤ 0x038) ∨ (0x040 ≤ o.val ∧ o.val ≤ 0x04C))) := by decide
      rw [key ⟨off, hlow⟩ h4]
      simp only [h4, true_and]
      omega
    · rw [targetOfOffset, registerTable_lookup_none _ (by omega), Option.none_or]
      by_cases hw : 0x080 ≤ off ∧ off < 0x0C0
      · rw [windowTarget, dif_pos ⟨hw.1, hw.2, h4⟩]; simp; omega
      · rw [windowTarget, dif_neg (by omega), Option.none_or, bufferTarget, if_neg (by omega)]
        split
        · simp; omega
        · split
          · simp; omega
          · simp; omega
  · rw [targetOfOffset, registerTable_lookup_none _ (by omega), windowTarget, dif_neg (by omega), bufferTarget,
      if_pos h4]
    simp [h4]

/-! ### Issue and access -/

/-- R110: issuing a command always answers a next state. -/
theorem exec_next (i : Instr) (s : State) : ∃ t, exec i s = .next t := by
  cases i <;> exact ⟨_, rfl⟩

/-- R8: `exec` is the issue of a command on a core of this core's capacity. -/
theorem execAt_msgWords (i : Instr) (s : State) : execAt Config.msgWords i s = exec i s := by
  cases i <;> rfl

/-- R111: the capacity matters to STREAM alone. -/
theorem execAt_other {i : Instr} (h : i ≠ .stream) (mw : Nat) (s : State) : execAt mw i s = exec i s := by
  cases i <;> first | rfl | exact absurd rfl h

theorem execAt_stream (mw : Nat) (s : State) : execAt mw .stream s = execStreamAt mw s := rfl

/-- R110: issuing a command always answers a next state, whatever the capacity. -/
theorem execAt_next (mw : Nat) (i : Instr) (s : State) : ∃ t, execAt mw i s = .next t := by
  cases i <;> exact ⟨_, rfl⟩

theorem writeCmd_next (mw : Nat) (v : Word) (s : State) : ∃ t, writeCmd mw v s = .next t := by
  unfold writeCmd
  split
  · exact execAt_next _ _ _
  · exact ⟨_, rfl⟩

/-- A CMD write on this core issues the command its word decodes to. -/
theorem writeCmd_decoded {v : Word} {i : Instr} (h : decode v = .ok i) (s : State) :
    writeCmd Config.msgWords v s = exec i s := by
  rw [← execAt_msgWords]
  simp only [writeCmd, h]

theorem writeTarget_next (mw : Nat) (t : Target) (v : Word) (s : State) : ∃ u, writeTarget mw t v s = .next u := by
  cases t <;> first | exact ⟨_, rfl⟩ | exact writeCmd_next mw v s

/-- R49, R71: a read only ever moves the count of draws on. -/
theorem readTarget_state (t : Target) (s : State) :
    (readTarget t s).2 = { s with draws := (readTarget t s).2.draws } := by
  cases t <;> simp only [readTarget, State.datapathRead] <;> (try split) <;> rfl

/-- R200: a bus access never stops the machine. -/
theorem busAccess_next (mw : Nat) (a : Access) (s : State) : ∃ t, busAccess mw a s = .next t := by
  unfold busAccess
  split
  · split
    · exact ⟨_, rfl⟩
    · cases a with
      | read off n => exact ⟨_, rfl⟩
      | write off n v => exact writeTarget_next _ _ _ _
  · exact ⟨_, rfl⟩

/-- R62, R63: out of reset, an access that reaches nothing is a bus error. -/
theorem busAccess_illegal {mw : Nat} {a : Access} {s : State} (h : targetOfAccess mw a = none) :
    busAccess mw a s = .next (s.busError a) := by
  simp only [busAccess, h, ite_self]

theorem busAccess_read {mw : Nat} {off : Offset} {n : Size} {s : State} {t : Target} (hr : s.rstN = true)
    (h : targetOfAccess mw (.read off n) = some t) :
    busAccess mw (.read off n) s = .next ((readTarget t s).2.respond (.read off n) (readTarget t s).1 false) := by
  simp only [busAccess, hr, h, if_true]

theorem busAccess_write {mw : Nat} {off : Offset} {n : Size} {v : Word} {s : State} {t : Target} (hr : s.rstN = true)
    (h : targetOfAccess mw (.write off n v) = some t) :
    busAccess mw (.write off n v) s = writeTarget mw t v (s.respond (.write off n v) 0#32 false) := by
  simp only [busAccess, hr, h, if_true]

/-- R226: in reset every access is an error. -/
theorem busAccess_in_reset {mw : Nat} {a : Access} {s : State} (h : s.rstN = false) :
    busAccess mw a s = .next (s.busError a) := by
  simp only [busAccess, h, Bool.false_eq_true, if_false]

/-! ### The step -/

/-- R8: the step is that of a core of this core's capacity, and the host's interface shows it. -/
theorem step_eq_stepAt (s : State) : step s = stepAt Config.msgWords s := rfl

theorem core_eq_machineAt : Sys2Proof.core = machineAt Config.msgWords := rfl

/-- R20, R107: a step of a core of any capacity is one agent's. -/
theorem stepAt_quiet (mw : Nat) {s : State} (h : s.turns = []) : stepAt mw s = coreTurn s := by
  simp only [stepAt, h]

theorem stepAt_turn (mw : Nat) {s : State} {t : Turn} {ts : List Turn} (h : s.turns = t :: ts) :
    stepAt mw s = takeTurn mw t (s.withTurns ts) := by
  simp only [stepAt, h]

theorem step_host {s : State} {a : Access} {ts : List Turn} (h : s.turns = .host a :: ts) :
    step s = busAccess Config.msgWords a (s.withTurns ts) := stepAt_turn _ h

theorem step_core {s : State} {ts : List Turn} (h : s.turns = .core :: ts) :
    step s = coreTurn (s.withTurns ts) := stepAt_turn _ h

theorem step_rstPin {s : State} {level : Bool} {ts : List Turn} (h : s.turns = .rstPin level :: ts) :
    step s = .next (resetPinTurn level (s.withTurns ts)) := stepAt_turn _ h

theorem step_quiet {s : State} (h : s.turns = []) : step s = coreTurn s := stepAt_quiet _ h

theorem coreTurn_busy {s : State} (hr : s.rstN = true) (hb : s.busy = true) : coreTurn s = coreStep s := by
  simp [coreTurn, hr, hb]

theorem coreTurn_idle {s : State} (h : s.rstN = false ∨ s.busy = false) : coreTurn s = .next s := by
  rcases h with h | h <;> simp [coreTurn, h]

/-- R20: a step is one agent's: the Core's, the Host's, or the reset pin's. -/
theorem step_cases (s : State) :
    (s.turns = [] ∧ step s = coreTurn s) ∨
    (∃ ts, s.turns = .core :: ts ∧ step s = coreTurn (s.withTurns ts)) ∨
    (∃ a ts, s.turns = .host a :: ts ∧ step s = busAccess Config.msgWords a (s.withTurns ts)) ∨
    (∃ level ts, s.turns = .rstPin level :: ts ∧ step s = .next (resetPinTurn level (s.withTurns ts))) := by
  cases h : s.turns with
  | nil => exact .inl ⟨rfl, step_quiet h⟩
  | cons t ts =>
    cases t with
    | core => exact .inr (.inl ⟨ts, rfl, step_core h⟩)
    | host a => exact .inr (.inr (.inl ⟨a, ts, rfl, step_host h⟩))
    | rstPin l => exact .inr (.inr (.inr ⟨l, ts, rfl, step_rstPin h⟩))

/-! ### Runs -/

theorem run_zero (s : State) : runSteps 0 s = .next s := rfl

/-- The first step of a run. -/
theorem run_succ (k : Nat) {s t : State} (h : step s = .next t) : runSteps (k + 1) s = runSteps k t := by
  simp only [runSteps, h]

/-- A run that answers a next state took a first step that did. -/
theorem run_succ_inv {k : Nat} {s u : State} (h : runSteps (k + 1) s = .next u) :
    ∃ t, step s = .next t ∧ runSteps k t = .next u := by
  cases hs : step s with
  | next t => exact ⟨t, rfl, by rw [← run_succ k hs]; exact h⟩
  | fault r => simp [runSteps, hs] at h
  | refused r => simp [runSteps, hs] at h

/-- One step. -/
theorem run_one (s : State) : runSteps 1 s = step s := by
  simp only [runSteps]
  cases step s <;> rfl

/-- Runs compose. -/
theorem run_add (k n : Nat) {s t : State} (h : runSteps k s = .next t) : runSteps (k + n) s = runSteps n t := by
  induction k generalizing s with
  | zero => cases h; rw [Nat.zero_add]
  | succ k ih =>
    obtain ⟨u, hs, hu⟩ := run_succ_inv h
    rw [Nat.succ_add, run_succ (k + n) hs]
    exact ih hu

/-- The runs the statements speak of are those of the host's interface. -/
theorem runSteps_eq_core_run (n : Nat) (s : State) : runSteps n s = Sys2Proof.core.run n s := by
  induction n generalizing s with
  | zero => rfl
  | succ n ih =>
    cases hs : step s with
    | next t =>
      have h' : Sys2Proof.core.step s = .next t := hs
      simp only [runSteps, Host.Core.run, hs, h']
      exact ih t
    | fault r =>
      have h' : Sys2Proof.core.step s = .fault r := hs
      simp only [runSteps, Host.Core.run, hs, h']
      rfl
    | refused r =>
      have h' : Sys2Proof.core.step s = .refused r := hs
      simp only [runSteps, Host.Core.run, hs, h']
      rfl

/-- R108: with nothing scheduled, a busy core out of reset takes a Core step. -/
theorem step_busy {s : State} (ht : s.turns = []) (hr : s.rstN = true) (hb : s.busy = true) : step s = coreStep s := by
  rw [step_quiet ht, coreTurn_busy hr hb]

end Sys2Proof.Machine
end

