-- ==== Sys2Proof/Laws/HostProgram.lean ====
section
/-! SUPPORT. What the definitions of Machine/HostProgram.lean do, said once each: expansion, an access of a line, a line
of the Host's program, the end of a run. -/

namespace Sys2Proof.Machine

/-! ### Expansion (R93) -/

theorem offsetLiteral_eq_some {n : Nat} {off : Word} : offsetLiteral n = some off ↔ off.toNat = n := by
  unfold offsetLiteral
  constructor
  · intro h
    split at h
    · cases h
      rw [BitVec.toNat_ofNat]
      exact Nat.mod_eq_of_lt ‹_›
    · cases h
  · rintro rfl
    rw [if_pos off.isLt, BitVec.ofNat_toNat, BitVec.setWidth_eq]

/-- `r` is a register of a core with buffers of `mw` words: the words of IN and OUT stop at the capacity. -/
def Target.inMap (mw : Nat) : Target → Prop
  | .inBuf g | .outBuf g => g < mw
  | .w _ | .id | .ctrl | .cmd | .status | .keyIn | .nonceIn | .ldcnt | .counter | .msgLen | .ctrCur | .blocksDone
  | .opa | .opb | .res | .qa | .qb | .qc | .qd => True

/-- R64, R93: every register of a core of legal capacity has an offset that its name stands for, in the window, at
which the map has that register. -/
theorem registerOffset_maps {mw : Nat} (hmw : mw ≤ 1024) {r : Target} (hr : r.inMap mw) :
    ∃ off, registerOffset r = some off ∧ off.toNat < 0x4000 ∧ targetOfOffset mw off.toNat = some r := by
  have lit : ∀ n, n < 0x4000 → ∃ off, offsetLiteral n = some off ∧ off.toNat < 0x4000 ∧ off.toNat = n := fun n hn =>
    have ho : (BitVec.ofNat 32 n).toNat = n := by
      rw [BitVec.toNat_ofNat]
      exact Nat.mod_eq_of_lt (by omega)
    ⟨_, offsetLiteral_eq_some.mpr ho, by omega, ho⟩
  cases r with
  | w i =>
    obtain ⟨off, h1, h2, h3⟩ := lit (0x080 + 4 * i.val) (by omega)
    exact ⟨off, h1, h2, h3 ▸ targetOfOffset_window mw i⟩
  | inBuf g =>
    have hg : g < mw := hr
    obtain ⟨off, h1, h2, h3⟩ := lit (0x1000 + 4 * g) (by omega)
    exact ⟨off, h1, h2, h3 ▸ targetOfOffset_inBuf hg⟩
  | outBuf g =>
    have hg : g < mw := hr
    obtain ⟨off, h1, h2, h3⟩ := lit (0x2000 + 4 * g) (by omega)
    exact ⟨off, h1, h2, h3 ▸ targetOfOffset_outBuf hmw hg⟩
  | _ => exact ⟨_, rfl, by decide, targetOfOffset_register rfl⟩

theorem expandProgram_nil : expandProgram [] = some [] := rfl

/-- A program's expansion is its first line's, followed by the others'. -/
theorem expandProgram_cons {x : PseudoLine} {xs : List PseudoLine} {ys : List HostLine} :
    expandProgram (x :: xs) = some ys ↔ ∃ a b, x.expand = some a ∧ expandProgram xs = some b ∧ ys = a ++ b := by
  rw [expandProgram]
  cases x.expand <;> cases expandProgram xs <;> simp [eq_comm]

/-! ### One access of a line (R60, R62) -/

theorem windowOffset_none {off : Word} : windowOffset off = none ↔ 0x4000 ≤ off.toNat := by
  unfold windowOffset
  split <;> simp <;> omega

theorem windowOffset_some {off : Word} {o : Offset} : windowOffset off = some o ↔ off.toNat = o.toNat := by
  have ho := o.isLt
  have hs : (off.setWidth 14).toNat = off.toNat % 2 ^ 14 := BitVec.toNat_setWidth ..
  unfold windowOffset
  constructor
  · intro h
    split at h
    · cases h
      omega
    · cases h
  · intro h
    rw [if_pos (by omega)]
    exact congrArg some (BitVec.eq_of_toNat_eq (by omega))

/-- Outside the window: `err = 1`, data 0, and the core as it was. -/
theorem hostAccess_outside (mw : Nat) {off : Word} (h : 0x4000 ≤ off.toNat) (access : Offset → Access)
    (after : Word × Bool → HostRun) (s : State) : hostAccess mw off access after s = .next (after (0#32, true), s) := by
  unfold hostAccess
  rw [windowOffset_none.mpr h]

/-- In the window: the core's bus access, and what it answered. -/
theorem hostAccess_window (mw : Nat) {off : Word} {o : Offset} (h : off.toNat = o.toNat) {access : Offset → Access}
    (after : Word × Bool → HostRun) {s t : State} (ht : busAccess mw (access o) s = .next t) :
    hostAccess mw off access after s = .next (after t.answer, t) := by
  unfold hostAccess
  rw [windowOffset_some.mpr h]
  simp only [ht]

/-- An access of a line always completes. -/
theorem hostAccess_next (mw : Nat) (off : Word) (access : Offset → Access) (after : Word × Bool → HostRun) (s : State) :
    ∃ r t, hostAccess mw off access after s = .next (after r, t) := by
  cases hw : windowOffset off with
  | none => exact ⟨_, s, hostAccess_outside mw (windowOffset_none.mp hw) access after s⟩
  | some o =>
    obtain ⟨t, ht⟩ := busAccess_next mw (access o) s
    exact ⟨_, t, hostAccess_window mw (windowOffset_some.mp hw) after ht⟩

/-! ### One line (R92) -/

/-- Every line of a Host program completes. -/
theorem hostLineStep_next (mw : Nat) (h : HostRun) (s : State) : ∃ r, hostLineStep mw h s = .next r := by
  unfold hostLineStep
  split
  · exact ⟨_, rfl⟩
  · obtain ⟨r, t, e⟩ := hostAccess_next _ _ _ _ s
    exact ⟨_, e⟩
  · obtain ⟨r, t, e⟩ := hostAccess_next _ _ _ _ s
    exact ⟨_, e⟩
  · exact ⟨_, rfl⟩
  · split <;> exact ⟨_, rfl⟩

/-- A write outside the window: the Host notes the error and goes on, the core is as it was. -/
theorem hostLineStep_write_outside (mw : Nat) {h : HostRun} {off v : Word} (hl : h.lines[h.pos]? = some (.wr off v))
    (ho : 0x4000 ≤ off.toNat) (s : State) :
    hostLineStep mw h s = .next ({ h with errors := off :: h.errors, pos := h.pos + 1 }, s) := by
  unfold hostLineStep
  simp only [hl, hostAccess_outside mw ho]
  rfl

/-- A read outside the window: as a write, and the variable becomes 0. -/
theorem hostLineStep_read_outside (mw : Nat) {h : HostRun} {off : Word} {t : Nat} (hl : h.lines[h.pos]? = some (.rd off t))
    (ho : 0x4000 ≤ off.toNat) (s : State) :
    hostLineStep mw h s =
      .next ({ h with errors := off :: h.errors, vars := (t, 0#32) :: h.vars, pos := h.pos + 1 }, s) := by
  unfold hostLineStep
  simp only [hl, hostAccess_outside mw ho]
  rfl

/-! ### The end of a run (R117, U16) -/

/-- A run that has ended takes no further turn. -/
theorem systemRun_ended (mw : Nat) {h : HostRun} (he : h.ended = true) (ts : List SystemTurn) (s : State) :
    systemRun mw ts h s = .next (h, s) := by
  cases ts with
  | nil => rfl
  | cons t ts =>
    unfold systemRun
    rw [if_pos he]

theorem HostRun.endState_defined (mw : Nat) {h : HostRun} {s : State} (hd : h.endDefined s = true) : HostRun.endState mw h s = some s := by
  unfold HostRun.endDefined at hd
  unfold HostRun.endState
  cases he : h.ended <;> cases hb : s.busy <;> simp_all

theorem HostRun.endState_busy (mw : Nat) {h : HostRun} {s : State} (he : h.ended = true) (hb : s.busy = true) :
    HostRun.endState mw h s = some (s.drawDatapath mw) := by
  unfold HostRun.endState
  rw [if_pos he, if_pos hb]

theorem HostRun.endState_running (mw : Nat) {h : HostRun} {s : State} (he : h.ended = false) : HostRun.endState mw h s = none := by
  unfold HostRun.endState
  rw [he, if_neg Bool.false_ne_true]

/-- What the end state of a run that ends while busy keeps: all but the datapath registers. -/
theorem State.drawDatapath_frame (mw : Nat) (s : State) :
    s.drawDatapath mw = { s with
      wReg := (s.drawDatapath mw).wReg, sReg := (s.drawDatapath mw).sReg, res := (s.drawDatapath mw).res
      qa := (s.drawDatapath mw).qa, qb := (s.drawDatapath mw).qb, qc := (s.drawDatapath mw).qc
      qd := (s.drawDatapath mw).qd, ctrCur := (s.drawDatapath mw).ctrCur
      blocksDone := (s.drawDatapath mw).blocksDone, outBuf := (s.drawDatapath mw).outBuf
      draws := (s.drawDatapath mw).draws } := rfl

@[simp] theorem State.drawDatapath_res (mw : Nat) (s : State) :
    (s.drawDatapath mw).res = Config.busyRead (s.draws + 32) := rfl
@[simp] theorem State.drawDatapath_qa (mw : Nat) (s : State) :
    (s.drawDatapath mw).qa = Config.busyRead (s.draws + 33) := rfl
@[simp] theorem State.drawDatapath_qb (mw : Nat) (s : State) :
    (s.drawDatapath mw).qb = Config.busyRead (s.draws + 34) := rfl
@[simp] theorem State.drawDatapath_qc (mw : Nat) (s : State) :
    (s.drawDatapath mw).qc = Config.busyRead (s.draws + 35) := rfl
@[simp] theorem State.drawDatapath_qd (mw : Nat) (s : State) :
    (s.drawDatapath mw).qd = Config.busyRead (s.draws + 36) := rfl
@[simp] theorem State.drawDatapath_ctrCur (mw : Nat) (s : State) :
    (s.drawDatapath mw).ctrCur = Config.busyRead (s.draws + 37) := rfl
@[simp] theorem State.drawDatapath_blocksDone (mw : Nat) (s : State) :
    (s.drawDatapath mw).blocksDone = Config.busyRead (s.draws + 38) := rfl
@[simp] theorem State.drawDatapath_wReg (mw : Nat) (s : State) (i : Fin 16) :
    (s.drawDatapath mw).wReg[i] = Config.busyRead (s.draws + i.val) := by simp [State.drawDatapath]
@[simp] theorem State.drawDatapath_sReg (mw : Nat) (s : State) (i : Fin 16) :
    (s.drawDatapath mw).sReg[i] = Config.busyRead (s.draws + 16 + i.val) := by simp [State.drawDatapath]

/-- Writing words 0 to `n - 1` of a canonical buffer: it stays canonical, and each of them reads as written. -/
theorem Buffer.writeWords_spec (init : Nat → Byte) (f : Nat → Word) (m : Buffer) (hm : m.wf = true) (n : Nat) :
    ((List.range n).foldl (fun m g => m.writeWord g (f g)) m).wf = true ∧
      ∀ g, g < n → ((List.range n).foldl (fun m g => m.writeWord g (f g)) m).readWord init g = f g := by
  induction n with
  | zero => exact ⟨hm, fun g hg => absurd hg (Nat.not_lt_zero g)⟩
  | succ n ih =>
    rw [List.range_succ, List.foldl_append, List.foldl_cons, List.foldl_nil]
    refine ⟨Buffer.wf_writeWord _ _ _ ih.1, fun g hg => ?_⟩
    rw [Buffer.readWord_writeWord init _ _ _ _ ih.1]
    split
    · rw [‹g = n›]
    · exact ih.2 g (by omega)

/-- Every OUT word of the capacity becomes a draw, and OUT stays canonical. -/
theorem State.drawDatapath_outWord {s : State} (h : s.outBuf.wf = true) (mw : Nat) :
    (s.drawDatapath mw).outBuf.wf = true ∧
      ∀ g, g < mw → (s.drawDatapath mw).outWord g = Config.busyRead (s.draws + 39 + g) :=
  Buffer.writeWords_spec (Config.outPowerUp s.epoch) (fun g => Config.busyRead (s.draws + 39 + g)) s.outBuf h mw

end Sys2Proof.Machine
end

