-- ==== Sys2Proof/Laws/PerInstr.lean ====
section
/-! SUPPORT. The family EncodedWord: what holds of every command's word, as syntax (30_encoding.md R85 to R88, R91). -/

namespace Sys2Proof.Laws.EncodedWord

/-- The command's word has reserved field 0, its opcode names the command, and the decoder reads the command back from
the word and from the table's numbering of its bits. -/
def Statement (i : Instr) : Prop :=
  i.wellFormed = true ∧ rsvField (encode i) = 0#24 ∧ commandOfOp (opField (encode i)) = some i ∧
    decode (encode i) = .ok i ∧ decodeTableWord 32 (encode i).toNat = some i

theorem nop : Statement .nop := ⟨rfl, rfl, rfl, rfl, rfl⟩
theorem init : Statement .init := ⟨rfl, rfl, rfl, rfl, rfl⟩
theorem block : Statement .block := ⟨rfl, rfl, rfl, rfl, rfl⟩
theorem stream : Statement .stream := ⟨rfl, rfl, rfl, rfl, rfl⟩
theorem dround : Statement .dround := ⟨rfl, rfl, rfl, rfl, rfl⟩
theorem ffwd : Statement .ffwd := ⟨rfl, rfl, rfl, rfl, rfl⟩
theorem qr : Statement .qr := ⟨rfl, rfl, rfl, rfl, rfl⟩
theorem add : Statement .add := ⟨rfl, rfl, rfl, rfl, rfl⟩
theorem xor : Statement .xor := ⟨rfl, rfl, rfl, rfl, rfl⟩
theorem rotl16 : Statement .rotl16 := ⟨rfl, rfl, rfl, rfl, rfl⟩
theorem rotl12 : Statement .rotl12 := ⟨rfl, rfl, rfl, rfl, rfl⟩
theorem rotl8 : Statement .rotl8 := ⟨rfl, rfl, rfl, rfl, rfl⟩
theorem rotl7 : Statement .rotl7 := ⟨rfl, rfl, rfl, rfl, rfl⟩
theorem keyClr : Statement .keyClr := ⟨rfl, rfl, rfl, rfl, rfl⟩
theorem nonceClr : Statement .nonceClr := ⟨rfl, rfl, rfl, rfl, rfl⟩

end Sys2Proof.Laws.EncodedWord
end

