-- ==== Sys2Proof/Laws/Runs.lean ====
section
/-! SUPPORT. Runs of Core steps of a core left alone, each induction done once: the eight ROUND steps of a double round,
the 80 of a block, LOAD with them, and the 83 steps of one STREAM block. -/

namespace Sys2Proof.Machine

/-- The core is left alone and its next step is a Core step in PHASE `p`. -/
structure State.Running (s : State) (p : Phase) : Prop where
  turns : s.turns = []
  rstN : s.rstN = true
  busy : s.busy = true
  phase : s.phase = p

theorem State.Running.step_eq {s : State} {p : Phase} (h : s.Running p) : step s = coreStep s :=
  step_busy h.turns h.rstN h.busy

theorem State.Running.step_round {s : State} (h : s.Running .round) : step s = .next (roundStep s) := by
  rw [h.step_eq]
  simp only [coreStep, h.phase]

theorem State.Running.step_load {s : State} (h : s.Running .load) : step s = .next (loadStep s) := by
  rw [h.step_eq]
  simp only [coreStep, h.phase]

theorem State.Running.step_ffwd {s : State} (h : s.Running .ffwd) : step s = ffwdStep s := by
  rw [h.step_eq]
  simp only [coreStep, h.phase]

theorem State.Running.step_xor {s : State} (h : s.Running .xor) : step s = .next (xorStep s) := by
  rw [h.step_eq]
  simp only [coreStep, h.phase]

/-- R150: the first `n` of the ROUND steps of a double round, `n` at most 7. -/
theorem run_groups (n : Nat) : ∀ (s : State) (w : Vector Word 16), s.Running .round → s.wReg = mixGroups s.qi.val w →
    s.qi.val + n ≤ 7 →
    ∃ q : Fin 8, q.val = s.qi.val + n ∧ runSteps n s = .next { s with qi := q, wReg := mixGroups q.val w } := by
  induction n with
  | zero =>
    intro s w _ hw _
    exact ⟨s.qi, rfl, by rw [run_zero, ← hw]⟩
  | succ n ih =>
    intro s w h hw hn
    rcases roundStep_cases s with ⟨_, hs, hq⟩ | ⟨a, _⟩ | ⟨a, _⟩ | ⟨a, _⟩ <;> [skip; omega; omega; omega]
    have hm : applyGroup sched[s.qi] s.wReg = mixGroups (s.qi + 1).val w := by
      have e : s.qi.val % 8 = s.qi.val := Nat.mod_eq_of_lt s.qi.isLt
      rw [hq, mixGroups_succ, hw]
      simp only [e]
      rfl
    obtain ⟨q, hq', hr⟩ := ih { s.mixGroup with qi := s.qi + 1 } w ⟨h.turns, h.rstN, h.busy, h.phase⟩ hm
      (by show (s.qi + 1).val + n ≤ 7; omega)
    refine ⟨q, by simp only at hq'; omega, ?_⟩
    rw [run_succ n (h.step_round.trans (congrArg _ hs)), hr]
    rfl

/-- R149, R150: the eight ROUND steps of a double round. -/
theorem run_doubleRound {s : State} (h : s.Running .round) (hq : s.qi = 0) :
    runSteps 8 s = .next (
      if s.opc = .dround then
        { s with
          wReg := doubleRound s.wReg, qi := 0, dr := s.dr + 1, busy := false, done := true, phase := .idle }
      else if s.dr + 1 = 10 then { s with wReg := doubleRound s.wReg, qi := 0, dr := s.dr + 1, phase := .ffwd }
      else { s with wReg := doubleRound s.wReg, qi := 0, dr := s.dr + 1 }) := by
  obtain ⟨q, hq7, hr⟩ := run_groups 7 s s.wReg h (by rw [hq]; rfl) (by rw [hq]; decide)
  rw [hq] at hq7
  obtain rfl : q = 7 := Fin.ext hq7
  rw [show runSteps 8 s = runSteps 1 _ from run_add 7 1 hr, run_one]
  generalize hu : ({ s with qi := 7, wReg := mixGroups (7 : Fin 8).val s.wReg } : State) = u
  have hu7 : u.qi.val = 7 := by rw [← hu]; rfl
  have ho : u.opc = s.opc := by rw [← hu]
  have hd : u.dr = s.dr := by rw [← hu]
  have hm : u.mixGroup = { s with qi := 7, wReg := doubleRound s.wReg } := by rw [← hu]; rfl
  have hrun : u.Running .round := by
    rw [← hu]
    exact ⟨h.turns, h.rstN, h.busy, h.phase⟩
  rw [hrun.step_round]
  rcases roundStep_cases u with ⟨a, _⟩ | ⟨_, b, e⟩ | ⟨_, b, c, e⟩ | ⟨_, b, c, e⟩
  · omega
  · rw [e, if_pos (ho ▸ b), hm, ← hd]
    rfl
  · rw [e, if_neg (ho ▸ b), if_pos (hd ▸ c), hm, ← hd]
  · rw [e, if_neg (ho ▸ b), if_neg (hd ▸ c), hm, ← hd]

/-- R165: `n` of the ten double rounds of a block, the last one not among them. -/
theorem run_doubleRounds (n : Nat) : ∀ s : State, s.Running .round → s.qi = 0 → s.opc ≠ .dround → s.dr + n < 10 →
    runSteps (8 * n) s = .next { s with wReg := doubleRounds n s.wReg, dr := s.dr + n } := by
  induction n with
  | zero => exact fun _ _ _ _ _ => rfl
  | succ n ih =>
    intro s h hq ho hn
    have hr := ih s h hq ho (by omega)
    rw [show 8 * (n + 1) = 8 * n + 8 by omega, run_add _ 8 hr,
      run_doubleRound (by exact ⟨h.turns, h.rstN, h.busy, h.phase⟩) (by exact hq), if_neg (by exact ho),
      if_neg (by show ¬ s.dr + n + 1 = 10; omega)]
    simp only [doubleRounds_succ, hq, Nat.add_assoc]

/-- R164, R165: the LOAD step and the 80 ROUND steps of a block of BLOCK or STREAM. -/
theorem run_loadAndRounds {s : State} (h : s.Running .load) (hd : s.opc ≠ .dround) (hi : s.opc ≠ .init) :
    runSteps 81 s = .next { s with
      sReg := buildState s.key s.nonce s.ctrCur
      wReg := doubleRounds 10 (buildState s.key s.nonce s.ctrCur), dr := 10, qi := 0, phase := .ffwd } := by
  rcases loadStep_cases s with ⟨a, _⟩ | ⟨_, b⟩
  · exact absurd a hi
  generalize hu : ({ s with
    sReg := buildState s.key s.nonce s.ctrCur, wReg := buildState s.key s.nonce s.ctrCur
    dr := 0, qi := 0, phase := .round } : State) = u at b
  have hrun : u.Running .round := by
    rw [← hu]
    exact ⟨h.turns, h.rstN, h.busy, rfl⟩
  have hq : u.qi = 0 := by rw [← hu]
  have ho : u.opc ≠ .dround := by rwa [← hu]
  have h9 : u.dr = 0 := by rw [← hu]
  rw [show 81 = 80 + 1 from rfl, run_succ 80 (h.step_load.trans (congrArg _ b)),
    run_add 72 8 (run_doubleRounds 9 u hrun hq ho (by omega)),
    run_doubleRound (by exact ⟨hrun.turns, hrun.rstN, hrun.busy, hrun.phase⟩) (by exact hq), if_neg (by exact ho),
    if_pos (by show u.dr + 9 + 1 = 10; omega)]
  subst hu
  rfl

/-- R111, R112, R180: a STREAM that fits the buffers, issued on a loaded core left alone, is accepted. -/
theorem exec_stream_accepted {s : State} (hq : s.quiet) (hl : s.loaded) (h0 : 0 < s.msgLen.toNat)
    (hm : s.msgLen.toNat ≤ 4 * Config.msgWords) :
    exec .stream s = .next (s.startDriver.accept .stream .load) ∧ (s.startDriver.accept .stream .load).Running .load := by
  refine ⟨?_, hq.2.2, hq.1, rfl, rfl⟩
  have hz : s.msgLen ≠ 0#32 := fun h => by simp [h] at h0
  show Host.Outcome.next _ = _
  rw [State.checkKeyNonce_loaded hl]
  rcases State.checkMessage_cases Config.msgWords s with ⟨e, _⟩ | ⟨e, _⟩ | ⟨_, _, e⟩
  · exact absurd e (Nat.not_lt.mpr hm)
  · exact absurd e hz
  · rw [e, if_neg hz]
    simp only [Option.none_or]
    rw [issueCompute_pass _ hq.2.1]

/-- R186, R246: the 83 Core steps of one block of a STREAM: the block function of the block's counter, then the XOR
step. -/
theorem run_streamBlock {s : State} (h : s.Running .load) (ho : s.opc = .stream) :
    runSteps 83 s = .next (xorStep { s with
      sReg := buildState s.key s.nonce s.ctrCur, wReg := blockFunction s.key s.nonce s.ctrCur
      dr := 10, qi := 0, phase := .xor }) := by
  rw [show runSteps 83 s = runSteps 2 _ from
    run_add 81 2 (run_loadAndRounds h (by rw [ho]; nofun) (by rw [ho]; nofun))]
  generalize hu : ({ s with
    sReg := buildState s.key s.nonce s.ctrCur
    wReg := doubleRounds 10 (buildState s.key s.nonce s.ctrCur), dr := 10, qi := 0, phase := .ffwd } : State) = u
  have hrun : u.Running .ffwd := by
    rw [← hu]
    exact ⟨h.turns, h.rstN, h.busy, rfl⟩
  have huo : u.opc = .stream := by rwa [← hu]
  have hf : ffwdStep u = .next { u.addOriginal with phase := .xor } := by
    rcases ffwdStep_cases u with ⟨a, _⟩ | ⟨a, _⟩ | ⟨_, b⟩ | ⟨_, _, a, _⟩
    · rw [huo] at a
      cases a
    · rw [huo] at a
      cases a
    · exact b
    · exact absurd huo a
  rw [run_succ 1 (hrun.step_ffwd.trans hf), run_one]
  subst hu
  exact State.Running.step_xor ⟨h.turns, h.rstN, h.busy, rfl⟩

end Sys2Proof.Machine
end

