-- ==== Sys2Proof/Tests/Slice0.lean ====
section
/-! SUPPORT. The model's own tests: ill-formed terms refused, words written out from the encoding, one-step tests
against the vectors of spec/95_test_vectors.md (named in each comment), and a witness for the hypotheses of every
statement that has some. -/

namespace Sys2Proof.Tests

open Sys2Proof Sys2Proof.Machine

/-! ### Helpers -/

/-- `p` of the next state; false when there is none. -/
def nextIs (o : Host.Outcome State Fault Refusal) (p : State → Bool) : Bool :=
  match o with
  | .next t => p t
  | .fault _ => false
  | .refused _ => false

theorem exists_next {o : Host.Outcome State Fault Refusal} (h : nextIs o (fun _ => true) = true) :
    ∃ t, o = .next t := by
  cases o with
  | next t => exact ⟨t, rfl⟩
  | fault r => exact absurd h Bool.false_ne_true
  | refused r => exact absurd h Bool.false_ne_true

theorem exists_next_of {o : Host.Outcome State Fault Refusal} {b : Byte}
    (h : nextIs o (fun t => t.outByte 0 == b) = true) : ∃ t, o = .next t ∧ t.outByte 0 = b := by
  cases o with
  | next t => exact ⟨t, rfl, eq_of_beq h⟩
  | fault r => exact absurd h Bool.false_ne_true
  | refused r => exact absurd h Bool.false_ne_true

/-- KEY-SEQ. -/
def keySeq : Vector Word 8 :=
  #v[0x03020100#32, 0x07060504#32, 0x0b0a0908#32, 0x0f0e0d0c#32, 0x13121110#32, 0x17161514#32, 0x1b1a1918#32,
     0x1f1e1d1c#32]

/-- NONCE-09. -/
def nonce09 : Vector Word 3 := #v[0x09000000#32, 0x4a000000#32, 0x00000000#32]

/-- NONCE-4A. -/
def nonce4A : Vector Word 3 := #v[0x00000000#32, 0x4a000000#32, 0x00000000#32]

/-- An idle core with KEY-SEQ, NONCE-09 and COUNTER = 1 loaded. -/
def loadedCore : State :=
  { State.reset with key := keySeq, keyCnt := 8#4, nonce := nonce09, nonceCnt := 3#4, counter := 1#32 }

/-- `loadedCore` just after a BLOCK was accepted. -/
def blockCore : State :=
  { loadedCore with busy := true, done := false, opc := .block, phase := .load, ctrCur := 1#32 }

/-- `s` with the Host's access `a` next. -/
def asked (s : State) (a : Access) : State := { s with turns := [.host a] }

/-- A core in the ALU step of command `c`. -/
def aluCore (c : Instr) (a b : Word) : State :=
  { State.reset with opa := a, opb := b, busy := true, opc := c, phase := .alu }

/-! ### Well-formedness -/

theorem test_wf_byte_read_refused : Access.wellFormed (.read 0x00C#14 .byte) = false := by decide
theorem test_wf_half_write_refused : Access.wellFormed (.write 0x010#14 .half 0#32) = false := by decide
theorem test_wf_misaligned_refused : Access.wellFormed (.read 0x01D#14 .word) = false := by decide
theorem test_wf_word_read : Access.wellFormed (.read 0x01C#14 .word) = true := by decide
theorem test_wf_msg_words_below_refused : Config.wellFormed 15 = false := by decide
theorem test_wf_msg_words_above_refused : Config.wellFormed 1025 = false := by decide
theorem test_wf_msg_words_ends : Config.wellFormed 16 = true ∧ Config.wellFormed 1024 = true := by decide
theorem test_wf_cell_order_refused : Buffer.wf [(4, 0#8), (3, 0#8)] = false := by decide
theorem test_wf_cell_repeat_refused : Buffer.wf [(4, 0#8), (4, 1#8)] = false := by decide

/-! ### Decoding: RSV (24 bits) then OP (8 bits), written out from R85 and the OP column of R88 -/

theorem test_decode_nop : decode (0b000000000000000000000000#24 ++ 0b00000000#8) = .ok .nop := by decide
theorem test_decode_init : decode (0b000000000000000000000000#24 ++ 0b00000001#8) = .ok .init := by decide
theorem test_decode_block : decode (0b000000000000000000000000#24 ++ 0b00000010#8) = .ok .block := by decide
theorem test_decode_stream : decode (0b000000000000000000000000#24 ++ 0b00000011#8) = .ok .stream := by decide
theorem test_decode_dround : decode (0b000000000000000000000000#24 ++ 0b00000100#8) = .ok .dround := by decide
theorem test_decode_ffwd : decode (0b000000000000000000000000#24 ++ 0b00000101#8) = .ok .ffwd := by decide
theorem test_decode_qr : decode (0b000000000000000000000000#24 ++ 0b00000110#8) = .ok .qr := by decide
theorem test_decode_add : decode (0b000000000000000000000000#24 ++ 0b00010000#8) = .ok .add := by decide
theorem test_decode_xor : decode (0b000000000000000000000000#24 ++ 0b00010001#8) = .ok .xor := by decide
theorem test_decode_rotl16 : decode (0b000000000000000000000000#24 ++ 0b00010010#8) = .ok .rotl16 := by decide
theorem test_decode_rotl12 : decode (0b000000000000000000000000#24 ++ 0b00010011#8) = .ok .rotl12 := by decide
theorem test_decode_rotl8 : decode (0b000000000000000000000000#24 ++ 0b00010100#8) = .ok .rotl8 := by decide
theorem test_decode_rotl7 : decode (0b000000000000000000000000#24 ++ 0b00010101#8) = .ok .rotl7 := by decide
theorem test_decode_key_clr : decode (0b000000000000000000000000#24 ++ 0b00100000#8) = .ok .keyClr := by decide
theorem test_decode_nonce_clr : decode (0b000000000000000000000000#24 ++ 0b00100001#8) = .ok .nonceClr := by decide

/-- R87 over all 256 OP values: 15 are commands. -/
theorem test_decode_fifteen_commands :
    ((List.range 256).filter (fun n => (decodeTableWord 32 n).isSome)).length = 15 := by decide +kernel

/-- R89: the neighbours of the opcode groups, and a word whose OP is NOP but whose RSV is 1. -/
theorem test_decode_illegal :
    ([0x07, 0x0F, 0x16, 0x1F, 0x22, 0xFF, 0x100, 0x80000010].all fun n => (decodeTableWord 32 n).isNone) = true := by
  decide

/-! ### The arithmetic unit, one ALU step each (2.1) -/

/-- A2, A4. -/
theorem test_add_wraps :
    nextIs (coreStep (aluCore .add 0xFFFFFFFF#32 0x00000001#32)) (fun t => t.res == 0#32 && t.statusWord == 2#32) ∧
    nextIs (coreStep (aluCore .add 0xFFFFFFFF#32 0xFFFFFFFF#32)) (fun t => t.res == 0xFFFFFFFE#32) := by decide

/-- A1. -/
theorem test_add_source_example :
    nextIs (coreStep (aluCore .add 0x11111111#32 0x01020304#32)) (fun t => t.res == 0x12131415#32) := by decide

/-- A6, A8. -/
theorem test_xor :
    nextIs (coreStep (aluCore .xor 0x01234567#32 0x12131415#32)) (fun t => t.res == 0x13305172#32) ∧
    nextIs (coreStep (aluCore .xor 0xFFFFFFFF#32 0x0F0F0F0F#32)) (fun t => t.res == 0xF0F0F0F0#32) := by decide

/-- A9, A20. -/
theorem test_rotl16 :
    nextIs (coreStep (aluCore .rotl16 0x13305172#32 0x00000000#32)) (fun t => t.res == 0x51721330#32) ∧
    nextIs (coreStep (aluCore .rotl16 0x0000FFFF#32 0x12345678#32)) (fun t => t.res == 0xFFFF0000#32) := by decide

/-- A11, A12. -/
theorem test_rotl12 :
    nextIs (coreStep (aluCore .rotl12 0x12345678#32 0x00000000#32)) (fun t => t.res == 0x45678123#32) ∧
    nextIs (coreStep (aluCore .rotl12 0x80000000#32 0x00000000#32)) (fun t => t.res == 0x00000800#32) := by decide

/-- A13, A14. -/
theorem test_rotl8 :
    nextIs (coreStep (aluCore .rotl8 0x12345678#32 0x00000000#32)) (fun t => t.res == 0x34567812#32) ∧
    nextIs (coreStep (aluCore .rotl8 0x80000000#32 0x00000000#32)) (fun t => t.res == 0x00000080#32) := by decide

/-- A15, A17. -/
theorem test_rotl7 :
    nextIs (coreStep (aluCore .rotl7 0x12345678#32 0x00000000#32)) (fun t => t.res == 0x1A2B3C09#32) ∧
    nextIs (coreStep (aluCore .rotl7 0x00000001#32 0x00000000#32)) (fun t => t.res == 0x00000080#32) := by decide

/-! ### The engine, the controller and the block function (2.2 to 2.4) -/

/-- Q8, and the second QR on the result of Q1. -/
theorem test_quarter_round :
    quarterRound ⟨0x879531e0#32, 0xc5ecf37d#32, 0x516461b1#32, 0xc9a62f8a#32⟩ =
      ⟨0xbeecaefa#32, 0x06268a73#32, 0x9766c489#32, 0x3b2adeb4#32⟩ ∧
    quarterRound ⟨0xea2a92f4#32, 0xcb1cf8ce#32, 0x4581472e#32, 0x5881c4bb#32⟩ =
      ⟨0x320b31c0#32, 0x8a4f47bd#32, 0x07d73b71#32, 0x72dc067d#32⟩ := by decide

/-- Q1, as the QRT step of the QR command. -/
theorem test_qr_step :
    nextIs (coreStep { State.reset with
        qa := 0x11111111#32, qb := 0x01020304#32, qc := 0x9b8d6f43#32, qd := 0x01234567#32
        busy := true, opc := .qr, phase := .qrt })
      (fun t => t.quad == ⟨0xea2a92f4#32, 0xcb1cf8ce#32, 0x4581472e#32, 0x5881c4bb#32⟩ && t.statusWord == 2#32) := by
  decide

/-- V-INIT: the LOAD step. -/
theorem test_init :
    nextIs (coreStep { loadedCore with busy := true, opc := .init, phase := .load, ctrCur := 1#32 })
      (fun t => t.wReg == #v[0x61707865#32, 0x3320646e#32, 0x79622d32#32, 0x6b206574#32, 0x03020100#32, 0x07060504#32,
        0x0b0a0908#32, 0x0f0e0d0c#32, 0x13121110#32, 0x17161514#32, 0x1b1a1918#32, 0x1f1e1d1c#32, 0x00000001#32,
        0x09000000#32, 0x4a000000#32, 0x00000000#32] && t.sReg == t.wReg && t.statusWord == 2#32) := by decide

/-- V-DR1: W after the column round, and after the double round. -/
theorem test_dround :
    mixGroups 4 (buildState keySeq nonce09 1#32) =
      #v[0xabbaa25c#32, 0x1efa51ea#32, 0x7354fbdf#32, 0x83d2dc69#32, 0x3a465196#32, 0x1c7e64f6#32, 0xb12fb628#32,
        0xf05b6976#32, 0x6b3ca454#32, 0x08eb14b1#32, 0xbf8a9ac9#32, 0xe444df3b#32, 0xdec62ed2#32, 0x8862cc77#32,
        0x6e35b345#32, 0x52a647f1#32] ∧
    doubleRound (buildState keySeq nonce09 1#32) =
      #v[0xcd52e917#32, 0x85ab03b4#32, 0xb3457395#32, 0xf96de7dd#32, 0xc4b7cd22#32, 0x5c2e187a#32, 0xc95eb461#32,
        0x316c801a#32, 0x7bf7d740#32, 0x7eddd644#32, 0xf1a1bdf5#32, 0x761246ca#32, 0x6b0d58a3#32, 0x6798471a#32,
        0xd737f167#32, 0xf173888d#32] := by decide +kernel

/-- R150: the eighth ROUND step of a DROUND completes it. -/
theorem test_dround_last_step :
    nextIs (coreStep { State.reset with busy := true, opc := .dround, phase := .round, qi := 7 })
      (fun t => t.statusWord == 2#32 && t.dr == 1 && t.qi == 0 && t.phase == .idle) := by decide +kernel

/-- V-FF2: word 3 drops its carry and word 4 does not see it. -/
theorem test_ffwd :
    nextIs (coreStep { State.reset with
        wReg := buildState keySeq nonce09 1#32, sReg := buildState keySeq nonce09 1#32
        busy := true, opc := .ffwd, phase := .ffwd })
      (fun t => t.wReg[3] == 0xd640cae8#32 && t.wReg[4] == 0x06040200#32 && t.statusWord == 2#32) := by decide

/-- V-BLK: the block function. -/
theorem test_block :
    blockFunction keySeq nonce09 1#32 =
      #v[0xe4e7f110#32, 0x15593bd1#32, 0x1fdd0f50#32, 0xc47120a3#32, 0xc7f4d1c7#32, 0x0368c033#32, 0x9aaa2204#32,
        0x4e6cd4c3#32, 0x466482d2#32, 0x09aa9f07#32, 0x05d7c214#32, 0xa2028bd9#32, 0xd19c12b5#32, 0xb94e16de#32,
        0xe883d0cb#32, 0x4e3c50a2#32] := by decide +kernel

/-- V-BLKWRAP: the counter wraps after the block of counter 0xFFFFFFFF. -/
theorem test_block_counter_wraps :
    nextIs (coreStep { loadedCore with
        busy := true, opc := .block, phase := .ffwd, counter := 0xFFFFFFFF#32, ctrCur := 0xFFFFFFFF#32 })
      (fun t => t.ctrCur == 0#32 && t.blocksDone == 1#32 && t.counter == 0xFFFFFFFF#32 && t.statusWord == 2#32) := by decide

/-! ### The XOR stage (2.5): V-L1, V-L3, V-SUN words 0 and 28 -/

/-- A core in the XOR step of a message of `len` bytes whose word 0 is `v`, with V-SUN's K(1)[0] in W[0]. -/
def xorCore (v : Word) (len : Word) : State :=
  { State.reset with
    wReg := (Vector.replicate 16 0#32).set 0 0xf3514f22#32, inBuf := Buffer.writeWord [] 0 v, msgLen := len
    busy := true, opc := .stream, phase := .xor, ctrCur := 1#32 }

/-- V-L1. -/
theorem test_stream_one_byte :
    nextIs (coreStep (xorCore 0xDEADBE4C#32 1#32))
      (fun t => t.outBuf == [(0, 0x6e#8), (1, 0#8), (2, 0#8), (3, 0#8)] && t.ctrCur == 2#32 && t.blocksDone == 1#32 &&
        t.statusWord == 2#32) := by decide +kernel

/-- V-L3, V-L4. -/
theorem test_stream_three_and_four_bytes :
    nextIs (coreStep (xorCore 0x00636261#32 3#32)) (fun t => t.outWord 0 == 0x00322d43#32) ∧
    nextIs (coreStep (xorCore 0x01020304#32 4#32)) (fun t => t.outWord 0 == 0xf2534c26#32) := by decide +kernel

/-- V-L0A, V-L0B, V-TOOBIG, with MSG_WORDS = 256. -/
theorem test_stream_checks :
    nextIs (execStreamAt 256 loadedCore) (fun t => t.phase == .fin && t.statusWord == 1#32 && t.ctrCur == 1#32) ∧
    nextIs (execStreamAt 256 { loadedCore with emptyErr := true }) (fun t => t.statusWord == 0x34#32) ∧
    nextIs (execStreamAt 256 { loadedCore with msgLen := 1025#32 }) (fun t => t.statusWord == 0x44#32) ∧
    nextIs (execStreamAt 256 { loadedCore with msgLen := 1024#32 }) (fun t => t.phase == .load) ∧
    nextIs (execStreamAt 256 { loadedCore with emptyErr := true, msgLen := 0xFFFFFFFF#32 })
      (fun t => t.statusWord == 0x44#32) := by decide

/-- R184. -/
theorem test_byte_mask :
    [1, 2, 3, 4].map byteMask = [0x000000FF#32, 0x0000FFFF#32, 0x00FFFFFF#32, 0xFFFFFFFF#32] := by decide

/-! ### Errors, STATUS and the input ports (2.6) -/

/-- V-E1, V-E3, V-E4. -/
theorem test_length_errors :
    nextIs (exec .block { loadedCore with keyCnt := 7#4 }) (fun t => t.statusWord == 0x14#32 && t.ldcntWord == 0x37#32) ∧
    nextIs (exec .init { loadedCore with nonceCnt := 2#4 }) (fun t => t.statusWord == 0x24#32) ∧
    nextIs (exec .stream State.reset) (fun t => t.statusWord == 0x14#32) := by decide

/-- V-E7, V-E8, V-E9: the CMD write itself, as the first step after reset. -/
theorem test_illegal_words :
    ([0x07, 0x100, 0xFF].all fun w =>
      nextIs (step (State.reset.withFetchWord 32 w)) (fun t => t.statusWord == 0x54#32)) = true := by decide

/-- V-E10, and NOP while busy. -/
theorem test_nop :
    nextIs (step (State.reset.withFetchWord 32 0x00)) (fun t => t.statusWord == 0#32) ∧
    nextIs (exec .nop blockCore) (fun t => t.statusWord == 1#32) := by decide

/-- V-E18. -/
theorem test_command_while_busy :
    nextIs (exec .add (aluCore .add 0#32 0#32)) (fun t => t.statusWord == 0x65#32 && t.phase == .alu) := by decide

/-- V-E6. -/
theorem test_key_clr :
    nextIs (exec .keyClr loadedCore)
      (fun t => t.statusWord == 0#32 && t.ldcntWord == 0x30#32 && t.key == Vector.replicate 8 0#32) := by decide

/-- V-E19. -/
theorem test_nonce_clr :
    nextIs (exec .nonceClr loadedCore)
      (fun t => t.statusWord == 0#32 && t.ldcntWord == 0x08#32 && t.nonce == Vector.replicate 3 0#32 &&
        t.key == keySeq) := by decide

/-- V-E2, V-E5: a ninth key word is not stored but counted, and the count saturates. -/
theorem test_push_saturates :
    (loadedCore.pushKey 0x99999999#32).key = keySeq ∧ (loadedCore.pushKey 0x99999999#32).ldcntWord = 0x39#32 ∧
    ({ loadedCore with keyCnt := 15#4 }.pushKey 0#32).keyCnt = 15#4 ∧
    (State.reset.pushKey 7#32).key[0] = 7#32 := by decide

/-- V-E14, V-E15, V-E16. -/
theorem test_status_write :
    ({ State.reset with done := true, err := true, wdrop := true, errCode := .commandWhileBusy }.writeStatus 4#32).statusWord
      = 0x0A#32 ∧
    ({ State.reset with done := true, wdrop := true }.writeStatus 0xA#32).statusWord = 0#32 ∧
    ({ State.reset with done := true }.writeStatus 0xFFFFFFF1#32).statusWord = 2#32 := by decide

/-- V-E12: a dropped write. -/
theorem test_dropped_write :
    nextIs (step (asked blockCore (.write 0x01C#14 .word 5#32))) (fun t => t.counter == 1#32 && t.statusWord == 9#32) := by
  decide

/-- R62, R63, R65: a hole of the map, a misaligned and a narrow access are bus errors. -/
theorem test_bus_errors :
    ([Access.read 0x02C#14 .word, .read 0x00E#14 .word, .read 0x00C#14 .byte, .write 0x03C#14 .word 1#32].all fun a =>
      nextIs (step (asked State.reset a)) (fun t => t.log == [⟨a, 0#32, true⟩] && t.statusWord == 0#32)) = true := by
  decide

/-- R64: how many of the 4096 word offsets are mapped with MSG_WORDS = 256: 18 registers, 16 words of W and two buffers;
the first words past a buffer are not. -/
theorem test_register_map :
    (targetOfOffset 256 0x13FC = some (.inBuf 255) ∧ targetOfOffset 256 0x1400 = none ∧
      targetOfOffset 256 0x23FC = some (.outBuf 255) ∧ targetOfOffset 256 0x2400 = none ∧
      targetOfOffset 256 0x0BC = some (.w 15) ∧ targetOfOffset 256 0x0C0 = none ∧ targetOfOffset 256 0x050 = none) ∧
    ((List.range 256).countP fun g => (targetOfOffset 256 (4 * g)).isSome) = 34 := by decide +kernel

/-- R210: DONE raises the level when enabled, WDROP alone does not. -/
theorem test_irq :
    { State.reset with irqEn := true, done := true }.irq = true ∧ { State.reset with done := true }.irq = false ∧
    { State.reset with irqEn := true, wdrop := true }.irq = false := by decide

/-- R14, R30: KEY-SEQ's first word from its bytes. -/
theorem test_little_endian : le 0x00#8 0x01#8 0x02#8 0x03#8 = 0x03020100#32 ∧
    bytesOf 0xe4e7f110#32 = [0x10#8, 0xf1#8, 0xe7#8, 0xe4#8] := by decide

/-- R93: `wait` and `loadnonce` expand as the table says; a register's name is its offset (P5, line 27). -/
theorem test_host_program_expansion :
    expandProgram [.loadnonce nonce09, .wait 0 1, .wrReg .msgLen 0x401#32] =
      some [.wr 0x008#32 0x00000021#32, .wr 0x014#32 0x09000000#32, .wr 0x014#32 0x4A000000#32, .wr 0x014#32 0#32,
        .label 0, .rd 0x00C#32 1, .bne 1 1#32 0#32 0, .wr 0x020#32 0x401#32] := by decide

/-- R93, 10_state.md section 3: the names W[3], IN[0] and OUT[255] stand for their offsets. -/
theorem test_host_program_indexed_names :
    expandProgram [.rdReg (.w 3) 0, .rdReg (.inBuf 0) 1, .wrReg (.inBuf 1) 7#32, .rdReg (.outBuf 255) 2] =
      some [.rd 0x08C#32 0, .rd 0x1000#32 1, .wr 0x1004#32 7#32, .rd 0x23FC#32 2] := by decide

/-- R93: an index past the window gives an OFF past the window, not an offset that wraps; an index whose OFF is no
32-bit literal gives no program. -/
theorem test_host_program_index :
    PseudoLine.expand (.ldin 0xC02 7#32) = some [.wr 0x4008#32 7#32] ∧
    PseudoLine.expand (.rdw 15 0) = some [.rd 0x0BC#32 0] ∧ PseudoLine.expand (.rdout 0x40000000 0) = none := by decide

/-- R92: a polling branch goes back to its label while BUSY reads 1, and on when it reads 0. -/
theorem test_host_program_branch :
    (match hostLineStep 256 ⟨[.label 0, .rd 0x00C#32 1, .bne 1 1#32 0#32 0], 2, [(1, 1#32)], []⟩ State.reset with
      | .next (h, _) => h.pos == 0
      | _ => false) = true ∧
    (match hostLineStep 256 ⟨[.label 0, .rd 0x00C#32 1, .bne 1 1#32 0#32 0], 2, [(1, 2#32)], []⟩ State.reset with
      | .next (h, _) => h.ended
      | _ => false) = true := by decide

/-- V-TOOBIG, V-MAX on the core of the vectors, MSG_WORDS = 256, by its own step: a STREAM of 1025 bytes is refused, one
of 1024 bytes is accepted. -/
theorem test_capacity_of_the_vectors :
    nextIs (stepAt 256 ({ loadedCore with msgLen := 1025#32 }.withFetchWord 32 3)) (fun t => t.statusWord == 0x44#32) ∧
    nextIs (stepAt 256 ({ loadedCore with msgLen := 1024#32 }.withFetchWord 32 3))
      (fun t => t.statusWord == 1#32 && t.phase == .load) ∧
    nextIs (stepAt 16 ({ loadedCore with msgLen := 65#32 }.withFetchWord 32 3)) (fun t => t.statusWord == 0x44#32) := by
  decide

/-- V-B5: IN word 256 is past the capacity; IN word 255 is not. -/
theorem test_capacity_of_the_buffers :
    nextIs (stepAt 256 (asked loadedCore (.write 0x1400#14 .word 1#32)))
      (fun t => t.log == [⟨.write 0x1400#14 .word 1#32, 0#32, true⟩] && t.inBuf == []) ∧
    nextIs (stepAt 256 (asked loadedCore (.write 0x13FC#14 .word 1#32)))
      (fun t => t.log == [⟨.write 0x13FC#14 .word 1#32, 0#32, false⟩] && t.inWord 255 == 1#32) := by decide +kernel

/-- R62, R63, R92: OFF 0x4008 is no CMD write but a bus error: the core is as it was, a read gives 0, and the Host is
told. OFF 0x008 is the CMD write. -/
theorem test_host_program_outside_the_window :
    hostLineStep 256 (HostRun.start [.wr 0x4008#32 0x20#32]) loadedCore =
      .next (⟨[.wr 0x4008#32 0x20#32], 1, [], [0x4008#32]⟩, loadedCore) ∧
    hostLineStep 256 (HostRun.start [.rd 0xFFFFFFFC#32 3]) loadedCore =
      .next (⟨[.rd 0xFFFFFFFC#32 3], 1, [(3, 0#32)], [0xFFFFFFFC#32]⟩, loadedCore) ∧
    (match hostLineStep 256 (HostRun.start [.wr 0x008#32 0x20#32]) loadedCore with
      | .next (h, t) => t.keyCnt == 0#4 && h.errors == []
      | _ => false) = true := ⟨rfl, rfl, by decide⟩

/-- R117: a program that issues ADD and ends at once ends while busy, so its end state is not defined; with the Core's
step before the Host's last line it is, and RES is exact. -/
theorem test_host_program_end :
    (match systemRun 256 [.host, .core] (HostRun.start [.wr 0x008#32 0x10#32]) { State.reset with opa := 2#32, opb := 3#32 } with
      | .next (h, t) => h.ended && !h.endDefined t && t.phase == .alu
      | _ => false) = true ∧
    (match systemRun 256 [.host, .core, .host] (HostRun.start [.wr 0x008#32 0x10#32, .rd 0x038#32 0])
        { State.reset with opa := 2#32, opb := 3#32 } with
      | .next (h, t) => h.endState 256 t == some t && h.var 0 == some 5#32
      | _ => false) = true := by decide +kernel

/-- U16: RES at the end of a run that ends while busy is a draw, the operand is kept. -/
theorem test_end_state_draws :
    (HostRun.start []).endState 256 (aluCore .add 2#32 3#32) = some ((aluCore .add 2#32 3#32).drawDatapath 256) ∧
    ((aluCore .add 2#32 3#32).drawDatapath 0).opa = 2#32 ∧
    ((aluCore .add 2#32 3#32).drawDatapath 0).res = Config.busyRead 32 := ⟨rfl, rfl, rfl⟩

/-! ### Witnesses: the hypotheses of every statement that has some are met together, each clause at a boundary -/

/-- An idle core and a busy one. -/
theorem idle_and_busy : loadedCore.busy = false ∧ loadedCore.quiet ∧ blockCore.busy = true :=
  ⟨rfl, ⟨rfl, rfl, rfl⟩, rfl⟩

/-- Any access can be next on an idle core and on a busy one. -/
theorem asked_next (a : Access) : (asked loadedCore a).accessNext a [] ∧ (asked blockCore a).accessNext a [] ∧
    (asked loadedCore a).busy = false ∧ (asked blockCore a).busy = true := ⟨⟨rfl, rfl⟩, ⟨rfl, rfl⟩, rfl, rfl⟩

theorem witness_DecodesExactlyTheOpcodes :
    ((0x00000010#32).extractLsb' 8 24 = 0#24 ∧ (0x00000010#32).extractLsb' 0 8 = (encode .add).extractLsb' 0 8) ∧
    ∀ j, ¬ ((0x00000007#32).extractLsb' 8 24 = 0#24 ∧
      (0x00000007#32).extractLsb' 0 8 = (encode j).extractLsb' 0 8) := by
  refine ⟨by decide, fun j => ?_⟩
  cases j <;> decide

theorem witness_DecodeInvertsEncode : Instr.wellFormed .rotl7 = true ∧ decode 0x00000015#32 = .ok .rotl7 :=
  ⟨rfl, rfl⟩

theorem witness_IllegalWordOnlyRecordsError :
    (∀ v, (asked loadedCore (commandWrite v)).accessNext (commandWrite v) []) ∧
    ((0x00000100#32).toNat / 256 ≠ 0 ∧ (0xFFFFFFFF#32).toNat / 256 ≠ 0) ∧
    (0x07 ≤ (0x00000007#32).toNat % 256 ∧ (0x0000000F#32).toNat % 256 ≤ 0x0F) ∧
    (0x16 ≤ (0x00000016#32).toNat % 256 ∧ (0x0000001F#32).toNat % 256 ≤ 0x1F) ∧
    (0x22 ≤ (0x00000022#32).toNat % 256 ∧ 0x22 ≤ (0x000000FF#32).toNat % 256) :=
  ⟨fun v => (asked_next _).1, by decide, by decide, by decide, by decide⟩

theorem witness_StepRunsTheDecodedCommand :
    decode 0x00000002#32 = .ok .block ∧
      (asked loadedCore (commandWrite 0x00000002#32)).accessNext (commandWrite 0x00000002#32) [] :=
  ⟨rfl, (asked_next _).1⟩

theorem witness_CoreStepsOnlyWhenBusy :
    ({ blockCore with turns := [.core] }.turns = .core :: [] ∧ blockCore.rstN = true ∧ blockCore.busy = true) ∧
    ({ loadedCore with turns := [.core] }.turns = .core :: [] ∧ loadedCore.busy = false) ∧
    ({ blockCore with rstN := false }.rstN = false) ∧ blockCore.turns = [] ∧ loadedCore.turns = [] :=
  ⟨⟨rfl, rfl, rfl⟩, ⟨rfl, rfl⟩, rfl, rfl, rfl⟩

theorem witness_KeyClearCommand : loadedCore.busy = false ∧ blockCore.busy = true := ⟨rfl, rfl⟩
theorem witness_NonceClearCommand : loadedCore.busy = false ∧ blockCore.busy = true := ⟨rfl, rfl⟩
theorem witness_AddCommand : loadedCore.busy = false ∧ loadedCore.quiet ∧ blockCore.busy = true := idle_and_busy
theorem witness_XorCommand : loadedCore.busy = false ∧ loadedCore.quiet ∧ blockCore.busy = true := idle_and_busy

theorem witness_RotateCommands :
    (loadedCore.busy = false ∧ loadedCore.quiet ∧ blockCore.busy = true) ∧
    ∀ c ∈ [Instr.rotl16, .rotl12, .rotl8, .rotl7], (encode c, c, 0#32) ∈
      [(0x00000012#32, Instr.rotl16, loadedCore.opa.extractLsb' 0 16 ++ loadedCore.opa.extractLsb' 16 16),
      (0x00000013#32, Instr.rotl12, loadedCore.opa.extractLsb' 0 20 ++ loadedCore.opa.extractLsb' 20 12),
      (0x00000014#32, Instr.rotl8, loadedCore.opa.extractLsb' 0 24 ++ loadedCore.opa.extractLsb' 24 8),
      (0x00000015#32, Instr.rotl7, loadedCore.opa.extractLsb' 0 25 ++ loadedCore.opa.extractLsb' 25 7)] := by
  refine ⟨idle_and_busy, fun c hc => ?_⟩
  revert c
  decide

theorem witness_RotationMovesBits : ∀ n ∈ [16, 12, 8, 7], n ∈ [16, 12, 8, 7] ∧ 0 < 32 ∧ 31 < 32 := by decide

theorem witness_RotationLaws :
    16 ∈ [16, 12, 8, 7] ∧ 7 ∈ [16, 12, 8, 7] ∧ rotl32 0x12345678#32 7 = rotl32 0x12345678#32 7 := by decide

theorem witness_QuarterRoundCommand :
    (loadedCore.busy = false ∧ loadedCore.quiet ∧ blockCore.busy = true) ∧
    ∃ a1 t1 d1 c1 t2 b1 a2 t3 d2 c2 t4 b2 : Word,
      a1 = loadedCore.qa + loadedCore.qb ∧ t1 = loadedCore.qd ^^^ a1 ∧ d1 = t1.rotateLeft 16 ∧
      c1 = loadedCore.qc + d1 ∧ t2 = loadedCore.qb ^^^ c1 ∧ b1 = t2.rotateLeft 12 ∧ a2 = a1 + b1 ∧
      t3 = d1 ^^^ a2 ∧ d2 = t3.rotateLeft 8 ∧ c2 = c1 + d2 ∧ t4 = b1 ^^^ c2 ∧ b2 = t4.rotateLeft 7 :=
  ⟨idle_and_busy, _, _, _, _, _, _, _, _, _, _, _, _, rfl, rfl, rfl, rfl, rfl, rfl, rfl, rfl, rfl, rfl, rfl, rfl⟩

theorem witness_QuarterRoundsOfARoundCommute :
    (0 : Fin 8).val / 4 = (3 : Fin 8).val / 4 ∧ (4 : Fin 8).val / 4 = (7 : Fin 8).val / 4 := by decide

theorem witness_DoubleRoundCommand : loadedCore.busy = false ∧ loadedCore.quiet ∧ blockCore.busy = true :=
  idle_and_busy

/-- Every row of the table is met, and every clause of the controller's advance at its boundaries. -/
theorem witness_RoundStepFollowsTheSchedule :
    ∀ s : State, s = { blockCore with phase := .round } →
      (s.phase = .round ∧ s.qi.val < 7) ∧ { s with qi := 6 }.qi.val < 7 ∧
      ({ s with qi := 7, opc := .dround }.qi.val = 7 ∧ { s with qi := 7, opc := .dround }.opc = .dround) ∧
      ({ s with qi := 7, dr := 9 }.opc ≠ .dround ∧ { s with qi := 7, dr := 9 }.dr + 1 = 10) ∧
      ({ s with qi := 7, dr := 8 }.opc ≠ .dround ∧ { s with qi := 7, dr := 8 }.dr + 1 ≠ 10) ∧
      ∀ i : Fin 8, ∃ p q r d : Fin 16, ({ s with qi := i }.qi.val, p, q, r, d) ∈
        [(0, 0, 4, 8, 12), (1, 1, 5, 9, 13), (2, 2, 6, 10, 14), (3, 3, 7, 11, 15),
         (4, 0, 5, 10, 15), (5, 1, 6, 11, 12), (6, 2, 7, 8, 13), (7, 3, 4, 9, 14)] := by
  rintro s rfl
  refine ⟨by decide, by decide, by decide, by decide, by decide, ?_⟩
  simp only [Fin.forall_fin_succ]
  exact ⟨⟨0, 4, 8, 12, by decide⟩, ⟨1, 5, 9, 13, by decide⟩, ⟨2, 6, 10, 14, by decide⟩, ⟨3, 7, 11, 15, by decide⟩,
    ⟨0, 5, 10, 15, by decide⟩, ⟨1, 6, 11, 12, by decide⟩, ⟨2, 7, 8, 13, by decide⟩, ⟨3, 4, 9, 14, by decide⟩, nofun⟩

theorem witness_InitCommand :
    (loadedCore.busy = false ∧ loadedCore.loaded ∧ loadedCore.quiet ∧ blockCore.busy = true) ∧
    (∀ k ∈ [7#4, 9#4], { loadedCore with keyCnt := k }.keyCnt ≠ 8#4) ∧
    (∀ n ∈ [2#4, 4#4], loadedCore.keyCnt = 8#4 ∧ { loadedCore with nonceCnt := n }.nonceCnt ≠ 3#4) :=
  ⟨⟨rfl, ⟨rfl, rfl⟩, ⟨rfl, rfl, rfl⟩, rfl⟩, by decide, by decide⟩

theorem witness_FeedForwardCommand : loadedCore.busy = false ∧ loadedCore.quiet ∧ blockCore.busy = true :=
  idle_and_busy

theorem witness_BlockCommand :
    (loadedCore.busy = false ∧ loadedCore.loaded ∧ loadedCore.quiet ∧ blockCore.busy = true) ∧
    (∀ k ∈ [7#4, 9#4], { loadedCore with keyCnt := k }.keyCnt ≠ 8#4) ∧
    (∀ n ∈ [2#4, 4#4], loadedCore.keyCnt = 8#4 ∧ { loadedCore with nonceCnt := n }.nonceCnt ≠ 3#4) :=
  witness_InitCommand

theorem witness_BlockTakesEightyTwoSteps : loadedCore.quiet ∧ loadedCore.loaded ∧ 0 ≤ 82 ∧ 82 ≤ 82 :=
  ⟨⟨rfl, rfl, rfl⟩, ⟨rfl, rfl⟩, by decide, by decide⟩

theorem witness_EmptyStream :
    loadedCore.quiet ∧ loadedCore.loaded ∧ loadedCore.msgLen = 0#32 ∧ loadedCore.emptyErr = false ∧
      { loadedCore with emptyErr := true }.emptyErr = true := ⟨⟨rfl, rfl, rfl⟩, ⟨rfl, rfl⟩, rfl, rfl, rfl⟩

theorem witness_ValidationErrors :
    Instr.stream ∈ [Instr.init, .block, .stream] ∧ blockCore.busy = true ∧ loadedCore.busy = false ∧
    { loadedCore with keyCnt := 7#4 }.keyCnt ≠ 8#4 ∧ { loadedCore with nonceCnt := 4#4 }.nonceCnt ≠ 3#4 ∧
    loadedCore.keyCnt = 8#4 ∧ loadedCore.loaded ∧
    { loadedCore with msgLen := 4097#32 }.msgLen.toNat > 4 * Config.msgWords ∧
    (loadedCore.msgLen = 0#32 ∧ { loadedCore with emptyErr := true }.emptyErr = true) := by
  refine ⟨by decide, rfl, rfl, by decide, by decide, rfl, ⟨rfl, rfl⟩, ?_, rfl, rfl⟩
  have := Config.msgWords_bounds
  show (4097#32).toNat > _
  simp
  omega

/-- `loadedCore` with a message of `len` bytes. -/
def messageCore (len : Nat) : State := { loadedCore with msgLen := BitVec.ofNat 32 len }

theorem messageCore_meets (len : Nat) (h0 : 0 < len) (hl : len ≤ 4 * Config.msgWords) :
    (messageCore len).quiet ∧ (messageCore len).loaded ∧ (messageCore len).outBuf.wf = true ∧
      len = (messageCore len).msgLen.toNat ∧ 0 < len ∧ len ≤ 4 * Config.msgWords := by
  refine ⟨⟨rfl, rfl, rfl⟩, ⟨rfl, rfl⟩, rfl, ?_, h0, hl⟩
  have := Config.msgWords_bounds
  show len = (BitVec.ofNat 32 len).toNat
  simp
  omega

/-- One byte, one short of a block, one block, and the longest message. -/
theorem witness_StreamComputesTheCipher :
    ∀ len ∈ [1, 63, 64, 4 * Config.msgWords], ∃ s : State, s.quiet ∧ s.loaded ∧ s.outBuf.wf = true ∧
      len = s.msgLen.toNat ∧ 0 < len ∧ len ≤ 4 * Config.msgWords := by
  have := Config.msgWords_bounds
  intro len h
  refine ⟨messageCore len, messageCore_meets len ?_ ?_⟩ <;>
  · simp only [List.mem_cons, List.not_mem_nil, or_false] at h
    omega

/-- The accepted STREAM of the message in IN. -/
def streamCore (s : State) : State := s.startDriver.accept .stream .load

/-- A STREAM before the last Core step of its next block. -/
def beforeXor (s : State) : State :=
  { s with
    sReg := buildState s.key s.nonce s.ctrCur, wReg := blockFunction s.key s.nonce s.ctrCur
    dr := 10, qi := 0, phase := .xor }

/-- A STREAM after the 83 Core steps of its next block. -/
def blockEnd (s : State) : State := xorStep (beforeXor s)

/-- A core with the one-byte message `b`. -/
def byteCore (b : Byte) : State := { messageCore 1 with inBuf := [(0, b), (1, 0#8), (2, 0#8), (3, 0#8)] }

theorem byteCore_completes (b : Byte) (c : Word) :
    { byteCore b with counter := c }.streamCompletes 1 (blockEnd (streamCore { byteCore b with counter := c })) := by
  have hw := Config.msgWords_bounds
  obtain ⟨he, hr⟩ := exec_stream_accepted (s := { byteCore b with counter := c }) ⟨rfl, rfl, rfl⟩ ⟨rfl, rfl⟩
    (show 0 < 1 by decide) (show 1 ≤ 4 * Config.msgWords by omega)
  exact ⟨⟨rfl, rfl, rfl⟩, ⟨rfl, rfl⟩, rfl, rfl, by decide, by omega, _, he, run_streamBlock hr rfl⟩

/-- 0x4c against keystream byte 0x10 (V-BLK) gives 0x5c. -/
theorem byteCore_output : (blockEnd (streamCore (byteCore 0x4c#8))).outByte 0 = 0x5c#8 := by decide +kernel

theorem witness_StreamBytes : ∃ (s t u : State) (len : Nat), s.quiet ∧ s.loaded ∧ s.outBuf.wf = true ∧
    len = s.msgLen.toNat ∧ 0 < len ∧ len ≤ 4 * Config.msgWords ∧ exec .stream s = .next t ∧
    runSteps (83 * blockCount len) t = .next u := by
  obtain ⟨h1, h2, h3, h4, h5, h6, t, h7, h8⟩ := byteCore_completes 0x4c#8 1#32
  exact ⟨_, t, _, 1, h1, h2, h3, h4, h5, h6, h7, h8⟩

theorem witness_StreamRoundTrip : ∃ (s t u s' t' u' : State) (len : Nat), s.quiet ∧ s.loaded ∧
    s.outBuf.wf = true ∧ len = s.msgLen.toNat ∧ 0 < len ∧ len ≤ 4 * Config.msgWords ∧ exec .stream s = .next t ∧
    runSteps (83 * blockCount len) t = .next u ∧ s'.quiet ∧ s'.loaded ∧ s'.outBuf.wf = true ∧ s'.key = s.key ∧
    s'.nonce = s.nonce ∧ s'.counter = s.counter ∧ s'.msgLen = s.msgLen ∧
    (∀ p, p < len → s'.inByte p = u.outByte p) ∧ exec .stream s' = .next t' ∧
    runSteps (83 * blockCount len) t' = .next u' := by
  obtain ⟨h1, h2, h3, h4, h5, h6, t, h7, h8⟩ := byteCore_completes 0x4c#8 1#32
  obtain ⟨g1, g2, g3, -, -, -, t', g7, g8⟩ := byteCore_completes 0x5c#8 1#32
  refine ⟨_, t, _, _, t', _, 1, h1, h2, h3, h4, h5, h6, h7, h8, g1, g2, g3, rfl, rfl, rfl, rfl, fun p hp => ?_, g7, g8⟩
  obtain rfl : p = 0 := by omega
  exact byteCore_output.symm

/-- A core with a message of one whole block and the byte `b` after it. -/
def longCore (b : Byte) : State := { messageCore 65 with inBuf := [(64, b), (65, 0#8), (66, 0#8), (67, 0#8)] }

theorem longCore_completes (b : Byte) (hw : 17 ≤ Config.msgWords) :
    (longCore b).streamCompletes 65 (blockEnd (blockEnd (streamCore (longCore b)))) := by
  obtain ⟨he, hr⟩ := exec_stream_accepted (s := longCore b) ⟨rfl, rfl, rfl⟩ ⟨rfl, rfl⟩ (show 0 < 65 by decide)
    (show 65 ≤ 4 * Config.msgWords by omega)
  refine ⟨⟨rfl, rfl, rfl⟩, ⟨rfl, rfl⟩, rfl, rfl, by decide, by omega, _, he, ?_⟩
  have h1 : runSteps 83 (streamCore (longCore b)) = .next (blockEnd (streamCore (longCore b))) := run_streamBlock hr rfl
  show runSteps (83 + 83) (streamCore (longCore b)) = _
  rw [run_add 83 83 h1]
  rcases xorStep_cases (beforeXor (streamCore (longCore b))) with ⟨h, _⟩ | ⟨_, e⟩
  · exact absurd (show 64 * (0 + 1) ≥ 65 from h) (by decide)
  · have hn : (blockEnd (streamCore (longCore b))).Running .load ∧ (blockEnd (streamCore (longCore b))).opc = .stream := by
      rw [blockEnd, e]
      exact ⟨⟨rfl, rfl, rfl, rfl⟩, rfl⟩
    exact run_streamBlock hn.1 hn.2

/-- A part at the start of a message; a part one block in, of a message of any length; and, where the buffers are
large enough for that message, both as STREAMs. -/
theorem witness_StreamInPartsGivesTheWholeOutput :
    (∃ (s' u' s u : State), s'.streamCompletes 1 u' ∧ s'.counter = 1#32 + BitVec.ofNat 32 0 ∧
      s.streamCompletes 1 u ∧ s.key = s'.key ∧ s.nonce = s'.nonce ∧ s.counter = 1#32 ∧ 64 * 0 + 1 ≤ 1 ∧
      ∀ p, p < 1 → s'.inByte p = s.inByte (64 * 0 + p)) ∧
    ∃ (s' u' : State), s'.streamCompletes 1 u' ∧ s'.counter = 1#32 + BitVec.ofNat 32 1 ∧
      (17 ≤ Config.msgWords → ∃ s u : State, s.streamCompletes 65 u ∧ s.key = s'.key ∧ s.nonce = s'.nonce ∧
        s.counter = 1#32 ∧ 64 * 1 + 1 ≤ 65 ∧ ∀ p, p < 1 → s'.inByte p = s.inByte (64 * 1 + p)) := by
  refine ⟨⟨_, _, _, _, byteCore_completes 0x4c#8 1#32, rfl, byteCore_completes 0x4c#8 1#32, rfl, rfl, rfl, by decide, ?_⟩,
    _, _, byteCore_completes 0x4c#8 2#32, rfl,
    fun hw => ⟨_, _, longCore_completes 0x4c#8 hw, rfl, rfl, rfl, by decide, ?_⟩⟩
  · intro p hp
    rw [Nat.mul_zero, Nat.zero_add]
  · intro p hp
    obtain rfl : p = 0 := by omega
    rfl

/-- Blocks 0 and 1 of a 65-byte message: all 16 words of the first, the last lane included; one word of the second. -/
theorem witness_XorStepWritesItsBlock :
    ∀ s : State, s = { loadedCore with phase := .xor, msgLen := 65#32 } →
      s.phase = .xor ∧ s.outBuf.wf = true ∧ 4 * (16 * s.blk + (15 : Fin 16).val) < s.msgLen.toNat ∧
      (0 ≤ 63 ∧ 64 * s.blk + 64 ≤ 64) ∧ 64 * (s.blk + 1) < s.msgLen.toNat ∧
      64 * ({ s with blk := 1 }.blk + 1) ≥ s.msgLen.toNat ∧ s.msgLen.toNat ≤ 4 * (68 / 4) ∧
      63 < 64 * { s with blk := 1 }.blk := by
  rintro s rfl
  decide

theorem witness_RaiseKeepsTheFirstError : loadedCore.err = false ∧ { loadedCore with err := true }.err = true :=
  ⟨rfl, rfl⟩

theorem witness_CommandWhileBusyIsDiscarded : Instr.keyClr ≠ .nop ∧ blockCore.busy = true := ⟨by decide, rfl⟩

theorem witness_StatusWriteClears : ∀ v, (asked blockCore (.write 0x00C#14 .word v)).accessNext
    (.write 0x00C#14 .word v) [] := fun _ => (asked_next _).2.1

theorem witness_StatusReadLayout : (asked blockCore (.read 0x00C#14 .word)).accessNext (.read 0x00C#14 .word) [] :=
  (asked_next _).2.1

theorem witness_InterruptLevel :
    (∃ t, (asked loadedCore (.write 0x00C#14 .word 6#32)).accessNext (.write 0x00C#14 .word 6#32) [] ∧
      (6#32).getLsbD 1 = true ∧ (6#32).getLsbD 2 = true ∧
      step (asked loadedCore (.write 0x00C#14 .word 6#32)) = .next t) ∧
    ∃ t, (asked loadedCore (.write 0x004#14 .word 1#32)).accessNext (.write 0x004#14 .word 1#32) [] ∧
      (1#32).getLsbD 1 = false ∧ step (asked loadedCore (.write 0x004#14 .word 1#32)) = .next t :=
  ⟨⟨_, (asked_next _).1, rfl, rfl, rfl⟩, _, (asked_next _).1, rfl, rfl⟩

theorem witness_CtrlReadsBackTwoBits :
    { blockCore with turns := [.host (.write 0x004#14 .word 3#32), .host (.read 0x004#14 .word)] }.rstN = true ∧
    { blockCore with turns := [.host (.write 0x004#14 .word 3#32), .host (.read 0x004#14 .word)] }.turns =
      [.host (.write 0x004#14 .word 3#32), .host (.read 0x004#14 .word)] := ⟨rfl, rfl⟩

/-- Counts at the ends of their ranges, the capacity and the saturated value included; busy; and the reads. -/
theorem witness_LoadPortsPushAndCount : ∀ (v : Word) (k : BitVec 4), k ∈ [0#4, 7#4, 8#4, 15#4] →
    ({ asked loadedCore (.write 0x010#14 .word v) with keyCnt := k }.busy = false ∧
      { asked loadedCore (.write 0x010#14 .word v) with keyCnt := k }.accessNext (.write 0x010#14 .word v) []) ∧
    { asked loadedCore (.write 0x014#14 .word v) with nonceCnt := k }.accessNext (.write 0x014#14 .word v) [] ∧
    (asked blockCore (.write 0x014#14 .word v)).accessNext (.write 0x014#14 .word v) [] ∧
    (asked blockCore (.write 0x014#14 .word v)).busy = true ∧
    (asked loadedCore (.read 0x010#14 .word)).accessNext (.read 0x010#14 .word) [] :=
  fun _ _ _ => ⟨⟨rfl, ⟨rfl, rfl⟩⟩, ⟨rfl, rfl⟩, ⟨rfl, rfl⟩, rfl, ⟨rfl, rfl⟩⟩

theorem witness_IdleWritesStore : ∀ off ∈ [0x01C#14, 0x020#14, 0x030#14, 0x034#14, 0x040#14, 0x044#14, 0x048#14, 0x04C#14],
    (asked loadedCore (.write off .word 7#32)).accessNext (.write off .word 7#32) [] ∧
      (asked loadedCore (.write off .word 7#32)).busy = false := fun _ _ => ⟨(asked_next _).1, rfl⟩

/-- The first and the last word of IN. -/
theorem witness_BusyWritesAreDropped :
    (∀ off v, (asked blockCore (.write off .word v)).accessNext (.write off .word v) [] ∧
      (asked blockCore (.write off .word v)).busy = true) ∧
    (0x04C#14 ∈ [0x010#14, 0x014#14, 0x01C#14, 0x020#14, 0x030#14, 0x034#14, 0x040#14, 0x044#14, 0x048#14, 0x04C#14]) ∧
    decode 0x00000020#32 = .ok .keyClr ∧
    ∀ off ∈ [0x1000#14, BitVec.ofNat 14 (0x1000 + 4 * (Config.msgWords - 1))],
      off.toNat % 4 = 0 ∧ 0x1000 ≤ off.toNat ∧ off.toNat < 0x1000 + 4 * Config.msgWords := by
  refine ⟨fun off v => ⟨(asked_next _).2.1, rfl⟩, by decide, rfl, ?_⟩
  have := Config.msgWords_bounds
  intro off h
  simp only [List.mem_cons, List.not_mem_nil, or_false] at h
  rcases h with rfl | rfl <;> refine ⟨?_, ?_, ?_⟩ <;> simp only [BitVec.toNat_ofNat] <;> omega

theorem witness_InWordWriteIsLittleEndian : ∀ g ∈ [0, Config.msgWords - 1], ∀ v : Word,
    (asked loadedCore (.write (BitVec.ofNat 14 (0x1000 + 4 * g)) .word v)).accessNext
      (.write (BitVec.ofNat 14 (0x1000 + 4 * g)) .word v) [] ∧
    (asked loadedCore (.write (BitVec.ofNat 14 (0x1000 + 4 * g)) .word v)).busy = false ∧ g < Config.msgWords ∧
    (asked loadedCore (.write (BitVec.ofNat 14 (0x1000 + 4 * g)) .word v)).inBuf.wf = true := by
  intro g hg v
  have := Config.msgWords_bounds
  refine ⟨(asked_next _).1, rfl, ?_, rfl⟩
  simp only [List.mem_cons, List.not_mem_nil, or_false] at hg
  omega

/-- Both kinds of access, and the ends of the W window and of OUT. -/
theorem witness_ReadOnlyAndWriteOnlyRegisters :
    (∀ off v, (asked blockCore (.write off .word v)).accessNext (.write off .word v) []) ∧
    (∀ off, (asked blockCore (.read off .word)).accessNext (.read off .word) []) ∧
    ((0x080#14).toNat % 4 = 0 ∧ 0x080 ≤ (0x080#14).toNat ∧ (0x0BC#14).toNat % 4 = 0 ∧ (0x0BC#14).toNat < 0x0C0) ∧
    ∀ off ∈ [0x2000#14, BitVec.ofNat 14 (0x2000 + 4 * (Config.msgWords - 1))],
      off.toNat % 4 = 0 ∧ 0x2000 ≤ off.toNat ∧ off.toNat < 0x2000 + 4 * Config.msgWords := by
  refine ⟨fun off v => (asked_next _).2.1, fun off => (asked_next _).2.1, by decide, ?_⟩
  have := Config.msgWords_bounds
  intro off h
  simp only [List.mem_cons, List.not_mem_nil, or_false] at h
  rcases h with rfl | rfl <;> refine ⟨?_, ?_, ?_⟩ <;> simp only [BitVec.toNat_ofNat] <;> omega

theorem witness_ExactReads :
    (∀ off, (asked blockCore (.read off .word)).accessNext (.read off .word) []) ∧ 0 < Config.msgWords ∧
      Config.msgWords - 1 < Config.msgWords := by
  have := Config.msgWords_bounds
  exact ⟨fun off => (asked_next _).2.1, by omega, by omega⟩

/-- Idle and busy, and the ends of the W window and of OUT. -/
theorem witness_DatapathReads :
    (∀ off, (asked loadedCore (.read off .word)).accessNext (.read off .word) [] ∧
      (asked blockCore (.read off .word)).accessNext (.read off .word) [] ∧
      (asked loadedCore (.read off .word)).busy = false ∧ (asked blockCore (.read off .word)).busy = true) ∧
    (0x080#14 = BitVec.ofNat 14 (0x080 + 4 * (0 : Fin 16).val)) ∧
    (0x0BC#14 = BitVec.ofNat 14 (0x080 + 4 * (15 : Fin 16).val)) ∧
    ∀ g ∈ [0, Config.msgWords - 1], g < Config.msgWords := by
  have := Config.msgWords_bounds
  refine ⟨fun off => asked_next _, by decide, by decide, fun g hg => ?_⟩
  simp only [List.mem_cons, List.not_mem_nil, or_false] at hg
  omega

/-- What makes an access legal, as the statement says it. -/
def legalAccess (a : Access) : Prop :=
  a.size = .word ∧ a.offset.toNat % 4 = 0 ∧
    (a.offset.toNat ≤ 0x028 ∨ (0x030 ≤ a.offset.toNat ∧ a.offset.toNat ≤ 0x038) ∨
      (0x040 ≤ a.offset.toNat ∧ a.offset.toNat ≤ 0x04C) ∨ (0x080 ≤ a.offset.toNat ∧ a.offset.toNat ≤ 0x0BC) ∨
      (0x1000 ≤ a.offset.toNat ∧ a.offset.toNat < 0x1000 + 4 * Config.msgWords) ∨
      (0x2000 ≤ a.offset.toNat ∧ a.offset.toNat < 0x2000 + 4 * Config.msgWords))

/-- Legal at the ends of the map's ranges, illegal just outside them, misaligned and narrow. -/
theorem witness_BusErrorExactlyWhenIllegal :
    (∀ a, (asked loadedCore a).accessNext a []) ∧
    (∀ off ∈ [0x000#14, 0x028#14, 0x030#14, 0x038#14, 0x040#14, 0x04C#14, 0x080#14, 0x0BC#14, 0x1000#14, 0x2000#14],
      legalAccess (.read off .word)) ∧
    (∀ off ∈ [0x02C#14, 0x03C#14, 0x050#14, 0x07C#14, 0x0C0#14, 0x0FFC#14, 0x3000#14, 0x3FFC#14, 0x00D#14],
      ¬ legalAccess (.write off .word 0#32)) ∧ ¬ legalAccess (.read 0x00C#14 .half) := by
  have := Config.msgWords_bounds
  refine ⟨fun a => (asked_next a).1, ?_, ?_, ?_⟩ <;>
  · simp only [legalAccess, Access.size, Access.offset, List.mem_cons, List.not_mem_nil, or_false,
      forall_eq_or_imp, forall_eq, BitVec.toNat_ofNat]
    simp
    try omega

theorem witness_ReadsChangeNoState : (asked blockCore (.read 0x3FFF#14 .byte)).turns =
    .host (.read 0x3FFF#14 .byte) :: [] := rfl

theorem witness_KeyAndNonceAreWriteOnly : ∃ s s' t t' : State, s.turns = [.host (.read 0x018#14 .word)] ∧
    s' = { s with key := s'.key, nonce := s'.nonce } ∧ s'.key ≠ s.key ∧ step s = .next t ∧ step s' = .next t' :=
  ⟨asked loadedCore (.read 0x018#14 .word), asked { loadedCore with key := State.reset.key } (.read 0x018#14 .word),
    _, _, rfl, rfl, by decide, rfl, rfl⟩

theorem witness_ResetPinGivesResetState :
    { blockCore with turns := [.rstPin false, .rstPin true] }.turns = [.rstPin false, .rstPin true] := rfl

theorem witness_NothingHappensInReset :
    { loadedCore with rstN := false }.rstN = false ∧
    { loadedCore with rstN := false, turns := [.host (commandWrite 2#32)] }.turns = [.host (commandWrite 2#32)] ∧
    { loadedCore with rstN := false, turns := [.core] }.turns = [.core] := ⟨rfl, rfl, rfl⟩

/-- A running core meets both invariants. -/
theorem blockCore_inv (ts : List Turn) :
    { blockCore with turns := ts }.Inv ∧ { blockCore with turns := ts }.DatapathInv := by
  constructor
  · exact ⟨⟨fun _ => rfl, fun _ => rfl⟩, ⟨fun _ h => Phase.noConfusion h, fun _ => rfl⟩, fun _ => rfl,
      fun h => Bool.noConfusion h, .inr (.inl rfl), Nat.zero_le _, Nat.zero_le _, Nat.zero_le _, ⟨rfl, rfl⟩, rfl, rfl⟩
  · constructor <;> simp [blockCore, loadedCore]

theorem witness_StepKeepsInvariant : ∃ t, blockCore.Inv ∧ step blockCore = .next t :=
  ⟨_, (blockCore_inv []).1, rfl⟩

theorem witness_StepKeepsDatapathInvariant : ∃ t, blockCore.Inv ∧ blockCore.DatapathInv ∧ step blockCore = .next t :=
  ⟨_, (blockCore_inv []).1, (blockCore_inv []).2, rfl⟩

theorem witness_StepNeverStops : blockCore.Inv := (blockCore_inv []).1

theorem witness_HostCannotDisturbARunningCommand : ∀ a, (asked blockCore a).Inv ∧
    (asked blockCore a).accessNext a [] ∧ (asked blockCore a).busy = true :=
  fun a => ⟨(blockCore_inv _).1, (asked_next a).2.1, rfl⟩

/-- A BLOCK with a polling read and a dropped write around a Core turn. -/
theorem witness_ResultsDoNotDependOnTheSchedule : ∃ (s u : State) (ts : List Turn), s.Inv ∧ s.rstN = true ∧
    s.busy = true ∧ (∀ t ∈ ts, t.notReset = true) ∧
    (∀ k, k ≤ coreTurns ts → ∃ v, runSteps k { s with turns := [] } = .next v ∧ v.busy = true) ∧
    runSteps (coreTurns ts + 1) { s with turns := [] } = .next u ∧ 2 < ts.length := by
  refine ⟨blockCore, _, [.host (.read 0x00C#14 .word), .core, .host (.write 0x01C#14 .word 5#32)],
    (blockCore_inv []).1, rfl, rfl, by decide, ?_, rfl, by decide⟩
  intro k hk
  have : k = 0 ∨ k = 1 := by
    have h : coreTurns [.host (.read 0x00C#14 .word), .core, .host (.write 0x01C#14 .word 5#32)] = 1 := by decide
    omega
  rcases this with rfl | rfl
  · exact ⟨_, rfl, rfl⟩
  · exact ⟨_, rfl, rfl⟩

theorem witness_CommandIssueFrame : ∃ t, exec .block loadedCore = .next t := ⟨_, rfl⟩

theorem witness_CoreStepFrame : ∃ t, coreStep blockCore = .next t ∧ blockCore.outBuf.wf = true := ⟨_, rfl, rfl⟩

end Sys2Proof.Tests
end

section
/-! PROOFS. The family 10_state: the invariant of flags, controller, counts and buffers, the registers as the Host sees
them, and what a Core step can change. -/

namespace Sys2Proof.Machine

/-! ### Issuing a command, said once for all commands (R110 to R116) -/

/-- R111: the first check a command fails, if any; only INIT, BLOCK and STREAM have checks. -/
def State.checkCommand (s : State) : Instr → Option ErrorCode
  | .init | .block => s.checkKeyNonce
  | .stream => s.checkKeyNonce.or (s.checkMessage Config.msgWords)
  | _ => none

/-- R112, R115, R116: what a command leaves on an idle core that it passes its checks on. -/
def State.issued (s : State) : Instr → State
  | .nop => s
  | .init => s.startDriver.accept .init .load
  | .block => s.startDriver.accept .block .load
  | .stream => s.startDriver.accept .stream (if s.msgLen = 0#32 then .fin else .load)
  | .dround => s.startRounds.accept .dround .round
  | .ffwd => s.accept .ffwd .ffwd
  | .qr => s.accept .qr .qrt
  | .add => s.accept .add .alu
  | .xor => s.accept .xor .alu
  | .rotl16 => s.accept .rotl16 .alu
  | .rotl12 => s.accept .rotl12 .alu
  | .rotl8 => s.accept .rotl8 .alu
  | .rotl7 => s.accept .rotl7 .alu
  | .keyClr => s.clearKey
  | .nonceClr => s.clearNonce

/-- R110: every command but NOP is refused, rejected or carried out in the one way `issueCompute` says. -/
theorem exec_eq_issueCompute {i : Instr} (h : i ≠ .nop) (s : State) :
    exec i s = .next (issueCompute (s.checkCommand i) (s.issued i) s) := by
  cases i with
  | nop => exact absurd rfl h
  | _ => rfl

/-- R111: a failed check never records NONE. -/
theorem State.checkCommand_ne_none {s : State} {i : Instr} {e : ErrorCode} (h : s.checkCommand i = some e) :
    e ≠ .none := by
  have hkn : ∀ e, s.checkKeyNonce = some e → e ≠ .none := by
    intro e he
    rcases s.checkKeyNonce_cases with ⟨-, hk⟩ | ⟨-, -, hk⟩ | ⟨-, hk⟩ <;> rw [hk] at he <;> cases he <;> decide
  have hm : ∀ e, s.checkMessage Config.msgWords = some e → e ≠ .none := by
    intro e he
    rcases s.checkMessage_cases Config.msgWords with ⟨-, hk⟩ | ⟨-, -, hk⟩ | ⟨-, -, hk⟩ <;> rw [hk] at he <;>
      cases he <;> decide
  cases i with
  | init => exact hkn e h
  | block => exact hkn e h
  | stream =>
    rcases Option.or_eq_some_iff.mp h with h | ⟨-, h⟩
    · exact hkn e h
    · exact hm e h
  | _ => cases h

/-- R110: issuing a command does nothing, records an error, or has the command's whole effect on an idle core. -/
theorem exec_cases {i : Instr} {s t : State} (h : exec i s = .next t) :
    t = s ∨ (∃ e, e ≠ .none ∧ t = s.raise e) ∨ (s.busy = false ∧ s.checkCommand i = none ∧ t = s.issued i) := by
  by_cases hn : i = .nop
  · subst hn
    cases h
    exact .inl rfl
  · rw [exec_eq_issueCompute hn] at h
    cases h
    rcases issueCompute_cases (s.checkCommand i) (s.issued i) s with ⟨-, h⟩ | ⟨-, e, he, h⟩ | ⟨hb, hc, h⟩ <;> rw [h]
    · exact .inr (.inl ⟨_, by decide, rfl⟩)
    · exact .inr (.inl ⟨e, State.checkCommand_ne_none he, rfl⟩)
    · exact .inr (.inr ⟨hb, hc, rfl⟩)

/-- R27, R110: what a CMD write can leave. -/
theorem writeCmd_cases {v : Word} {s t : State} (h : writeCmd Config.msgWords v s = .next t) :
    t = s ∨ (∃ e, e ≠ .none ∧ t = s.raise e) ∨
      (s.busy = false ∧ ∃ i, s.checkCommand i = none ∧ t = s.issued i) := by
  cases hd : decode v with
  | ok i =>
    rw [writeCmd_decoded hd] at h
    rcases exec_cases h with h | h | ⟨hb, hc, h⟩
    · exact .inl h
    · exact .inr (.inl h)
    · exact .inr (.inr ⟨hb, i, hc, h⟩)
  | error r =>
    simp only [writeCmd, hd] at h
    cases h
    exact .inr (.inl ⟨_, by decide, rfl⟩)

/-- R60 to R63, R226: a bus access is an error, a read that answers, or a write that its target carries out. -/
theorem busAccess_cases {mw : Nat} {a : Access} {s t : State} (h : busAccess mw a s = .next t) :
    ((s.rstN = false ∨ targetOfAccess mw a = none) ∧ t = s.busError a) ∨
    (∃ off n tg, a = .read off n ∧ s.rstN = true ∧ targetOfAccess mw a = some tg ∧
      t = (readTarget tg s).2.respond a (readTarget tg s).1 false) ∨
    (∃ off n v tg, a = .write off n v ∧ s.rstN = true ∧ targetOfAccess mw a = some tg ∧
      writeTarget mw tg v (s.respond a 0#32 false) = .next t) := by
  cases hr : s.rstN
  · rw [busAccess_in_reset hr] at h
    exact .inl ⟨.inl rfl, (Host.Outcome.next.inj h).symm⟩
  · cases htg : targetOfAccess mw a with
    | none =>
      rw [busAccess_illegal htg] at h
      exact .inl ⟨.inr rfl, (Host.Outcome.next.inj h).symm⟩
    | some tg =>
      cases a with
      | read off n =>
        rw [busAccess_read hr htg] at h
        exact .inr (.inl ⟨off, n, tg, rfl, rfl, rfl, (Host.Outcome.next.inj h).symm⟩)
      | write off n v =>
        rw [busAccess_write hr htg] at h
        exact .inr (.inr ⟨off, n, v, tg, rfl, rfl, rfl, h⟩)

/-! ### The invariant under the state's operations -/

/-- R48: in PHASE IDLE the controller's registers are free. -/
theorem State.controllerInv.of_idle {s : State} (h : s.phase = .idle) : s.controllerInv := by
  simp only [controllerInv, h]

/-- R150, R153: what the controller has to say in PHASE ROUND. -/
theorem State.controllerInv.of_round {s : State} (h : s.phase = .round)
    (hc : (s.opc = .dround ∧ s.dr = 0) ∨ ((s.opc = .block ∨ s.streamRunning) ∧ s.dr < 10)) : s.controllerInv := by
  simpa only [controllerInv, h] using hc

namespace State.Inv

theorem phase_idle {s : State} (h : s.Inv) (hb : s.busy = false) : s.phase = .idle := by
  by_contra hp
  exact Bool.false_ne_true (hb.symm.trans (h.busy_iff.mpr hp))

theorem withTurns {s : State} (h : s.Inv) (ts : List Turn) : (s.withTurns ts).Inv := { h with }

theorem respond {s : State} (h : s.Inv) (a : Access) (d : Word) (e : Bool) : (s.respond a d e).Inv := { h with }

theorem raise {s : State} (h : s.Inv) {e : ErrorCode} (he : e ≠ .none) : (s.raise e).Inv :=
  { h with errCode_none_iff := by cases hs : s.err <;> simp [h.errCode_none_iff, hs, he] }

theorem writeCtrl {s : State} (h : s.Inv) (v : Word) : (s.writeCtrl v).Inv := { h with }

theorem writeStatus {s : State} (h : s.Inv) (v : Word) : (s.writeStatus v).Inv :=
  { h with
    errCode_none_iff := by
      rw [writeStatus_errCode, writeStatus_err]
      cases v.getLsbD 2 <;> simp [h.errCode_none_iff]
    not_done_of_busy := fun hb => by simp [h.not_done_of_busy hb] }

/-- R47: an input write keeps the invariant when its effect on an idle core does. -/
theorem writeInput {s u : State} (h : s.Inv) (hu : s.busy = false → u.Inv) : (s.writeInput u).Inv := by
  cases hb : s.busy
  · rw [writeInput_idle _ hb]
    exact hu hb
  · rw [writeInput_busy _ hb]
    exact { h with }

theorem setInWord {s : State} (h : s.Inv) {g : Nat} (hg : g < Config.msgWords) (v : Word) : (s.setInWord g v).Inv :=
  { h with
    inBuf_wf := ⟨Buffer.wf_writeWord _ _ _ h.inBuf_wf.1, Buffer.within_writeWord _ _ _ _ hg h.inBuf_wf.2⟩ }

/-- R112: the driver's start on an idle core. -/
theorem startDriver {s : State} (h : s.Inv) (hb : s.busy = false) : s.startDriver.Inv :=
  { h with
    controller := controllerInv.of_idle (h.phase_idle hb)
    blk_le := Nat.zero_le _
    blocksDone_le := Nat.zero_le _ }

theorem startRounds {s : State} (h : s.Inv) (hb : s.busy = false) : s.startRounds.Inv :=
  { h with controller := controllerInv.of_idle (h.phase_idle hb), dr_le := Nat.zero_le _ }

/-- R112: acceptance keeps the invariant when the command and its PHASE go together. -/
theorem accept {s : State} (h : s.Inv) (hr : s.rstN = true) {c : Instr} {p : Phase} (hp : p ≠ .idle)
    (hc : (s.accept c p).controllerInv) : (s.accept c p).Inv :=
  { h with
    busy_iff := ⟨fun _ => hp, fun _ => rfl⟩
    not_done_of_busy := fun _ => rfl
    not_busy_in_reset := fun hn => absurd (hr.symm.trans hn) (by decide)
    controller := hc }

/-- R28, R48: of a core at rest the invariant asks only that its counts and buffers are in range. -/
theorem of_idle {s : State} (hb : s.busy = false) (hp : s.phase = .idle) (herr : s.errCode = .none ↔ s.err = false)
    (hdr : s.dr ≤ 10) (hblk : s.blk ≤ 64)
    (hdone : s.blocksDone.toNat ≤ blockCount (Config.maxLen Config.msgWords))
    (hin : s.inBuf.wf = true ∧ s.inBuf.within Config.msgWords = true)
    (hout : s.outBuf.wf = true ∧ s.outBuf.within Config.msgWords = true) : s.Inv where
  errCode_none_iff := herr
  busy_iff := by simp [hb, hp]
  not_done_of_busy := by simp [hb]
  not_busy_in_reset := fun _ => hb
  controller := controllerInv.of_idle hp
  dr_le := hdr
  blk_le := hblk
  blocksDone_le := hdone
  inBuf_wf := hin
  outBuf_wf := hout

/-- R113: a core that meets the invariant still does when it completes. -/
theorem complete {s : State} (h : s.Inv) : s.complete.Inv :=
  of_idle rfl rfl h.errCode_none_iff h.dr_le h.blk_le h.blocksDone_le h.inBuf_wf h.outBuf_wf

theorem setQuad {s : State} (h : s.Inv) (q : Quad) : (s.setQuad q).Inv := { h with }

/-- R51: the state right after reset. -/
theorem reset : State.reset.Inv :=
  of_idle rfl rfl (by decide) (by decide) (by decide) (Nat.zero_le _) ⟨rfl, rfl⟩ ⟨rfl, rfl⟩

/-- R226, R227: a reset core meets the invariant whatever it did before. -/
theorem resetTo (s : State) (level : Bool) : (s.resetTo level).Inv := { reset with not_busy_in_reset := fun _ => rfl }

end State.Inv

/-! ### The invariant under each agent's step -/

/-- R112, R115, R116: a command that an idle core accepts keeps the invariant. -/
theorem State.Inv.issued {s : State} (h : s.Inv) (hr : s.rstN = true) (hb : s.busy = false) {i : Instr}
    (hc : s.checkCommand i = none) : (s.issued i).Inv := by
  cases i with
  | nop => exact h
  | init => exact (h.startDriver hb).accept hr (by decide) (.inl rfl)
  | block => exact (h.startDriver hb).accept hr (by decide) (.inr (.inl rfl))
  | stream =>
    have hlen : s.msgLen.toNat ≤ Config.maxLen Config.msgWords := by
      rcases s.checkMessage_cases Config.msgWords with ⟨-, hm⟩ | ⟨-, -, hm⟩ | ⟨hl, -, -⟩
      · simp [State.checkCommand, hm] at hc
      · simp [State.checkCommand, hm] at hc
      · exact hl
    by_cases h0 : s.msgLen = 0#32
    · simp only [State.issued, h0, if_true]
      exact (h.startDriver hb).accept hr (by decide) ⟨rfl, h0⟩
    · have hpos : 0 < s.msgLen.toNat := by bv_omega
      simp only [State.issued, h0, if_false]
      exact (h.startDriver hb).accept hr (by decide) (.inr (.inr ⟨rfl, hlen, hpos, rfl⟩))
  | dround => exact (h.startRounds hb).accept hr (by decide) (.inl ⟨rfl, rfl⟩)
  | ffwd => exact h.accept hr (by decide) (.inl rfl)
  | qr => exact h.accept hr (by decide) rfl
  | keyClr => exact { h with }
  | nonceClr => exact { h with }
  | _ => exact h.accept hr (by decide) (by simp [State.controllerInv, isArithmetic])

theorem writeCmd_keeps_inv {v : Word} {s t : State} (h : s.Inv) (hr : s.rstN = true)
    (ht : writeCmd Config.msgWords v s = .next t) : t.Inv := by
  rcases writeCmd_cases ht with rfl | ⟨e, he, rfl⟩ | ⟨hb, i, hc, rfl⟩
  · exact h
  · exact h.raise he
  · exact h.issued hr hb hc

/-- R25 to R47: a legal write keeps the invariant. -/
theorem writeTarget_keeps_inv {tg : Target} {v : Word} {s t : State} (h : s.Inv) (hr : s.rstN = true)
    (hg : ∀ g, tg = .inBuf g → g < Config.msgWords) (ht : writeTarget Config.msgWords tg v s = .next t) : t.Inv := by
  cases tg with
  | cmd => exact writeCmd_keeps_inv h hr ht
  | ctrl => cases ht; exact h.writeCtrl v
  | status => cases ht; exact h.writeStatus v
  | inBuf g => cases ht; exact h.writeInput fun _ => h.setInWord (hg g rfl) v
  | msgLen =>
    cases ht
    exact h.writeInput fun hb => { h with controller := State.controllerInv.of_idle (h.phase_idle hb) }
  | keyIn | nonceIn | counter | opa | opb | qa | qb | qc | qd => cases ht; exact h.writeInput fun _ => { h with }
  | _ => cases ht; exact h

/-- R64: an IN word that an offset names lies in the buffer. -/
theorem lt_of_targetOfOffset_inBuf {mw off g : Nat} (h : targetOfOffset mw off = some (.inBuf g)) : g < mw := by
  rcases Option.or_eq_some_iff.mp h with hreg | ⟨-, h⟩
  · obtain ⟨l₁, l₂, hl, -⟩ := List.lookup_eq_some_iff.mp hreg
    have hmem : (off, Target.inBuf g) ∈ registerTable := hl ▸ List.mem_append_right l₁ List.mem_cons_self
    simp [registerTable] at hmem
  · rcases Option.or_eq_some_iff.mp h with hwin | ⟨-, hbuf⟩
    · simp [windowTarget] at hwin
    · simp only [bufferTarget] at hbuf
      split at hbuf
      · cases hbuf
      · split at hbuf
        · cases hbuf
          omega
        · split at hbuf <;> cases hbuf

/-- R60 to R72: a bus access keeps the invariant. -/
theorem busAccess_keeps_inv {a : Access} {s t : State} (h : s.Inv) (ht : busAccess Config.msgWords a s = .next t) :
    t.Inv := by
  rcases busAccess_cases ht with ⟨-, rfl⟩ | ⟨off, n, tg, -, -, -, rfl⟩ | ⟨off, n, v, tg, rfl, hr, htg, hw⟩
  · exact h.respond _ _ _
  · rw [readTarget_state]
    exact { h with }
  · refine writeTarget_keeps_inv (h.respond _ _ _) hr (fun g hg => ?_) hw
    subst hg
    unfold targetOfAccess at htg
    split at htg
    · exact lt_of_targetOfOffset_inBuf htg
    · cases htg

/-- R164: PHASE LOAD hands a BLOCK or STREAM on to PHASE ROUND with its counters at 0. -/
theorem loadStep_keeps_inv {s : State} (h : s.Inv) (hp : s.phase = .load) : (loadStep s).Inv := by
  have hc := h.controller
  simp only [State.controllerInv, hp] at hc
  rcases loadStep_cases s with ⟨-, ht⟩ | ⟨ho, ht⟩ <;> rw [ht]
  · exact .of_idle rfl rfl h.errCode_none_iff (Nat.zero_le _) h.blk_le h.blocksDone_le h.inBuf_wf h.outBuf_wf
  · exact { h with
      busy_iff := by simp [h.busy_iff, hp]
      controller := .inr ⟨hc.resolve_left ho, Nat.zero_lt_succ _⟩
      dr_le := Nat.zero_le _ }

/-- R150: DR counts the double rounds of a block up to 10, or the one of DROUND. -/
theorem roundStep_keeps_inv {s : State} (h : s.Inv) (hp : s.phase = .round) : (roundStep s).Inv := by
  have hc := h.controller
  simp only [State.controllerInv, hp] at hc
  rcases roundStep_cases s with ⟨-, ht, -⟩ | ⟨-, ho, ht⟩ | ⟨-, ho, hd, ht⟩ | ⟨-, ho, hd, ht⟩ <;> rw [ht]
  · exact { h with controller := .of_round hp hc }
  · have hdr : s.dr + 1 ≤ 10 := by
      rcases hc with ⟨-, hd⟩ | ⟨-, hd⟩ <;> omega
    exact .of_idle rfl rfl h.errCode_none_iff hdr h.blk_le h.blocksDone_le h.inBuf_wf h.outBuf_wf
  · obtain ⟨hs, hlt⟩ := hc.resolve_left fun hd => ho hd.1
    exact { h with
      busy_iff := by simp [h.busy_iff, hp]
      controller := .inr ⟨hs, hd, rfl⟩
      dr_le := hlt }
  · obtain ⟨hs, hlt⟩ := hc.resolve_left fun hd => ho hd.1
    have hlt' : s.dr + 1 < 10 := by omega
    exact { h with
      controller := .of_round hp (.inr ⟨hs, hlt'⟩)
      dr_le := hlt }

/-- R8, R38: the capacity is at least one block. -/
theorem blockCount_maxLen_pos : 1 ≤ blockCount (Config.maxLen Config.msgWords) := by
  have := Config.msgWords_bounds
  simp only [blockCount, Config.maxLen]
  omega

/-- R167: a FFWD step of BLOCK counts one block; of STREAM it hands on to PHASE XOR. -/
theorem ffwdStep_keeps_inv {s t : State} (h : s.Inv) (hp : s.phase = .ffwd) (ht : ffwdStep s = .next t) : t.Inv := by
  have hc := h.controller
  simp only [State.controllerInv, hp] at hc
  rcases ffwdStep_cases s with ⟨-, hf⟩ | ⟨-, hf⟩ | ⟨ho, hf⟩ | ⟨-, -, -, hf⟩ <;> rw [hf] at ht <;> cases ht
  · exact .of_idle rfl rfl h.errCode_none_iff h.dr_le h.blk_le h.blocksDone_le h.inBuf_wf h.outBuf_wf
  · exact .of_idle rfl rfl h.errCode_none_iff h.dr_le h.blk_le blockCount_maxLen_pos h.inBuf_wf h.outBuf_wf
  · rw [ho] at hc
    obtain ⟨hs, hd⟩ := hc.resolve_left (by decide)
    exact { h with
      busy_iff := by simp [h.busy_iff, hp]
      controller := ⟨hs.resolve_left (by decide), hd⟩ }

/-- R186, R187: an XOR step writes inside OUT and counts its block. -/
theorem xorStep_keeps_inv {s : State} (h : s.Inv) (hp : s.phase = .xor) : (xorStep s).Inv := by
  have hc := h.controller
  simp only [State.controllerInv, hp] at hc
  obtain ⟨⟨ho, hlen, hlt, -⟩, -⟩ := hc
  have hout : s.xorBlock.outBuf.wf = true ∧ s.xorBlock.outBuf.within Config.msgWords = true :=
    ⟨s.xorBlock_wf h.outBuf_wf.1, s.xorBlock_within _ hlen h.outBuf_wf.2⟩
  have hcap : Config.maxLen Config.msgWords ≤ 4096 := by
    have := Config.msgWords_bounds
    simp only [Config.maxLen]
    omega
  have hblk : s.blk + 1 ≤ 64 := by omega
  have hdone : (BitVec.ofNat 32 (s.blk + 1)).toNat ≤ blockCount (Config.maxLen Config.msgWords) := by
    rw [BitVec.toNat_ofNat, Nat.mod_eq_of_lt (by omega), blockCount]
    omega
  have hcases := xorStep_cases s
  generalize s.xorBlock.outBuf = out at hout hcases
  rcases hcases with ⟨-, ht⟩ | ⟨hmore, ht⟩ <;> rw [ht]
  · exact .of_idle rfl rfl h.errCode_none_iff h.dr_le hblk hdone h.inBuf_wf hout
  · exact { h with
      busy_iff := by simp [h.busy_iff, hp]
      controller := .inr (.inr ⟨ho, hlen, hmore, rfl⟩)
      blk_le := hblk
      blocksDone_le := hdone
      outBuf_wf := hout }

/-- R109: a Core step keeps the invariant in every PHASE. -/
theorem coreStep_keeps_inv {s t : State} (h : s.Inv) (ht : coreStep s = .next t) : t.Inv := by
  cases hp : s.phase <;> simp only [coreStep, hp] at ht
  case idle => exact Host.Outcome.next.inj ht ▸ h
  case alu =>
    rcases aluStep_cases s with ⟨r, -, -, ha⟩ | ⟨-, ha⟩ <;> rw [ha] at ht <;> cases ht
    exact State.Inv.complete (s := { s with res := r }) { h with }
  case qrt => exact Host.Outcome.next.inj ht ▸ (h.setQuad _).complete
  case load => exact Host.Outcome.next.inj ht ▸ loadStep_keeps_inv h hp
  case round => exact Host.Outcome.next.inj ht ▸ roundStep_keeps_inv h hp
  case ffwd => exact ffwdStep_keeps_inv h hp ht
  case xor => exact Host.Outcome.next.inj ht ▸ xorStep_keeps_inv h hp
  case fin => exact Host.Outcome.next.inj ht ▸ h.complete

theorem coreTurn_keeps_inv {s t : State} (h : s.Inv) (ht : coreTurn s = .next t) : t.Inv := by
  unfold coreTurn at ht
  split at ht
  · exact coreStep_keeps_inv h ht
  · cases ht
    exact h

theorem resetPinTurn_keeps_inv {s : State} (h : s.Inv) (level : Bool) : (resetPinTurn level s).Inv := by
  unfold resetPinTurn
  split
  · exact h
  · exact .resetTo s level

/-- Settles O54: a step is one agent's, and each agent's step keeps the invariant. -/
theorem stepKeepsInvariant : Obligations.StepKeepsInvariant := by
  intro s t h ht
  rcases step_cases s with ⟨-, hs⟩ | ⟨ts, -, hs⟩ | ⟨a, ts, -, hs⟩ | ⟨level, ts, -, hs⟩ <;> rw [hs] at ht
  · exact coreTurn_keeps_inv h ht
  · exact coreTurn_keeps_inv (h.withTurns ts) ht
  · exact busAccess_keeps_inv (h.withTurns ts) ht
  · cases ht
    exact resetPinTurn_keeps_inv (h.withTurns ts) level

end Sys2Proof.Machine
end

section
/-! PROOFS. The family 10_state: one Host access as the Host sees it, register by register. -/

namespace Sys2Proof.Machine

/-! ### Kinds of registers -/

/-- R47: the targets whose writes are dropped while busy. -/
def Target.isInput : Target → Bool
  | .keyIn | .nonceIn | .counter | .msgLen | .opa | .opb | .qa | .qb | .qc | .qd | .inBuf _ => true
  | _ => false

/-- R46: the targets whose writes are ignored. -/
def Target.isReadOnly : Target → Bool
  | .id | .ldcnt | .ctrCur | .blocksDone | .res | .w _ | .outBuf _ => true
  | _ => false

/-- R46, R47: every target but the three control registers is an input or read-only. -/
theorem Target.kind_cases (tg : Target) :
    tg.isInput = true ∨ tg.isReadOnly = true ∨ tg = .cmd ∨ tg = .ctrl ∨ tg = .status := by
  cases tg <;> simp [Target.isInput, Target.isReadOnly]

theorem writeTarget_input_busy {tg : Target} (ht : tg.isInput = true) {s : State} (hb : s.busy = true) (mw : Nat)
    (v : Word) : writeTarget mw tg v s = .next { s with wdrop := true } := by
  cases tg with
  | keyIn | nonceIn | counter | msgLen | opa | opb | qa | qb | qc | qd | inBuf =>
    exact congrArg Host.Outcome.next (State.writeInput_busy _ hb)
  | _ => cases ht

theorem writeTarget_readOnly {tg : Target} (ht : tg.isReadOnly = true) (mw : Nat) (v : Word) (s : State) :
    writeTarget mw tg v s = .next s := by
  cases tg with
  | id | ldcnt | ctrCur | blocksDone | res | w | outBuf => rfl
  | _ => cases ht

/-! ### One legal access out of reset -/

theorem State.datapathRead_idle {s : State} (h : s.busy = false) (v : Word) : s.datapathRead v = (v, s) := by
  simp [State.datapathRead, h]

theorem State.datapathRead_busy {s : State} (h : s.busy = true) (v : Word) :
    s.datapathRead v = (Config.busyRead s.draws, { s with draws := s.draws + 1 }) := by
  simp only [State.datapathRead, h, if_true]

section
variable {s : State} {off : Offset} {ts : List Turn} {tg : Target}

/-- R62, R107: the Host's next access, a write of a mapped word, does what its target says. -/
theorem step_write {v : Word} (h : s.accessNext (.write off .word v) ts)
    (ht : targetOfOffset Config.msgWords off.toNat = some tg) :
    step s = writeTarget Config.msgWords tg v (s.answered (.write off .word v) ts 0#32) := by
  rw [step_host h.2]
  exact busAccess_write h.1 ht

/-- R47: a write to an input register has its effect on an idle core. -/
theorem step_write_idle {v : Word} {u : State} (h : s.accessNext (.write off .word v) ts)
    (ht : targetOfOffset Config.msgWords off.toNat = some tg)
    (hw : writeTarget Config.msgWords tg v (s.answered (.write off .word v) ts 0#32) =
      .next ((s.answered (.write off .word v) ts 0#32).writeInput u)) (hb : s.busy = false) : step s = .next u := by
  rw [step_write h ht, hw, State.writeInput_idle (s := s.answered (.write off .word v) ts 0#32) u hb]

/-- R47: while busy the same write is dropped. -/
theorem step_write_busy {v : Word} (h : s.accessNext (.write off .word v) ts)
    (ht : targetOfOffset Config.msgWords off.toNat = some tg) (hi : tg.isInput = true) (hb : s.busy = true) :
    step s = .next { s.answered (.write off .word v) ts 0#32 with wdrop := true } := by
  rw [step_write h ht, writeTarget_input_busy (s := s.answered (.write off .word v) ts 0#32) hi hb]

/-- R49, R71: a read whose value is exact only answers. -/
theorem step_read_exact {d : Word} (h : s.accessNext (.read off .word) ts)
    (ht : targetOfOffset Config.msgWords off.toNat = some tg)
    (hd : readTarget tg (s.withTurns ts) = (d, s.withTurns ts)) :
    step s = .next (s.answered (.read off .word) ts d) := by
  have hr : (s.withTurns ts).rstN = true := h.1
  have ha : targetOfAccess Config.msgWords (.read off .word) = some tg := ht
  rw [step_host h.2, busAccess_read hr ha, hd]
  rfl

/-- R49: a read of a datapath register that holds `d` returns `d` when idle and the next draw while busy. -/
theorem step_read_datapath {d : Word} (h : s.accessNext (.read off .word) ts)
    (ht : targetOfOffset Config.msgWords off.toNat = some tg)
    (hd : readTarget tg (s.withTurns ts) = (s.withTurns ts).datapathRead d) :
    (s.busy = false → step s = .next (s.answered (.read off .word) ts d)) ∧
    (s.busy = true → step s =
      .next { s.answered (.read off .word) ts (Config.busyRead s.draws) with draws := s.draws + 1 }) := by
  have hr : (s.withTurns ts).rstN = true := h.1
  have ha : targetOfAccess Config.msgWords (.read off .word) = some tg := ht
  rw [step_host h.2, busAccess_read hr ha, hd]
  constructor <;> intro hb
  · rw [State.datapathRead_idle (s := s.withTurns ts) hb]
    rfl
  · rw [State.datapathRead_busy (s := s.withTurns ts) hb]
    rfl

end

/-! ### Offsets of the windows (R64) -/

theorem target_of_window_offset (i : Fin 16) :
    targetOfOffset Config.msgWords (BitVec.ofNat 14 (0x080 + 4 * i.val)).toNat = some (.w i) := by
  rw [BitVec.toNat_ofNat, Nat.mod_eq_of_lt (by omega)]
  exact targetOfOffset_window _ i

theorem target_of_inBuf_offset {g : Nat} (hg : g < Config.msgWords) :
    targetOfOffset Config.msgWords (BitVec.ofNat 14 (0x1000 + 4 * g)).toNat = some (.inBuf g) := by
  have := Config.msgWords_bounds
  rw [BitVec.toNat_ofNat, Nat.mod_eq_of_lt (by omega)]
  exact targetOfOffset_inBuf hg

theorem target_of_outBuf_offset {g : Nat} (hg : g < Config.msgWords) :
    targetOfOffset Config.msgWords (BitVec.ofNat 14 (0x2000 + 4 * g)).toNat = some (.outBuf g) := by
  have := Config.msgWords_bounds
  rw [BitVec.toNat_ofNat, Nat.mod_eq_of_lt (by omega)]
  exact targetOfOffset_outBuf this.2 hg

/-- The number of the word at byte offset `off` of a range that starts at `base`. -/
theorem exists_word_of_range {base n off : Nat} (hb : base % 4 = 0) (h4 : off % 4 = 0) (hlo : base ≤ off)
    (hhi : off < base + 4 * n) : ∃ g, g < n ∧ off = base + 4 * g :=
  ⟨(off - base) / 4, by omega, by omega⟩

/-! ### Offsets of the kinds of registers -/

/-- R47: the offsets of the input registers and of IN. -/
theorem exists_input_target {off : Offset}
    (h : off ∈ [0x010#14, 0x014#14, 0x01C#14, 0x020#14, 0x030#14, 0x034#14, 0x040#14, 0x044#14, 0x048#14, 0x04C#14] ∨
      (off.toNat % 4 = 0 ∧ 0x1000 ≤ off.toNat ∧ off.toNat < 0x1000 + 4 * Config.msgWords)) :
    ∃ tg, targetOfOffset Config.msgWords off.toNat = some tg ∧ tg.isInput = true := by
  rcases h with h | ⟨h4, hlo, hhi⟩
  · simp only [List.mem_cons, List.not_mem_nil, or_false] at h
    rcases h with rfl | rfl | rfl | rfl | rfl | rfl | rfl | rfl | rfl | rfl <;>
      exact ⟨_, targetOfOffset_register rfl, rfl⟩
  · obtain ⟨g, hg, ho⟩ := exists_word_of_range (base := 0x1000) (by decide) h4 hlo hhi
    exact ⟨.inBuf g, by rw [ho, targetOfOffset_inBuf hg], rfl⟩

/-- R46: the offsets of the read-only registers, of W and of OUT. -/
theorem exists_readOnly_target {off : Offset}
    (h : off ∈ [0x000#14, 0x018#14, 0x024#14, 0x028#14, 0x038#14] ∨
      (off.toNat % 4 = 0 ∧ 0x080 ≤ off.toNat ∧ off.toNat < 0x0C0) ∨
      (off.toNat % 4 = 0 ∧ 0x2000 ≤ off.toNat ∧ off.toNat < 0x2000 + 4 * Config.msgWords)) :
    ∃ tg, targetOfOffset Config.msgWords off.toNat = some tg ∧ tg.isReadOnly = true := by
  rcases h with h | ⟨h4, hlo, hhi⟩ | ⟨h4, hlo, hhi⟩
  · simp only [List.mem_cons, List.not_mem_nil, or_false] at h
    rcases h with rfl | rfl | rfl | rfl | rfl <;> exact ⟨_, targetOfOffset_register rfl, rfl⟩
  · obtain ⟨i, hi, ho⟩ := exists_word_of_range (base := 0x080) (n := 16) (by decide) h4 hlo hhi
    exact ⟨.w ⟨i, hi⟩, by rw [ho, ← targetOfOffset_window _ ⟨i, hi⟩], rfl⟩
  · obtain ⟨g, hg, ho⟩ := exists_word_of_range (base := 0x2000) (by decide) h4 hlo hhi
    exact ⟨.outBuf g, by rw [ho, targetOfOffset_outBuf Config.msgWords_bounds.2 hg], rfl⟩

/-! ### The load ports -/

/-- R31: a push puts the word at the count, if there is such a place. -/
theorem State.pushKey_getElem (s : State) (v : Word) (i : Fin 8) :
    (s.pushKey v).key[i] = if i.val = s.keyCnt.toNat then v else s.key[i] := by
  rw [State.pushKey_key]
  split
  · simp [Vector.getElem_set, eq_comm]
  · rw [if_neg (by omega)]

/-- R33: likewise for the nonce. -/
theorem State.pushNonce_getElem (s : State) (v : Word) (i : Fin 3) :
    (s.pushNonce v).nonce[i] = if i.val = s.nonceCnt.toNat then v else s.nonce[i] := by
  rw [State.pushNonce_nonce]
  split
  · simp [Vector.getElem_set, eq_comm]
  · rw [if_neg (by omega)]

/-! ### What the flag and count words show -/

theorem State.ctrlWord_writeCtrl (s : State) (v : Word) : (s.writeCtrl v).ctrlWord = v &&& 3#32 := by
  ext i hi
  have h3 : (3#32)[i] = decide (i < 2) := by
    revert i
    decide
  rw [BitVec.getElem_and, h3]
  simp [State.ctrlWord]
  grind

theorem State.ldcntWord_fields (s : State) : s.ldcntWord.extractLsb' 0 4 = s.keyCnt ∧
    s.ldcntWord.extractLsb' 4 4 = s.nonceCnt ∧ s.ldcntWord.extractLsb' 8 24 = 0#24 := by
  refine ⟨?_, ?_, ?_⟩ <;> ext i hi <;> simp [State.ldcntWord] <;> grind

theorem State.statusWord_fields (s : State) :
    s.statusWord.getLsbD 0 = s.busy ∧ s.statusWord.getLsbD 1 = s.done ∧ s.statusWord.getLsbD 2 = s.err ∧
      s.statusWord.getLsbD 3 = s.wdrop ∧ s.statusWord.extractLsb' 4 4 = s.errCode.code ∧
      s.statusWord.extractLsb' 8 24 = 0#24 := by
  refine ⟨?_, ?_, ?_, ?_, ?_, ?_⟩
  iterate 4 simp only [State.statusWord, BitVec.getLsbD_append]; simp
  · ext i hi
    simp [State.statusWord]
    grind
  · ext i hi
    simp [State.statusWord]
    grind

/-! ### Tier 1 -/

/-- Settles O5: CMD is a register of the map, and a CMD write of a word that decodes issues its command. -/
theorem stepRunsTheDecodedCommand : Obligations.StepRunsTheDecodedCommand := by
  intro s v i ts hv
  have key : ∀ (s : State) (ts : List Turn), s.accessNext (commandWrite v) ts →
      step s = exec i (s.answered (commandWrite v) ts 0#32) := fun s ts h =>
    (step_write h (targetOfOffset_register rfl)).trans (writeCmd_decoded hv _)
  refine ⟨key s ts, ?_⟩
  have hw : BitVec.ofNat 32 (tableBits 32 v.toNat) = v := by
    rw [tableBits, Nat.mod_eq_of_lt v.isLt, BitVec.ofNat_toNat, BitVec.setWidth_eq]
  exact key _ s.turns ⟨rfl, by simp only [State.withFetchWord, hw]⟩

/-- Settles O36: STATUS is a register of the map, and its write takes effect whatever BUSY is. -/
theorem statusWriteClears : Obligations.StatusWriteClears := by
  rintro s v ts _ rfl h
  rw [step_write h (targetOfOffset_register rfl)]
  have hclear : ∀ b c : Bool, (if c then false else b) = (b && !c) := by decide
  simp only [hclear]
  rfl

/-- Settles O37: the read returns the status word, which shows each field in its place. -/
theorem statusReadLayout : Obligations.StatusReadLayout := by
  refine ⟨?_, rfl, rfl, rfl, rfl, rfl, rfl, rfl⟩
  rintro s ts _ rfl h
  exact ⟨s.statusWord, step_read_exact h (targetOfOffset_register rfl) rfl, s.statusWord_fields⟩

/-- Settles O39: the write, then the read of the state it leaves. -/
theorem ctrlReadsBackTwoBits : Obligations.CtrlReadsBackTwoBits := by
  intro s v hr ht
  have hctrl : targetOfOffset Config.msgWords (0x004#14).toNat = some .ctrl := targetOfOffset_register rfl
  have hwrite := step_write ⟨hr, ht⟩ hctrl
  have hread : ∀ t : State, t.accessNext (.read 0x004#14 .word) [] →
      step t = .next (t.answered (.read 0x004#14 .word) [] t.ctrlWord) := fun t h => step_read_exact h hctrl rfl
  rw [run_succ 1 hwrite, run_one, hread, State.ctrlWord_writeCtrl]
  · simp only [State.answered, State.respond, State.writeCtrl, State.withTurns]
  · exact ⟨hr, rfl⟩

/-- Settles O41: each offset names an input register, whose write has its effect on an idle core. -/
theorem idleWritesStore : Obligations.IdleWritesStore := by
  rintro s v off ts _ rfl h hb
  refine ⟨?_, ?_, ?_, ?_, ?_, ?_, ?_, ?_⟩ <;>
  · rintro rfl
    exact step_write_idle h (targetOfOffset_register rfl) rfl hb

/-- Settles O53: out of reset no command runs, so the datapath has nothing to meet. -/
theorem resetMeetsInvariants : Obligations.ResetMeetsInvariants := by
  refine ⟨.reset, ?_⟩
  constructor <;> simp [State.reset]

/-- Settles O44: the offsets name read-only registers; each of the three reads returns 0. -/
theorem readOnlyAndWriteOnlyRegisters : Obligations.ReadOnlyAndWriteOnlyRegisters := by
  intro s v off ts
  constructor
  · intro h ho
    obtain ⟨tg, ht, hro⟩ := exists_readOnly_target ho
    rw [step_write h ht, writeTarget_readOnly hro]
  · intro h ho
    have hzero : ∀ tg, targetOfOffset Config.msgWords off.toNat = some tg → tg = .cmd ∨ tg = .keyIn ∨ tg = .nonceIn →
        step s = .next (s.answered (.read off .word) ts 0#32) := by
      rintro tg ht (rfl | rfl | rfl) <;> exact step_read_exact h ht rfl
    simp only [List.mem_cons, List.not_mem_nil, or_false] at ho
    rcases ho with rfl | rfl | rfl
    · exact hzero .cmd (targetOfOffset_register rfl) (by decide)
    · exact hzero .keyIn (targetOfOffset_register rfl) (by decide)
    · exact hzero .nonceIn (targetOfOffset_register rfl) (by decide)

/-- Settles O45: none of these reads depends on BUSY. -/
theorem exactReads : Obligations.ExactReads := by
  rintro s off ts _ rfl h
  refine ⟨?_, ?_, ?_, ?_, ?_, ?_, ?_⟩
  · rintro rfl
    exact step_read_exact h (targetOfOffset_register rfl) rfl
  · rintro rfl
    exact ⟨s.ldcntWord, step_read_exact h (targetOfOffset_register rfl) rfl, s.ldcntWord_fields⟩
  iterate 4
    rintro rfl
    exact step_read_exact h (targetOfOffset_register rfl) rfl
  · rintro g hg rfl
    exact step_read_exact h (target_of_inBuf_offset hg) rfl

/-! ### Tier 2 -/

/-- Settles O40: the two ports push alike, each into its own register. -/
theorem loadPortsPushAndCount : Obligations.LoadPortsPushAndCount := by
  intro s v ts a h
  refine ⟨?_, ?_, ?_, ?_⟩
  · rintro hb rfl
    exact ⟨_, step_write_idle h (targetOfOffset_register rfl) rfl hb, rfl,
      saturatingSucc_toNat _, State.pushKey_getElem _ v⟩
  · rintro hb rfl
    exact ⟨_, step_write_idle h (targetOfOffset_register rfl) rfl hb, rfl,
      saturatingSucc_toNat _, State.pushNonce_getElem _ v⟩
  · rintro hb (rfl | rfl)
    · exact step_write_busy h (targetOfOffset_register rfl) rfl hb
    · exact step_write_busy h (targetOfOffset_register rfl) rfl hb
  · rintro (rfl | rfl)
    · exact step_read_exact h (targetOfOffset_register rfl) rfl
    · exact step_read_exact h (targetOfOffset_register rfl) rfl

/-- Settles O42: the offsets name input registers; CTRL, STATUS and CMD are none. -/
theorem busyWritesAreDropped : Obligations.BusyWritesAreDropped := by
  rintro s v off ts _ rfl h hb
  refine ⟨?_, ?_, ?_, ?_⟩
  · intro ho
    obtain ⟨tg, ht, hi⟩ := exists_input_target ho
    exact step_write_busy h ht hi hb
  · rintro rfl
    exact step_write h (targetOfOffset_register rfl)
  · rintro rfl
    exact ⟨_, step_write h (targetOfOffset_register rfl), rfl, rfl, rfl⟩
  · rintro rfl i hi
    exact (step_write h (targetOfOffset_register rfl)).trans (writeCmd_decoded hi _)

/-- Settles O43: the laws of one word write, for IN. -/
theorem inWordWriteIsLittleEndian : Obligations.InWordWriteIsLittleEndian := by
  rintro s v g ts _ rfl h hb hg hwf
  refine ⟨_, step_write_idle h (target_of_inBuf_offset hg) rfl hb, rfl, ?_, ?_, ?_⟩
  · exact (Buffer.readWord_writeWord _ s.inBuf g g v hwf).trans (if_pos rfl)
  · intro p hp
    exact (Buffer.readByte_writeWord _ s.inBuf g p v hwf).trans (if_pos hp)
  · intro p hp
    exact (Buffer.readByte_writeWord _ s.inBuf g p v hwf).trans (if_neg hp)

/-- Settles O46: each offset names a datapath register that holds `v`. -/
theorem datapathReads : Obligations.DatapathReads := by
  rintro s off v ts _ rfl h hcases
  obtain ⟨tg, ht, hd⟩ : ∃ tg, targetOfOffset Config.msgWords off.toNat = some tg ∧
      readTarget tg (s.withTurns ts) = (s.withTurns ts).datapathRead v := by
    rcases hcases with ⟨rfl, rfl⟩ | ⟨rfl, rfl⟩ | ⟨rfl, rfl⟩ | ⟨rfl, rfl⟩ | ⟨rfl, rfl⟩ | ⟨rfl, rfl⟩ | ⟨rfl, rfl⟩ |
      ⟨i, rfl, rfl⟩ | ⟨g, hg, rfl, rfl⟩
    iterate 7 exact ⟨_, targetOfOffset_register rfl, rfl⟩
    · exact ⟨_, target_of_window_offset i, rfl⟩
    · exact ⟨_, target_of_outBuf_offset hg, rfl⟩
  exact step_read_datapath h ht hd

end Sys2Proof.Machine
end

section
/-! PROOFS. The family 10_state: what the Host cannot see or disturb, and what a Core step can change. -/

namespace Sys2Proof.Machine

/-! ### The answer to an access, and what it depends on -/

/-- R60 to R63, R226: what the core answers to an access. -/
def State.response (s : State) (a : Access) : Response :=
  if s.rstN then
    match targetOfAccess Config.msgWords a, a with
    | none, _ => ⟨a, 0#32, true⟩
    | some tg, .read _ _ => ⟨a, (readTarget tg s).1, false⟩
    | some _, .write _ _ _ => ⟨a, 0#32, false⟩
  else ⟨a, 0#32, true⟩

@[simp] theorem State.issued_log (s : State) (i : Instr) : (s.issued i).log = s.log := by
  cases i <;> rfl

theorem State.writeInput_log {s u : State} (h : u.log = s.log) : (s.writeInput u).log = s.log := by
  cases hb : s.busy
  · rw [writeInput_idle _ hb, h]
  · rw [writeInput_busy _ hb]

/-- R60: what a write does is no answer. -/
theorem writeTarget_log {tg : Target} {v : Word} {s t : State} (h : writeTarget Config.msgWords tg v s = .next t) :
    t.log = s.log := by
  cases tg with
  | cmd =>
    rcases writeCmd_cases h with rfl | ⟨e, -, rfl⟩ | ⟨-, i, -, rfl⟩
    · rfl
    · rfl
    · exact s.issued_log i
  | keyIn | nonceIn | counter | msgLen | opa | opb | qa | qb | qc | qd | inBuf =>
    cases h
    exact State.writeInput_log rfl
  | _ => cases h; rfl

/-- R60: an access adds its answer to the record, and nothing else. -/
theorem busAccess_log {a : Access} {s t : State} (h : busAccess Config.msgWords a s = .next t) :
    t.log = s.response a :: s.log := by
  rcases busAccess_cases h with ⟨hr | htg, rfl⟩ | ⟨off, n, tg, rfl, hr, htg, rfl⟩ | ⟨off, n, v, tg, rfl, hr, htg, hw⟩
  · simp [State.response, hr, State.busError]
  · simp [State.response, htg, State.busError]
  · rw [readTarget_state]
    simp [State.response, hr, htg]
  · rw [writeTarget_log hw]
    simp [State.response, hr, htg]

/-- R30, R32: what a read returns does not depend on the key or the nonce. -/
theorem readTarget_of_key_nonce (tg : Target) (s : State) (k : Vector Word 8) (n : Vector Word 3) :
    (readTarget tg { s with key := k, nonce := n }).1 = (readTarget tg s).1 := by
  have hdraw : ∀ d, ({ s with key := k, nonce := n }.datapathRead d).1 = (s.datapathRead d).1 := by
    intro d
    simp only [State.datapathRead]
    split <;> rfl
  cases tg with
  | ctrCur | blocksDone | res | qa | qb | qc | qd | w | outBuf => exact hdraw _
  | _ => rfl

theorem State.response_of_key_nonce (s : State) (k : Vector Word 8) (n : Vector Word 3) (a : Access) :
    { s with key := k, nonce := n }.response a = s.response a := by
  simp only [State.response, readTarget_of_key_nonce]

/-- Settles O49: the answer is a function of the access and of what the key and the nonce are not. -/
theorem keyAndNonceAreWriteOnly : Obligations.KeyAndNonceAreWriteOnly := by
  intro s s' t t' a ts hts hs' ht ht'
  have hts' : s'.turns = .host a :: ts := by rw [hs']; exact hts
  rw [step_host hts] at ht
  rw [step_host hts'] at ht'
  rw [busAccess_log ht, busAccess_log ht', hs']
  exact congrArg (· :: s.log) ((s.withTurns ts).response_of_key_nonce s'.key s'.nonce a)

/-! ### A running command and the Host -/

/-- R47: a write while busy leaves all a running command works on. -/
theorem writeTarget_engineView {tg : Target} {v : Word} {s t : State} (hb : s.busy = true) (hd : s.done = false)
    (h : writeTarget Config.msgWords tg v s = .next t) : t.engineView = s.engineView := by
  rcases tg.kind_cases with hi | hro | rfl | rfl | rfl
  · rw [writeTarget_input_busy hi hb] at h
    cases h
    rfl
  · rw [writeTarget_readOnly hro] at h
    cases h
    rfl
  · rcases writeCmd_cases h with rfl | ⟨e, -, rfl⟩ | ⟨hidle, -⟩
    · rfl
    · rfl
    · exact absurd (hb.symm.trans hidle) (by decide)
  · cases h
    rfl
  · cases h
    simp [State.engineView, State.writeStatus, hd]

theorem busAccess_engineView {a : Access} {s t : State} (hb : s.busy = true) (hd : s.done = false)
    (h : busAccess Config.msgWords a s = .next t) : t.engineView = s.engineView := by
  rcases busAccess_cases h with ⟨-, rfl⟩ | ⟨off, n, tg, -, -, -, rfl⟩ | ⟨off, n, v, tg, -, -, -, hw⟩
  · rfl
  · rw [readTarget_state]
    rfl
  · exact writeTarget_engineView (s := s.respond _ _ _) hb hd hw

/-- Settles O57: a busy core that meets the invariant has DONE at 0, so that no STATUS write moves it. -/
theorem hostCannotDisturbARunningCommand : Obligations.HostCannotDisturbARunningCommand := by
  intro s a ts h hnext hb
  obtain ⟨t, ht⟩ := busAccess_next Config.msgWords a (s.withTurns ts)
  have hview : t.engineView = s.engineView := busAccess_engineView (s := s.withTurns ts) hb (h.not_done_of_busy hb) ht
  exact ⟨t, (step_host hnext.2).trans ht, hview, (congrArg State.busy hview).trans hb⟩

/-! ### What a Core step can change -/

/-- R108, R109: what a Core step writes in each PHASE; it leaves every field that its clause does not name. -/
theorem coreStep_cases {s t : State} (h : coreStep s = .next t) :
    (s.phase = .idle ∧ t = s) ∨
    (s.phase = .alu ∧ ∃ r, t = { s with res := r }.complete) ∨
    (s.phase = .qrt ∧ ∃ q, t = (s.setQuad q).complete) ∨
    (s.phase = .load ∧ ∃ w x b d p,
      t = { s with wReg := w, sReg := x, dr := 0, qi := 0, busy := b, done := d, phase := p }) ∨
    (s.phase = .round ∧ ∃ w n q b d p,
      t = { s with wReg := w, dr := n, qi := q, busy := b, done := d, phase := p }) ∨
    (s.phase = .ffwd ∧ ∃ w c n b d p,
      t = { s with wReg := w, ctrCur := c, blocksDone := n, busy := b, done := d, phase := p }) ∨
    (s.phase = .xor ∧ ∃ c k n b d p,
      t = { s with
        outBuf := s.xorBlock.outBuf, ctrCur := c, blk := k, blocksDone := n, busy := b, done := d, phase := p }) ∨
    (s.phase = .fin ∧ t = s.complete) := by
  cases hp : s.phase <;> simp only [coreStep, hp] at h
  case idle => exact .inl ⟨rfl, (Host.Outcome.next.inj h).symm⟩
  case alu =>
    rcases aluStep_cases s with ⟨r, -, -, ha⟩ | ⟨-, ha⟩ <;> rw [ha] at h <;> cases h
    exact .inr (.inl ⟨rfl, r, rfl⟩)
  case qrt => exact .inr (.inr (.inl ⟨rfl, _, (Host.Outcome.next.inj h).symm⟩))
  case load =>
    obtain rfl := Host.Outcome.next.inj h
    refine .inr (.inr (.inr (.inl ⟨rfl, ?_⟩)))
    rcases loadStep_cases s with ⟨-, hl⟩ | ⟨-, hl⟩ <;> exact ⟨_, _, _, _, _, hl⟩
  case round =>
    obtain rfl := Host.Outcome.next.inj h
    refine .inr (.inr (.inr (.inr (.inl ⟨rfl, ?_⟩))))
    rcases roundStep_cases s with ⟨-, hr, -⟩ | ⟨-, -, hr⟩ | ⟨-, -, -, hr⟩ | ⟨-, -, -, hr⟩ <;>
      exact ⟨_, _, _, _, _, _, hr⟩
  case ffwd =>
    refine .inr (.inr (.inr (.inr (.inr (.inl ⟨rfl, ?_⟩)))))
    rcases ffwdStep_cases s with ⟨-, hf⟩ | ⟨-, hf⟩ | ⟨-, hf⟩ | ⟨-, -, -, hf⟩ <;> rw [hf] at h <;> cases h <;>
      exact ⟨_, _, _, _, _, _, rfl⟩
  case xor =>
    obtain rfl := Host.Outcome.next.inj h
    refine .inr (.inr (.inr (.inr (.inr (.inr (.inl ⟨rfl, ?_⟩))))))
    have hx := xorStep_cases s
    generalize s.xorBlock.outBuf = out at hx ⊢
    rcases hx with ⟨-, hx⟩ | ⟨-, hx⟩ <;> exact ⟨_, _, _, _, _, _, hx⟩
  case fin =>
    exact .inr (.inr (.inr (.inr (.inr (.inr (.inr ⟨rfl, (Host.Outcome.next.inj h).symm⟩))))))

theorem State.xorBlock_epoch (s : State) : s.xorBlock.epoch = s.epoch := by rw [State.xorBlock_eq]

/-- Settles O60: each PHASE writes what `coreStep_cases` names; the XOR stage leaves the bytes outside its block. -/
theorem coreStepFrame : Obligations.CoreStepFrame := by
  intro s t h hwf
  rcases coreStep_cases h with ⟨hp, rfl⟩ | ⟨hp, r, rfl⟩ | ⟨hp, q, rfl⟩ | ⟨hp, w, x, b, d, p, rfl⟩ |
    ⟨hp, w, n, q, b, d, p, rfl⟩ | ⟨hp, w, c, n, b, d, p, rfl⟩ | ⟨hp, c, k, n, b, d, p, rfl⟩ | ⟨hp, rfl⟩
  iterate 6 simp [hp, State.inByte, State.outByte]
  · simpa [hp, State.inByte, State.outByte, State.xorBlock_epoch] using s.xorBlock_outByte_other hwf
  · simp [hp, State.inByte, State.outByte]

end Sys2Proof.Machine
end

section
/-! PROOFS. The family 20_memory: which accesses are bus errors, and what a read leaves alone. -/

namespace Sys2Proof.Machine

/-- R62: a legal access is 32-bit, word-aligned and at a mapped offset. -/
theorem targetOfAccess_isSome (mw : Nat) (a : Access) :
    (targetOfAccess mw a).isSome = true ↔ a.size = .word ∧ (targetOfOffset mw a.offset.toNat).isSome = true := by
  by_cases hsize : a.size = .word
  · simp [targetOfAccess, hsize]
  · simp [targetOfAccess, hsize]

/-- R63: out of reset, an access that reaches a target is answered without a bus error. -/
theorem State.response_of_target {s : State} {a : Access} {tg : Target} (hr : s.rstN = true)
    (ht : targetOfAccess Config.msgWords a = some tg) : ∃ v, s.response a = ⟨a, v, false⟩ := by
  cases a with
  | read off n => exact ⟨(readTarget tg s).1, by simp only [State.response, hr, ht, if_true]⟩
  | write off n v => exact ⟨0#32, by simp only [State.response, hr, ht, if_true]⟩

/-- Settles O47: an access is legal exactly when it reaches a target of the register map. -/
theorem busErrorExactlyWhenIllegal : Obligations.BusErrorExactlyWhenIllegal := by
  rintro s a ts _ legal ⟨hr, hts⟩ rfl hlegal
  rw [← targetOfOffset_isSome, ← targetOfAccess_isSome] at hlegal
  rw [step_host hts]
  constructor
  · intro hillegal
    exact busAccess_illegal (Option.not_isSome_iff_eq_none.mp (hillegal ∘ hlegal.mpr))
  · intro h
    obtain ⟨tg, htg⟩ := Option.isSome_iff_exists.mp (hlegal.mp h)
    obtain ⟨t, ht⟩ := busAccess_next Config.msgWords a (s.withTurns ts)
    obtain ⟨v, hv⟩ := State.response_of_target (s := s.withTurns ts) hr htg
    exact ⟨t, v, ht, by rw [busAccess_log ht, hv, State.withTurns_log]⟩

/-- R71: a read, legal or not, moves only the record of responses and the count of draws. -/
theorem busAccess_read_frame {mw : Nat} {off : Offset} {n : Size} {s t : State}
    (h : busAccess mw (.read off n) s = .next t) : t = { s with log := t.log, draws := t.draws } := by
  rcases busAccess_cases h with ⟨-, rfl⟩ | ⟨_, _, tg, -, -, -, rfl⟩ | ⟨_, _, _, _, hwrite, -⟩
  · rfl
  · rw [readTarget_state]
    rfl
  · cases hwrite

/-- Settles O48: in reset or out of it, the step is that one read. -/
theorem readsChangeNoState : Obligations.ReadsChangeNoState := by
  intro s off n ts hts
  obtain ⟨t, ht⟩ := busAccess_next Config.msgWords (.read off n) (s.withTurns ts)
  exact ⟨t, (step_host hts).trans ht, busAccess_read_frame ht⟩

end Sys2Proof.Machine
end

section
/-! PROOFS. The family 30_encoding: the decoder and the encoder invert each other, a word that is no command only
records an error, and what issuing a command can change. -/

namespace Sys2Proof

/-! ### The fields of a command word (R85) -/

/-- R85: a word is its reserved field and its opcode field. -/
@[simp] theorem rsvField_append_opField (v : Word) : rsvField v ++ opField v = v :=
  (BitVec.extractLsb'_append_extractLsb'_eq_extractLsb' (start₁ := 0) (len₁ := 8) rfl).trans
    BitVec.extractLsb'_eq_self

/-- R85: the two fields determine the word. -/
theorem word_eq_of_fields {v w : Word} (hrsv : rsvField v = rsvField w) (hop : opField v = opField w) : v = w := by
  rw [← rsvField_append_opField v, hrsv, hop, rsvField_append_opField]

/-! ### The words of the table (R87, R88) -/

/-- The family EncodedWord holds of all commands. -/
theorem encodedWord (i : Instr) : Laws.EncodedWord.Statement i := by
  cases i with
  | nop => exact Laws.EncodedWord.nop
  | init => exact Laws.EncodedWord.init
  | block => exact Laws.EncodedWord.block
  | stream => exact Laws.EncodedWord.stream
  | dround => exact Laws.EncodedWord.dround
  | ffwd => exact Laws.EncodedWord.ffwd
  | qr => exact Laws.EncodedWord.qr
  | add => exact Laws.EncodedWord.add
  | xor => exact Laws.EncodedWord.xor
  | rotl16 => exact Laws.EncodedWord.rotl16
  | rotl12 => exact Laws.EncodedWord.rotl12
  | rotl8 => exact Laws.EncodedWord.rotl8
  | rotl7 => exact Laws.EncodedWord.rotl7
  | keyClr => exact Laws.EncodedWord.keyClr
  | nonceClr => exact Laws.EncodedWord.nonceClr

@[simp] theorem rsvField_encode (i : Instr) : rsvField (encode i) = 0#24 :=
  have ⟨_, hrsv, _⟩ := encodedWord i
  hrsv

theorem commandOfOp_opField_encode (i : Instr) : commandOfOp (opField (encode i)) = some i :=
  have ⟨_, _, hop, _⟩ := encodedWord i
  hop

@[simp] theorem decode_encode (i : Instr) : decode (encode i) = .ok i :=
  have ⟨_, _, _, hdecode, _⟩ := encodedWord i
  hdecode

theorem decodeTableWord_encode (i : Instr) : decodeTableWord 32 (encode i).toNat = some i :=
  have ⟨_, _, _, _, htable⟩ := encodedWord i
  htable

/-- R88: the opcode column agrees with the full words. -/
theorem opcodeTable_opcode {row : BitVec 8 × Instr} (h : row ∈ opcodeTable) : row.1 = opField (encode row.2) := by
  revert row
  decide

/-- R88: an OP value names a command exactly when it is the command's opcode. -/
theorem commandOfOp_eq_some_iff {op : BitVec 8} {i : Instr} : commandOfOp op = some i ↔ op = opField (encode i) := by
  constructor
  · intro h
    obtain ⟨before, after, htable, -⟩ := List.lookup_eq_some_iff.mp h
    have hmem : (op, i) ∈ opcodeTable := by simp [htable]
    exact opcodeTable_opcode hmem
  · rintro rfl
    exact commandOfOp_opField_encode i

/-! ### The decoder (R87) -/

/-- R87: the decoder accepts a word exactly when its reserved field is 0 and its opcode names a command. -/
theorem decode_eq_ok_iff {v : Word} {i : Instr} :
    decode v = .ok i ↔ rsvField v = 0#24 ∧ opField v = opField (encode i) := by
  rw [← commandOfOp_eq_some_iff, decode]
  by_cases hrsv : rsvField v = 0#24
  · cases hop : commandOfOp (opField v) <;> simp [hrsv]
  · simp [hrsv]

theorem eq_encode_of_decode {v : Word} {i : Instr} (h : decode v = .ok i) : v = encode i := by
  obtain ⟨hrsv, hop⟩ := decode_eq_ok_iff.mp h
  exact word_eq_of_fields (hrsv.trans (rsvField_encode i).symm) hop

/-- R87: the decoder is total, so what it does not accept it rejects. -/
theorem decode_rejects {v : Word} (h : ∀ i, decode v ≠ .ok i) : ∃ r, decode v = .error r := by
  cases hd : decode v with
  | ok i => exact absurd hd (h i)
  | error r => exact ⟨r, rfl⟩

/-- Settles O1: the decoder accepts the qualifying words, and rejects what it does not accept. -/
theorem decodesExactlyTheOpcodes : Obligations.DecodesExactlyTheOpcodes := fun _ _ =>
  ⟨decode_eq_ok_iff, fun h => decode_rejects fun j hj => h j (decode_eq_ok_iff.mp hj)⟩

/-- Settles O2: an accepted word has the command's two fields, so it is the command's word. -/
theorem decodeInvertsEncode : Obligations.DecodeInvertsEncode := fun i _ =>
  ⟨fun _ => decode_encode i, eq_encode_of_decode, decodeTableWord_encode i⟩

/-- Settles O3: six of the words are commands' own; the decoder rejects the other two. -/
theorem listedWordsDecode : Obligations.ListedWordsDecode :=
  ⟨decode_encode .nop, decode_encode .stream, decode_encode .qr, decode_encode .add, decode_encode .rotl7,
    decode_encode .nonceClr, rfl, rfl⟩

/-! ### Illegal words (R89) -/

/-- R88: the three groups of full words. -/
theorem encode_toNat_range (i : Instr) :
    (encode i).toNat < 0x07 ∨ (0x10 ≤ (encode i).toNat ∧ (encode i).toNat < 0x16) ∨
      (0x20 ≤ (encode i).toNat ∧ (encode i).toNat < 0x22) := by
  cases i <;> decide

/-- R89: the illegal words lie outside the groups. -/
theorem decode_rejects_of_range {v : Word}
    (h : v.toNat / 256 ≠ 0 ∨ (0x07 ≤ v.toNat % 256 ∧ v.toNat % 256 ≤ 0x0F) ∨
      (0x16 ≤ v.toNat % 256 ∧ v.toNat % 256 ≤ 0x1F) ∨ 0x22 ≤ v.toNat % 256) : ∃ r, decode v = .error r := by
  refine decode_rejects fun i hi => ?_
  have hrange := encode_toNat_range i
  rw [← eq_encode_of_decode hi] at hrange
  omega

namespace Machine

/-- R27, R89: a CMD write of an illegal word raises ILLEGAL_COMMAND, whatever BUSY is. -/
theorem writeCmd_illegal {v : Word} {r : DecodeReject} (h : decode v = .error r) (mw : Nat) (s : State) :
    writeCmd mw v s = .next (s.raise .illegalCommand) := by
  simp only [writeCmd, h]

/-- Settles O4: CMD is a register of the map, and a word outside the groups of opcodes is rejected. -/
theorem illegalWordOnlyRecordsError : Obligations.IllegalWordOnlyRecordsError := by
  intro s v ts h hrange
  obtain ⟨r, hr⟩ := decode_rejects_of_range hrange
  exact ⟨⟨r, hr⟩, (step_write h (targetOfOffset_register rfl)).trans (writeCmd_illegal hr _ _)⟩

/-! ### What a command's own effect leaves alone (R86, R112, R115, R116) -/

section
variable (s : State)

/-- R86: no command's effect reaches further than these registers. -/
theorem State.issued_frame (i : Instr) : s.issued i = { s with
    key := (s.issued i).key, keyCnt := (s.issued i).keyCnt, nonce := (s.issued i).nonce,
    nonceCnt := (s.issued i).nonceCnt, ctrCur := (s.issued i).ctrCur, blocksDone := (s.issued i).blocksDone,
    blk := (s.issued i).blk, dr := (s.issued i).dr, qi := (s.issued i).qi, busy := (s.issued i).busy,
    done := (s.issued i).done, phase := (s.issued i).phase, opc := (s.issued i).opc } := by
  cases i <;> rfl

/-- R115: the key is KEY_CLR's. -/
theorem State.issued_key {i : Instr} (h : i ≠ .keyClr) : (s.issued i).key = s.key ∧ (s.issued i).keyCnt = s.keyCnt := by
  cases i with
  | keyClr => exact absurd rfl h
  | _ => exact ⟨rfl, rfl⟩

/-- R116: the nonce is NONCE_CLR's. -/
theorem State.issued_nonce {i : Instr} (h : i ≠ .nonceClr) :
    (s.issued i).nonce = s.nonce ∧ (s.issued i).nonceCnt = s.nonceCnt := by
  cases i with
  | nonceClr => exact absurd rfl h
  | _ => exact ⟨rfl, rfl⟩

/-- R112: the driver's registers belong to INIT, BLOCK and STREAM. -/
theorem State.issued_driver {i : Instr} (hi : i ≠ .init) (hb : i ≠ .block) (hs : i ≠ .stream) :
    (s.issued i).ctrCur = s.ctrCur ∧ (s.issued i).blocksDone = s.blocksDone ∧ (s.issued i).blk = s.blk := by
  cases i with
  | init => exact absurd rfl hi
  | block => exact absurd rfl hb
  | stream => exact absurd rfl hs
  | _ => exact ⟨rfl, rfl, rfl⟩

/-- R112: the round controller's indices are DROUND's. -/
theorem State.issued_rounds {i : Instr} (h : i ≠ .dround) : (s.issued i).dr = s.dr ∧ (s.issued i).qi = s.qi := by
  cases i with
  | dround => exact absurd rfl h
  | _ => exact ⟨rfl, rfl⟩

/-- R114 to R116: an immediate command starts nothing. -/
theorem State.issued_immediate {i : Instr} (h : i = .nop ∨ i = .keyClr ∨ i = .nonceClr) :
    (s.issued i).busy = s.busy ∧ (s.issued i).done = s.done ∧ (s.issued i).phase = s.phase ∧
      (s.issued i).opc = s.opc := by
  rcases h with rfl | rfl | rfl <;> exact ⟨rfl, rfl, rfl, rfl⟩

end

/-- Settles O59: a command does nothing, records an error, or has its own effect, whose reach the lemmas above say. -/
theorem commandIssueFrame : Obligations.CommandIssueFrame := by
  intro i s t h
  rcases exec_cases h with rfl | ⟨e, -, rfl⟩ | ⟨-, -, rfl⟩
  · simp
  · simp [State.inByte, State.outByte]
  · refine ⟨?_, ?_, s.issued_key, s.issued_nonce, s.issued_driver, s.issued_rounds, s.issued_immediate⟩
    · rw [s.issued_frame i]
      simp
    · rw [s.issued_frame i]
      simp [State.inByte, State.outByte]

end Machine

end Sys2Proof
end

section
/-! PROOFS. The family 40_command_issue: what issuing a command can do, that no step stops the machine, and that a
running command does not feel the Host. -/

namespace Sys2Proof.Machine

/-! ### The Core's turn and the immediate commands (R108, R114 to R116) -/

/-- Settles O6: a Core turn, scheduled or not, is `coreTurn`. -/
theorem coreStepsOnlyWhenBusy : Obligations.CoreStepsOnlyWhenBusy := by
  intro s ts
  refine ⟨fun hts hr hb => ?_, fun hts hidle => ?_, step_busy, fun hts hidle => ?_⟩
  · rw [step_core hts]
    exact coreTurn_busy hr hb
  · rw [step_core hts]
    exact coreTurn_idle hidle
  · rw [step_quiet hts, coreTurn_idle hidle]

/-- Settles O7: NOP's arm does not look at BUSY. -/
theorem nopDoesNothing : Obligations.NopDoesNothing := ⟨decode_encode .nop, fun _ => rfl⟩

/-- R115: issuing KEY_CLR is the immediate effect, or its refusal. -/
theorem exec_keyClr (s : State) : exec .keyClr s = .next (issueImmediate s.clearKey s) := rfl

/-- R116: issuing NONCE_CLR is the immediate effect, or its refusal. -/
theorem exec_nonceClr (s : State) : exec .nonceClr s = .next (issueImmediate s.clearNonce s) := rfl

/-- Settles O8: `clearKey` writes the key and its count alone. -/
theorem keyClearCommand : Obligations.KeyClearCommand := by
  refine ⟨decode_encode .keyClr, fun s => ⟨fun hb => ⟨s.clearKey, ?_, fun i => ?_, rfl, rfl⟩, fun hb => ?_⟩⟩
  · rw [exec_keyClr, issueImmediate_idle _ hb]
  · simp
  · rw [exec_keyClr, issueImmediate_busy _ hb]

/-- Settles O9: `clearNonce` writes the nonce and its count alone. -/
theorem nonceClearCommand : Obligations.NonceClearCommand := by
  refine ⟨decode_encode .nonceClr, fun s => ⟨fun hb => ⟨s.clearNonce, ?_, fun i => ?_, rfl, rfl⟩, fun hb => ?_⟩⟩
  · rw [exec_nonceClr, issueImmediate_idle _ hb]
  · simp
  · rw [exec_nonceClr, issueImmediate_busy _ hb]

/-! ### The outcome of an issue (R110, R112, R212) -/

/-- R112: an accepted compute command runs, under its own OPC, in a PHASE that has a step. -/
theorem State.issued_compute (s : State) {i : Instr} (hn : i ≠ .nop) (hk : i ≠ .keyClr) (hc : i ≠ .nonceClr) :
    (s.issued i).busy = true ∧ (s.issued i).done = false ∧ (s.issued i).opc = i ∧ (s.issued i).phase ≠ .idle := by
  cases i with
  | nop => exact absurd rfl hn
  | keyClr => exact absurd rfl hk
  | nonceClr => exact absurd rfl hc
  | stream =>
    refine ⟨rfl, rfl, rfl, ?_⟩
    rw [State.issued, State.accept_phase]
    split <;> decide
  | _ => exact ⟨rfl, rfl, rfl, Phase.noConfusion⟩

/-- R212: a command that is carried out or accepted touches no error flag. -/
theorem State.issued_flags (s : State) (i : Instr) :
    (s.issued i).err = s.err ∧ (s.issued i).errCode = s.errCode ∧ (s.issued i).wdrop = s.wdrop := by
  rw [s.issued_frame i]
  exact ⟨rfl, rfl, rfl⟩

/-- Settles O35: a command other than NOP is refused, rejected by a check, or issued; the issued commands are the
immediate ones and the compute commands. -/
theorem issueAcceptsOrOnlyRecordsError : Obligations.IssueAcceptsOrOnlyRecordsError := by
  intro i s
  by_cases hn : i = .nop
  · exact ⟨s, hn ▸ rfl, .inl ⟨hn, rfl⟩⟩
  · refine ⟨_, exec_eq_issueCompute hn s, .inr ?_⟩
    obtain ⟨-, h⟩ | ⟨-, e, he, h⟩ | ⟨hb, -, h⟩ := issueCompute_cases (s.checkCommand i) (s.issued i) s <;> rw [h]
    · exact .inr (.inr ⟨.commandWhileBusy, by decide, rfl⟩)
    · exact .inr (.inr ⟨e, State.checkCommand_ne_none he, rfl⟩)
    · obtain ⟨herr, hcode, hdrop⟩ := s.issued_flags i
      by_cases himm : i = .keyClr ∨ i = .nonceClr
      · obtain ⟨hbusy, hdone, -⟩ := s.issued_immediate (.inr himm)
        exact .inl ⟨hb, himm, hbusy.trans hb, hdone, herr, hcode⟩
      · obtain ⟨hk, hc⟩ := not_or.mp himm
        obtain ⟨hbusy, hdone, hopc, hphase⟩ := s.issued_compute hn hk hc
        exact .inr (.inl ⟨hb, hn, hk, hc, hbusy, hdone, hopc, hphase, herr, hcode, hdrop⟩)

/-! ### No step stops the machine (R108, R200) -/

/-- R130, R167: under the invariant OPC has an arm in the PHASEs whose step asks for one. -/
theorem coreStep_next {s : State} (h : s.Inv) : ∃ t, coreStep s = .next t := by
  have hc := h.controller
  cases hp : s.phase <;> simp only [State.controllerInv, hp] at hc <;> simp only [coreStep, hp]
  case alu =>
    obtain ⟨r, -, -, ha⟩ | ⟨hno, -⟩ := aluStep_cases s
    · exact ⟨_, ha⟩
    · exact absurd hc hno
  case ffwd =>
    obtain ⟨-, hf⟩ | ⟨-, hf⟩ | ⟨-, hf⟩ | ⟨hffwd, hblock, hstream, -⟩ := ffwdStep_cases s
    · exact ⟨_, hf⟩
    · exact ⟨_, hf⟩
    · exact ⟨_, hf⟩
    · obtain ho | ⟨ho | ⟨ho, -⟩, -⟩ := hc
      · exact absurd ho hffwd
      · exact absurd ho hblock
      · exact absurd ho hstream
  all_goals exact ⟨_, rfl⟩

theorem coreTurn_next {s : State} (h : s.Inv) : ∃ t, coreTurn s = .next t := by
  unfold coreTurn
  split
  · exact coreStep_next h
  · exact ⟨s, rfl⟩

/-- Settles O56: a step is one agent's, and no agent's step stops. -/
theorem stepNeverStops : Obligations.StepNeverStops := by
  intro s h
  obtain ⟨-, hs⟩ | ⟨ts, -, hs⟩ | ⟨a, ts, -, hs⟩ | ⟨level, ts, -, hs⟩ := step_cases s <;> rw [hs]
  · exact coreTurn_next h
  · exact coreTurn_next (h.withTurns ts)
  · exact busAccess_next _ _ _
  · exact ⟨_, rfl⟩

/-! ### A Core step reads and writes the engine's part of the state only (R47, R107) -/

section
variable (s : State)

@[simp] theorem State.engineView_phase : s.engineView.phase = s.phase := rfl
@[simp] theorem State.engineView_opc : s.engineView.opc = s.opc := rfl
@[simp] theorem State.engineView_opa : s.engineView.opa = s.opa := rfl
@[simp] theorem State.engineView_opb : s.engineView.opb = s.opb := rfl

theorem loadStep_engineView : loadStep s.engineView = (loadStep s).engineView := by
  simp only [loadStep, apply_ite State.engineView]
  rfl

theorem roundStep_engineView : roundStep s.engineView = (roundStep s).engineView := by
  simp only [roundStep, apply_ite State.engineView]
  rfl

theorem State.xorLane_engineView (i : Fin 16) : s.engineView.xorLane i = (s.xorLane i).engineView := by
  simp only [State.xorLane, apply_ite State.engineView]
  rfl

theorem State.xorBlock_engineView : s.engineView.xorBlock = s.xorBlock.engineView := by
  unfold State.xorBlock
  generalize lanes = l
  induction l generalizing s with
  | nil => rfl
  | cons j l ih => rw [List.foldl_cons, List.foldl_cons, s.xorLane_engineView j, ih]

theorem xorStep_engineView : xorStep s.engineView = (xorStep s).engineView := by
  rw [xorStep, xorStep, s.xorBlock_engineView]
  generalize s.xorBlock = x
  simp only [apply_ite State.engineView]
  rfl

end

/-- R109: the Core's step on the engine's view of a state is the engine's view of its step. -/
theorem coreStep_engineView {s t : State} (h : coreStep s = .next t) :
    coreStep s.engineView = .next t.engineView := by
  cases hp : s.phase <;> simp only [coreStep, hp, State.engineView_phase] at h ⊢
  case alu =>
    obtain ⟨r, hr, -, ha⟩ | ⟨-, ha⟩ := aluStep_cases s <;> rw [ha] at h <;> cases h
    simp only [aluStep, State.engineView_opc, State.engineView_opa, State.engineView_opb, hr]
    rfl
  case load => rw [loadStep_engineView, Host.Outcome.next.inj h]
  case round => rw [roundStep_engineView, Host.Outcome.next.inj h]
  case xor => rw [xorStep_engineView, Host.Outcome.next.inj h]
  case ffwd =>
    obtain ⟨ho, hf⟩ | ⟨ho, hf⟩ | ⟨ho, hf⟩ | ⟨-, -, -, hf⟩ := ffwdStep_cases s <;> rw [hf] at h <;> cases h <;>
      simp only [ffwdStep, State.engineView_opc, ho] <;> rfl
  case idle | qrt | fin =>
    cases h
    rfl

/-- R108, R226: a Core step leaves the reset pin and the schedule alone. -/
theorem coreStep_world {s t : State} (h : coreStep s = .next t) : t.rstN = s.rstN ∧ t.turns = s.turns := by
  obtain ⟨-, rfl⟩ | ⟨-, r, rfl⟩ | ⟨-, q, rfl⟩ | ⟨-, w, x, b, d, p, rfl⟩ | ⟨-, w, n, q, b, d, p, rfl⟩ |
    ⟨-, w, c, n, b, d, p, rfl⟩ | ⟨-, c, k, n, b, d, p, rfl⟩ | ⟨-, rfl⟩ := coreStep_cases h <;> exact ⟨rfl, rfl⟩

/-! ### An access leaves the schedule alone (R107) -/

@[simp] theorem State.issued_turns (s : State) (i : Instr) : (s.issued i).turns = s.turns := by
  rw [s.issued_frame i]

theorem State.writeInput_turns {s u : State} (h : u.turns = s.turns) : (s.writeInput u).turns = s.turns := by
  cases hb : s.busy
  · rw [writeInput_idle _ hb, h]
  · rw [writeInput_busy _ hb]

theorem writeTarget_turns {tg : Target} {v : Word} {s t : State} (h : writeTarget Config.msgWords tg v s = .next t) :
    t.turns = s.turns := by
  cases tg with
  | cmd =>
    obtain rfl | ⟨e, -, rfl⟩ | ⟨-, i, -, rfl⟩ := writeCmd_cases h
    · rfl
    · rfl
    · exact s.issued_turns i
  | keyIn | nonceIn | counter | msgLen | opa | opb | qa | qb | qc | qd | inBuf =>
    cases h
    exact State.writeInput_turns rfl
  | _ => cases h; rfl

theorem busAccess_turns {a : Access} {s t : State} (h : busAccess Config.msgWords a s = .next t) :
    t.turns = s.turns := by
  obtain ⟨-, rfl⟩ | ⟨off, n, tg, -, -, -, rfl⟩ | ⟨off, n, v, tg, -, -, -, hw⟩ := busAccess_cases h
  · rfl
  · rw [readTarget_state]
    rfl
  · exact writeTarget_turns (s := s.respond _ _ _) hw

/-! ### The scheduled core and the core alone (R107, R245) -/

/-- The simulation relation: `s`, a core beside the Host, is for the engine the same as `v`, a core left alone. -/
structure State.Mirrors (s v : State) : Prop where
  inv : s.Inv
  rstN : v.rstN = true
  alone : v.turns = []
  view : s.engineView = v.engineView

namespace State.Mirrors

variable {s v : State}

theorem busy_eq (h : s.Mirrors v) : s.busy = v.busy :=
  show s.engineView.busy = v.engineView.busy from congrArg State.busy h.view

theorem rstN_eq (h : s.Mirrors v) : s.rstN = v.rstN :=
  show s.engineView.rstN = v.engineView.rstN from congrArg State.rstN h.view

/-- R108: a scheduled Core turn is matched by one step of the core left alone. -/
theorem step_core (h : s.Mirrors v) (hb : v.busy = true) {w : State} (hw : step v = .next w) {ts : List Turn}
    (hts : s.turns = .core :: ts) : ∃ t, step s = .next t ∧ t.turns = ts ∧ t.Mirrors w := by
  obtain ⟨t, ht⟩ := coreStep_next (h.inv.withTurns ts)
  have hs : step s = .next t := by
    rw [Machine.step_core hts, ← ht]
    exact coreTurn_busy (h.rstN_eq.trans h.rstN) (h.busy_eq.trans hb)
  rw [step_busy h.alone h.rstN hb] at hw
  have hview : coreStep s.engineView = .next t.engineView := coreStep_engineView (s := s.withTurns ts) ht
  rw [h.view, coreStep_engineView hw] at hview
  obtain ⟨hrst, hturns⟩ := coreStep_world hw
  exact ⟨t, hs, (coreStep_world ht).2,
    { inv := stepKeepsInvariant s t h.inv hs
      rstN := hrst.trans h.rstN
      alone := hturns.trans h.alone
      view := (Host.Outcome.next.inj hview).symm }⟩

/-- R47: an access of the Host while the command runs is matched by no step at all. -/
theorem step_host (h : s.Mirrors v) (hb : v.busy = true) {a : Access} {ts : List Turn}
    (hts : s.turns = .host a :: ts) : ∃ t, step s = .next t ∧ t.turns = ts ∧ t.Mirrors v := by
  obtain ⟨t, ht, hview, -⟩ := hostCannotDisturbARunningCommand s a ts h.inv ⟨h.rstN_eq.trans h.rstN, hts⟩
    (h.busy_eq.trans hb)
  have haccess : busAccess Config.msgWords a (s.withTurns ts) = .next t := (Machine.step_host hts).symm.trans ht
  exact ⟨t, ht, busAccess_turns haccess,
    { h with
      inv := stepKeepsInvariant s t h.inv ht
      view := hview.trans h.view }⟩

end State.Mirrors

@[simp] theorem coreTurns_core (ts : List Turn) : coreTurns (.core :: ts) = coreTurns ts + 1 :=
  List.countP_cons_of_pos rfl

@[simp] theorem coreTurns_host (a : Access) (ts : List Turn) : coreTurns (.host a :: ts) = coreTurns ts :=
  List.countP_cons_of_neg (by simp)

/-- R107: along a schedule without resets, and the Core turn after it, the core beside the Host goes on mirroring the
core left alone, which steps once for each Core turn. -/
theorem State.Mirrors.run (ts : List Turn) : ∀ {s v u : State}, s.Mirrors v → s.turns = ts ++ [.core] →
    (∀ t ∈ ts, t.notReset = true) → (∀ k, k ≤ coreTurns ts → ∃ w, runSteps k v = .next w ∧ w.busy = true) →
    runSteps (coreTurns ts + 1) v = .next u → ∃ t, runSteps (ts.length + 1) s = .next t ∧ t.Mirrors u := by
  induction ts with
  | nil =>
    intro s v u h hts _ hbusy hu
    obtain ⟨_, ⟨⟩, hb⟩ := hbusy 0 (Nat.zero_le _)
    obtain ⟨t, ht, -, hm⟩ := h.step_core hb ((run_one v).symm.trans hu) hts
    exact ⟨t, (run_one s).trans ht, hm⟩
  | cons turn ts ih =>
    intro s v u h hts hreset hbusy hu
    obtain ⟨_, ⟨⟩, hb⟩ := hbusy 0 (Nat.zero_le _)
    obtain ⟨hturn, hrest⟩ := List.forall_mem_cons.mp hreset
    cases turn with
    | rstPin level => exact absurd hturn Bool.false_ne_true
    | core =>
      rw [coreTurns_core] at hbusy hu
      obtain ⟨w, hw, hu⟩ := run_succ_inv hu
      obtain ⟨t, ht, hturns, hm⟩ := h.step_core hb hw hts
      obtain ⟨x, hx, hmx⟩ := ih hm hturns hrest
        (fun k hk => run_succ k hw ▸ hbusy (k + 1) (Nat.succ_le_succ hk)) hu
      exact ⟨x, (run_succ _ ht).trans hx, hmx⟩
    | host a =>
      rw [coreTurns_host] at hbusy hu
      obtain ⟨t, ht, hturns, hm⟩ := h.step_host hb hts
      obtain ⟨x, hx, hmx⟩ := ih hm hturns hrest hbusy hu
      exact ⟨x, (run_succ _ ht).trans hx, hmx⟩

/-- Settles O58: a scheduled core mirrors itself left alone, and the run keeps that. -/
theorem resultsDoNotDependOnTheSchedule : Obligations.ResultsDoNotDependOnTheSchedule := by
  intro s u ts hinv hr _ hreset hbusy hu
  have hm : (s.withTurns (ts ++ [.core])).Mirrors (s.withTurns []) := ⟨hinv.withTurns _, hr, rfl, rfl⟩
  obtain ⟨t, ht, hmt⟩ := hm.run ts rfl hreset hbusy hu
  exact ⟨t, ht, hmt.view⟩

end Sys2Proof.Machine
end

section
/-! PROOFS. The family 41_arith: the rotation bit by bit, its laws, and the six commands of the arithmetic unit. -/

namespace Sys2Proof.Machine

/-! ### The rotation bit by bit (R127) -/

/-- R127: bit `i` of a rotation comes from `n` places below, around the word's end. -/
theorem getLsbD_rotl32 (x : Word) {n i : Nat} (hn : n < 32) (hi : i < 32) :
    (rotl32 x n).getLsbD i = x.getLsbD ((i + (32 - n)) % 32) := by
  rw [rotl32, BitVec.getLsbD_or, BitVec.getLsbD_shiftLeft, BitVec.getLsbD_ushiftRight]
  by_cases h : i < n
  · rw [Nat.mod_eq_of_lt (by omega), Nat.add_comm i]
    simp [h]
  · have hfrom : (i + (32 - n)) % 32 = i - n := by omega
    have hout : x.getLsbD (32 - n + i) = false := BitVec.getLsbD_of_ge _ _ (by omega)
    simp [h, hi, hfrom, hout]

/-- R127: the rotation in shifts of the word's number. -/
theorem rotl32_toNat (x : Word) (n : Nat) :
    (rotl32 x n).toNat = ((x.toNat <<< n) ||| (x.toNat >>> (32 - n))) % 2 ^ 32 := by
  have hright : x.toNat >>> (32 - n) < 2 ^ 32 := (Nat.shiftRight_le _ _).trans_lt x.isLt
  rw [rotl32, BitVec.toNat_or, BitVec.toNat_shiftLeft, BitVec.toNat_ushiftRight, Nat.or_mod_two_pow,
    Nat.mod_eq_of_lt hright]

/-- R133 to R136: a rotation by `n` exchanges the word's upper `n` bits and the `m` bits below them. -/
theorem rotl32_eq_slices {m n : Nat} (h : m + n = 32) (hn : n < 32) (x : Word) :
    rotl32 x n = (x.extractLsb' 0 m ++ x.extractLsb' m n).cast h := by
  refine BitVec.eq_of_getLsbD_eq fun i hi => ?_
  rw [getLsbD_rotl32 x hn hi, BitVec.getLsbD_cast, BitVec.getLsbD_append]
  by_cases hin : i < n
  · have hfrom : (i + (32 - n)) % 32 = m + i := by omega
    simp [hin, hfrom]
  · have hfrom : (i + (32 - n)) % 32 = i - n := by omega
    have him : i - n < m := by omega
    simp [hin, hfrom, him]

/-! ### The laws of the rotation (R138) -/

@[simp] theorem rotl32_zero (x : Word) : rotl32 x 0 = x :=
  BitVec.eq_of_getLsbD_eq fun i hi => by rw [getLsbD_rotl32 x (by decide) hi, Nat.add_mod_right, Nat.mod_eq_of_lt hi]

theorem rotl32_rotl32 (x : Word) {a b : Nat} (ha : a < 32) (hb : b < 32) :
    rotl32 (rotl32 x a) b = rotl32 x ((a + b) % 32) := by
  refine BitVec.eq_of_getLsbD_eq fun i hi => ?_
  rw [getLsbD_rotl32 _ hb hi, getLsbD_rotl32 x ha (Nat.mod_lt _ (by decide)),
    getLsbD_rotl32 x (Nat.mod_lt _ (by decide)) hi]
  congr 1
  omega

theorem rotl32_xor32 (x y : Word) {n : Nat} (hn : n < 32) :
    rotl32 (xor32 x y) n = xor32 (rotl32 x n) (rotl32 y n) := by
  refine BitVec.eq_of_getLsbD_eq fun i hi => ?_
  simp only [xor32, BitVec.getLsbD_xor, getLsbD_rotl32 _ hn hi]

/-- R138: turning a rotation on by the rest of the 32 places restores the word. -/
theorem rotl32_injective {n : Nat} (hn : n < 32) : Function.Injective (rotl32 · n) := by
  have hback : Function.LeftInverse (rotl32 · ((32 - n) % 32)) (rotl32 · n) := fun x => by
    have hround : (n + (32 - n) % 32) % 32 = 0 := by omega
    simp only [rotl32_rotl32 x hn (Nat.mod_lt _ (by decide)), hround, rotl32_zero]
  exact hback.injective

/-- R127: the counts of the hardware are below the word's width. -/
theorem hardwareCount_lt : ∀ n ∈ [16, 12, 8, 7], n < 32 := by decide

/-- Settles O13: the bit `n` places below bit `(i + n) mod 32` is bit `i`. -/
theorem rotationMovesBits : Obligations.RotationMovesBits := by
  intro x n i hn hi
  have hlt : n < 32 := hardwareCount_lt n hn
  have hfrom : ((i + n) % 32 + (32 - n)) % 32 = i := by omega
  exact ⟨by rw [getLsbD_rotl32 x hlt (Nat.mod_lt _ (by decide)), hfrom], rotl32_toNat x n⟩

/-- Settles O14: the three laws hold for every count below 32. -/
theorem rotationLaws : Obligations.RotationLaws := by
  intro x y a b ha hb
  have halt : a < 32 := hardwareCount_lt a ha
  have hblt : b < 32 := hardwareCount_lt b hb
  exact ⟨rotl32_rotl32 x halt hblt, rotl32_xor32 x y halt, fun h => rotl32_injective halt h⟩

/-! ### The commands (R130 to R136) -/

theorem isArithmetic_of_aluResult {c : Instr} {a b r : Word} (h : aluResult c a b = some r) : isArithmetic c := by
  cases c with
  | add | xor | rotl16 | rotl12 | rotl8 | rotl7 => simp [isArithmetic]
  | _ => cases h

/-- R110 to R112: an arithmetic-unit command has nothing to validate, and its acceptance starts PHASE ALU. -/
theorem exec_arithmetic {c : Instr} (h : isArithmetic c) (s : State) :
    exec c s = .next (issueCompute none (s.accept c .alu) s) := by
  obtain rfl | rfl | rfl | rfl | rfl | rfl := h <;> rfl

theorem State.Running.step_alu {s : State} (h : s.Running .alu) : step s = aluStep s := by
  rw [h.step_eq]
  simp only [coreStep, h.phase]

theorem State.quiet.running_accept {s : State} (h : s.quiet) (c : Instr) (p : Phase) : (s.accept c p).Running p := by
  obtain ⟨hrst, -, hturns⟩ := h
  exact ⟨hturns, hrst, rfl, rfl⟩

/-- R130: the one Core step of an accepted arithmetic-unit command. -/
theorem run_alu {c : Instr} {s : State} {r : Word} (hq : s.quiet) (hr : aluResult c s.opa s.opb = some r) :
    runSteps 1 (s.accept c .alu) = .next { s.accept c .alu with res := r }.complete := by
  rw [run_one, (hq.running_accept c .alu).step_alu]
  simp only [aluStep, State.accept_opc, State.accept_opa, State.accept_opb, hr]

/-- R131 to R136: what the statements of the six commands have in common, `r` being the command's result. -/
theorem arithmeticCommand (c : Instr) (s : State) {r : Word} (hr : aluResult c s.opa s.opb = some r) :
    decode (encode c) = .ok c ∧
    (s.busy = false → exec c s = .next (s.accept c .alu)) ∧
    (s.quiet → runSteps 1 (s.accept c .alu) = .next { s.accept c .alu with res := r }.complete) ∧
    (s.busy = true → exec c s = .next (s.raise .commandWhileBusy)) := by
  have hexec := exec_arithmetic (isArithmetic_of_aluResult hr) s
  refine ⟨decode_encode c, fun hb => ?_, fun hq => run_alu hq hr, fun hb => ?_⟩
  · rw [hexec, issueCompute_pass _ hb]
  · rw [hexec, issueCompute_busy _ _ hb]

/-- R125: the sum as a number. -/
theorem add32_eq_ofNat (a b : Word) : add32 a b = BitVec.ofNat 32 ((a.toNat + b.toNat) % 2 ^ 32) :=
  BitVec.eq_of_toNat_eq (by rw [add32, BitVec.toNat_add, BitVec.toNat_ofNat, Nat.mod_mod])

/-- Settles O10: ADD's result is the sum. -/
theorem addCommand : Obligations.AddCommand :=
  ⟨decode_encode .add, fun s => (arithmeticCommand .add s (congrArg some (add32_eq_ofNat s.opa s.opb))).2⟩

/-- Settles O11: XOR's result is the exclusive or, which the library gives bit by bit. -/
theorem xorCommand : Obligations.XorCommand := by
  refine ⟨decode_encode .xor, fun s => ?_⟩
  obtain ⟨-, haccept, hrun, hbusy⟩ := arithmeticCommand .xor s rfl
  exact ⟨haccept, fun hq => ⟨_, hrun hq, fun _ _ => BitVec.getLsbD_xor, rfl⟩, hbusy⟩

/-- Settles O12: each rotation's result is its two slices, exchanged. -/
theorem rotateCommands : Obligations.RotateCommands := by
  intro s w c r h
  simp only [List.mem_cons, List.not_mem_nil, or_false, Prod.mk.injEq] at h
  obtain ⟨rfl, rfl, rfl⟩ | ⟨rfl, rfl, rfl⟩ | ⟨rfl, rfl, rfl⟩ | ⟨rfl, rfl, rfl⟩ := h
  · exact arithmeticCommand .rotl16 s (congrArg some (rotl32_eq_slices (m := 16) rfl (by decide) s.opa))
  · exact arithmeticCommand .rotl12 s (congrArg some (rotl32_eq_slices (m := 20) rfl (by decide) s.opa))
  · exact arithmeticCommand .rotl8 s (congrArg some (rotl32_eq_slices (m := 24) rfl (by decide) s.opa))
  · exact arithmeticCommand .rotl7 s (congrArg some (rotl32_eq_slices (m := 25) rfl (by decide) s.opa))

end Sys2Proof.Machine
end

section
/-! PROOFS. The family 42_quarter_round: the invariant of the datapath, operation by operation and agent by agent. -/

namespace Sys2Proof.Machine

/-! ### The datapath's invariant under the state's operations -/

namespace State.DatapathInv

/-- R48: in PHASE IDLE no block is being computed, so W, S and CTR_CUR are free. -/
theorem of_idle {s : State} (hp : s.phase = .idle) : s.DatapathInv where
  counter_of_block := fun h => absurd hp h
  counter_of_stream := fun h => absurd hp h
  rounds := fun h => Phase.noConfusion (hp.symm.trans h)
  feedForward := fun h => Phase.noConfusion (hp.symm.trans h)
  output := fun h => Phase.noConfusion (hp.symm.trans h)

/-- R47: the invariant speaks of what a running command works on, and of nothing else. -/
theorem of_engineView_eq {s t : State} (h : s.DatapathInv) (hview : t.engineView = s.engineView) :
    t.DatapathInv := by
  have hs : s.engineView.DatapathInv := { h with }
  rw [← hview] at hs
  exact { hs with }

theorem withTurns {s : State} (h : s.DatapathInv) (ts : List Turn) : (s.withTurns ts).DatapathInv := { h with }

/-- R112: INIT, BLOCK and STREAM start with CTR_CUR at COUNTER and BLK at 0, and go to LOAD or FIN. -/
theorem accept_startDriver (s : State) (c : Instr) {p : Phase} (hp : p = .load ∨ p = .fin) :
    (s.startDriver.accept c p).DatapathInv where
  counter_of_block := fun _ _ => rfl
  counter_of_stream := fun _ _ => (BitVec.add_zero s.counter).symm
  rounds := fun h => by subst h; simp at hp
  feedForward := fun h => by subst h; simp at hp
  output := fun h => by subst h; simp at hp

/-- R112: a command that computes no block starts in none of a block's PHASEs but as DROUND or FFWD. -/
theorem accept {s : State} {c : Instr} {p : Phase} (hc : ¬ (c = .init ∨ c = .block) ∧ c ≠ .stream)
    (hround : p = .round → c = .dround) (hffwd : p = .ffwd → c = .ffwd) (hxor : p ≠ .xor) :
    (s.accept c p).DatapathInv where
  counter_of_block := fun _ ho => absurd ho hc.1
  counter_of_stream := fun _ ho => absurd ho hc.2
  rounds := fun h ho => absurd (hround h) ho
  feedForward := fun h ho => absurd (hffwd h) ho
  output := fun h => absurd h hxor

end State.DatapathInv

/-- R112, R115, R116: what a command leaves on an idle core meets the invariant. -/
theorem State.issued_datapathInv {s : State} (hp : s.phase = .idle) (i : Instr) : (s.issued i).DatapathInv := by
  cases i with
  | nop | keyClr | nonceClr => exact .of_idle hp
  | init => exact .accept_startDriver s .init (.inl rfl)
  | block => exact .accept_startDriver s .block (.inl rfl)
  | stream =>
    refine .accept_startDriver s .stream ?_
    split
    · exact .inr rfl
    · exact .inl rfl
  | dround | ffwd | qr | add | xor | rotl16 | rotl12 | rotl8 | rotl7 =>
    exact .accept (by decide) (by decide) (by decide) (by decide)

/-! ### The datapath's invariant under each agent's step -/

/-- R46, R47: only a CMD write moves PHASE. -/
theorem writeTarget_phase {tg : Target} (hcmd : tg ≠ .cmd) {mw : Nat} {v : Word} {s t : State}
    (h : writeTarget mw tg v s = .next t) : t.phase = s.phase := by
  cases tg with
  | cmd => exact absurd rfl hcmd
  | keyIn | nonceIn | counter | msgLen | opa | opb | qa | qb | qc | qd | inBuf =>
    cases h
    unfold State.writeInput
    split <;> rfl
  | _ => cases h; rfl

/-- R47, R112: a write to an idle core leaves it idle or starts a command. -/
theorem writeTarget_idle_datapathInv {tg : Target} {v : Word} {s t : State} (hp : s.phase = .idle)
    (h : writeTarget Config.msgWords tg v s = .next t) : t.DatapathInv := by
  by_cases hcmd : tg = .cmd
  · subst hcmd
    obtain rfl | ⟨e, -, rfl⟩ | ⟨-, i, -, rfl⟩ := writeCmd_cases h
    · exact .of_idle hp
    · exact .of_idle hp
    · exact State.issued_datapathInv hp i
  · exact .of_idle ((writeTarget_phase hcmd h).trans hp)

/-- R47: an access does not disturb a running block, and finds an idle core free. -/
theorem busAccess_keeps_datapathInv {a : Access} {s t : State} (hinv : s.Inv) (h : s.DatapathInv)
    (ht : busAccess Config.msgWords a s = .next t) : t.DatapathInv := by
  cases hb : s.busy
  · have hp := hinv.phase_idle hb
    obtain ⟨-, rfl⟩ | ⟨off, n, tg, -, -, -, rfl⟩ | ⟨off, n, v, tg, -, -, -, hw⟩ := busAccess_cases ht
    · exact .of_idle hp
    · rw [readTarget_state]
      exact .of_idle hp
    · exact writeTarget_idle_datapathInv (s := s.respond _ _ _) hp hw
  · exact h.of_engineView_eq (busAccess_engineView hb (hinv.not_done_of_busy hb) ht)

/-- R164: a LOAD step starts the rounds of the state it constructs. -/
theorem loadStep_keeps_datapathInv {s : State} (h : s.DatapathInv) (hp : s.phase = .load) :
    (loadStep s).DatapathInv := by
  have hbusy : s.phase ≠ .idle := by rw [hp]; decide
  obtain ⟨-, ht⟩ | ⟨-, ht⟩ := loadStep_cases s <;> rw [ht]
  · exact .of_idle rfl
  · exact {
      counter_of_block := fun _ => h.counter_of_block hbusy
      counter_of_stream := fun _ => h.counter_of_stream hbusy
      rounds := fun _ _ => ⟨rfl, rfl⟩
      feedForward := Phase.noConfusion
      output := Phase.noConfusion }

/-- R149, R150: a ROUND step does the next group of the schedule. -/
theorem applyGroup_sched_mixGroups (i : Fin 8) (w : Vector Word 16) :
    applyGroup sched[i] (mixGroups i.val w) = mixGroups (i.val + 1) w := by
  have hi : i.val % 8 = i.val := Nat.mod_eq_of_lt i.isLt
  rw [mixGroups_succ]
  simp only [hi]
  rfl

/-- R150, R165: a ROUND step takes W one quarter round on, the eighth closes a double round, and the eightieth ends the
rounds. -/
theorem roundStep_keeps_datapathInv {s : State} (h : s.DatapathInv) (hp : s.phase = .round) :
    (roundStep s).DatapathInv := by
  have hbusy : s.phase ≠ .idle := by rw [hp]; decide
  have hw (ho : s.opc ≠ .dround) : s.sReg = buildState s.key s.nonce s.ctrCur ∧
      s.mixGroup.wReg = mixGroups (s.qi.val + 1) (doubleRounds s.dr s.sReg) := by
    obtain ⟨hS, hW⟩ := h.rounds hp ho
    exact ⟨hS, by rw [State.mixGroup_wReg, hW, applyGroup_sched_mixGroups]⟩
  obtain ⟨-, ht, hq⟩ | ⟨-, -, ht⟩ | ⟨hq, ho, hd, ht⟩ | ⟨hq, ho, -, ht⟩ := roundStep_cases s <;> rw [ht]
  · exact {
      counter_of_block := fun _ => h.counter_of_block hbusy
      counter_of_stream := fun _ => h.counter_of_stream hbusy
      rounds := fun _ ho => by rw [hq]; exact hw ho
      feedForward := fun hf => Phase.noConfusion (hp.symm.trans hf)
      output := fun hx => Phase.noConfusion (hp.symm.trans hx) }
  · exact .of_idle rfl
  · rw [hq] at hw
    exact {
      counter_of_block := fun _ => h.counter_of_block hbusy
      counter_of_stream := fun _ => h.counter_of_stream hbusy
      rounds := Phase.noConfusion
      feedForward := fun _ _ => hd ▸ hw ho
      output := Phase.noConfusion }
  · rw [hq] at hw
    exact {
      counter_of_block := fun _ => h.counter_of_block hbusy
      counter_of_stream := fun _ => h.counter_of_stream hbusy
      rounds := fun _ => hw
      feedForward := fun hf => Phase.noConfusion (hp.symm.trans hf)
      output := fun hx => Phase.noConfusion (hp.symm.trans hx) }

/-- R167, R171: the feed-forward of a STREAM block leaves the block function in W. -/
theorem ffwdStep_keeps_datapathInv {s t : State} (h : s.DatapathInv) (hp : s.phase = .ffwd)
    (ht : ffwdStep s = .next t) : t.DatapathInv := by
  have hbusy : s.phase ≠ .idle := by rw [hp]; decide
  obtain ⟨-, hf⟩ | ⟨-, hf⟩ | ⟨ho, hf⟩ | ⟨-, -, -, hf⟩ := ffwdStep_cases s <;> rw [hf] at ht <;> cases ht
  · exact .of_idle rfl
  · exact .of_idle rfl
  · obtain ⟨hS, hW⟩ := h.feedForward hp (by rw [ho]; decide)
    exact {
      counter_of_block := fun _ => h.counter_of_block hbusy
      counter_of_stream := fun _ => h.counter_of_stream hbusy
      rounds := Phase.noConfusion
      feedForward := Phase.noConfusion
      output := fun _ => ⟨hS, by rw [State.addOriginal_wReg, hW, hS]; rfl⟩ }

/-- R186, R187: CTR_CUR and BLK move on together. -/
theorem xorStep_keeps_datapathInv {s : State} (hinv : s.Inv) (h : s.DatapathInv) (hp : s.phase = .xor) :
    (xorStep s).DatapathInv := by
  have hc := hinv.controller
  simp only [State.controllerInv, hp] at hc
  obtain ⟨⟨ho, -⟩, -⟩ := hc
  have hctr : s.ctrCur + 1#32 = s.counter + BitVec.ofNat 32 (s.blk + 1) := by
    rw [h.counter_of_stream (by rw [hp]; decide) ho, BitVec.ofNat_add, BitVec.add_assoc]
  have hcases := xorStep_cases s
  generalize s.xorBlock.outBuf = out at hcases
  obtain ⟨-, ht⟩ | ⟨-, ht⟩ := hcases <;> rw [ht]
  · exact .of_idle rfl
  · exact {
      counter_of_block := fun _ hblock => by simp [ho] at hblock
      counter_of_stream := fun _ _ => hctr
      rounds := Phase.noConfusion
      feedForward := Phase.noConfusion
      output := Phase.noConfusion }

/-- R109: a Core step keeps the invariant in every PHASE; ALU, QRT and FIN end in IDLE. -/
theorem coreStep_keeps_datapathInv {s t : State} (hinv : s.Inv) (h : s.DatapathInv) (ht : coreStep s = .next t) :
    t.DatapathInv := by
  cases hp : s.phase <;> simp only [coreStep, hp] at ht
  case idle => exact Host.Outcome.next.inj ht ▸ h
  case alu =>
    obtain ⟨r, -, -, ha⟩ | ⟨-, ha⟩ := aluStep_cases s <;> rw [ha] at ht <;> cases ht
    exact .of_idle rfl
  case qrt => exact Host.Outcome.next.inj ht ▸ .of_idle rfl
  case load => exact Host.Outcome.next.inj ht ▸ loadStep_keeps_datapathInv h hp
  case round => exact Host.Outcome.next.inj ht ▸ roundStep_keeps_datapathInv h hp
  case ffwd => exact ffwdStep_keeps_datapathInv h hp ht
  case xor => exact Host.Outcome.next.inj ht ▸ xorStep_keeps_datapathInv hinv h hp
  case fin => exact Host.Outcome.next.inj ht ▸ .of_idle rfl

theorem coreTurn_keeps_datapathInv {s t : State} (hinv : s.Inv) (h : s.DatapathInv) (ht : coreTurn s = .next t) :
    t.DatapathInv := by
  unfold coreTurn at ht
  split at ht
  · exact coreStep_keeps_datapathInv hinv h ht
  · exact Host.Outcome.next.inj ht ▸ h

theorem resetPinTurn_keeps_datapathInv {s : State} (h : s.DatapathInv) (level : Bool) :
    (resetPinTurn level s).DatapathInv := by
  unfold resetPinTurn
  split
  · exact h
  · exact .of_idle rfl

/-- Settles O55: a step is one agent's, and each agent's step keeps the invariant. -/
theorem stepKeepsDatapathInvariant : Obligations.StepKeepsDatapathInvariant := by
  intro s t hinv h ht
  obtain ⟨-, hs⟩ | ⟨ts, -, hs⟩ | ⟨a, ts, -, hs⟩ | ⟨level, ts, -, hs⟩ := step_cases s <;> rw [hs] at ht
  · exact coreTurn_keeps_datapathInv hinv h ht
  · exact coreTurn_keeps_datapathInv (hinv.withTurns ts) (h.withTurns ts) ht
  · exact busAccess_keeps_datapathInv (hinv.withTurns ts) (h.withTurns ts) ht
  · exact Host.Outcome.next.inj ht ▸ resetPinTurn_keeps_datapathInv (h.withTurns ts) level

end Sys2Proof.Machine
end

section
/-! PROOFS. The family 42_quarter_round: the laws of the quarter round and of the schedule's groups, and the two test
commands of the round engine. -/

namespace Sys2Proof.Machine

/-! ### The quarter round as four half-lines (R146, R154) -/

/-- R146: half a line of the listing, `x = x + y;  z = z XOR x;  z = rotl(z, n)`, with `a`, `b`, `d` for `x`, `y`, `z`. -/
def Quad.mix (n : Nat) (q : Quad) : Quad :=
  let a := add32 q.a q.b
  ⟨a, q.b, q.c, rotl32 (xor32 q.d a) n⟩

/-- The pairs (a, b) and (c, d) exchanged, so that `mix` does the other half of a line too. -/
def Quad.swap (q : Quad) : Quad := ⟨q.c, q.d, q.a, q.b⟩

/-- R147: the twelve statements are four half-lines of three. -/
theorem quarterRound_eq_mixes : quarterRound =
    (Quad.swap ∘ Quad.mix 7) ∘ (Quad.swap ∘ Quad.mix 8) ∘ (Quad.swap ∘ Quad.mix 12) ∘ (Quad.swap ∘ Quad.mix 16) := rfl

/-- R154: each of the three statements is invertible given the others. -/
theorem Quad.mix_injective {n : Nat} (hn : n < 32) : Function.Injective (Quad.mix n) := by
  rintro ⟨a, b, c, d⟩ ⟨a', b', c', d'⟩ h
  obtain ⟨hsum, rfl, rfl, hrot⟩ := Quad.mk.inj h
  obtain rfl : a = a' := (BitVec.add_left_inj b).mp hsum
  have hxor : xor32 d (add32 a b) = xor32 d' (add32 a b) := rotl32_injective hn hrot
  obtain rfl : d = d' := (BitVec.xor_left_inj _).mp hxor
  rfl

theorem Quad.swap_injective : Function.Injective Quad.swap :=
  Function.LeftInverse.injective (g := Quad.swap) fun _ => rfl

/-- R154: no two quadruples have the same quarter round. -/
theorem quarterRound_injective : Function.Injective quarterRound := by
  have half {n : Nat} (hn : n < 32) : Function.Injective (Quad.swap ∘ Quad.mix n) :=
    Quad.swap_injective.comp (Quad.mix_injective hn)
  rw [quarterRound_eq_mixes]
  exact (half (by decide)).comp <| (half (by decide)).comp <| (half (by decide)).comp <| half (by decide)

/-! ### A group of words of W (R148, R149) -/

/-- R148: `i` is one of the group's four indices. -/
def Group.Has (g : Group) (i : Fin 16) : Prop := i = g.p ∨ i = g.q ∨ i = g.r ∨ i = g.s

/-- R148: the group's indices are distinct. -/
def Group.Distinct (g : Group) : Prop :=
  g.p ≠ g.q ∧ g.p ≠ g.r ∧ g.p ≠ g.s ∧ g.q ≠ g.r ∧ g.q ≠ g.s ∧ g.r ≠ g.s

/-- R149: the group's four words of W. -/
def Group.read (g : Group) (w : Vector Word 16) : Quad := ⟨w[g.p], w[g.q], w[g.r], w[g.s]⟩

/-- The group's words are the same exactly when W is the same at each of its indices. -/
theorem Group.read_eq_iff {g : Group} {v w : Vector Word 16} : g.read v = g.read w ↔ ∀ i, g.Has i → v[i] = w[i] := by
  simp [Group.read, Group.Has]

/-- R149: the group's words become their quarter round. -/
theorem read_applyGroup {g : Group} (hg : g.Distinct) (w : Vector Word 16) :
    g.read (applyGroup g w) = quarterRound (g.read w) := by
  obtain ⟨hpq, hpr, hps, hqr, hqs, hrs⟩ := hg
  exact applyGroup_quad g w hpq hpr hps hqr hqs hrs

/-- R149: every other word stays. -/
theorem applyGroup_of_not_has {g : Group} {i : Fin 16} (hi : ¬ g.Has i) (w : Vector Word 16) :
    (applyGroup g w)[i] = w[i] := by
  simp only [Group.Has, not_or] at hi
  obtain ⟨hp, hq, hr, hs⟩ := hi
  exact applyGroup_other g w i hp hq hr hs

/-- W is its sixteen words. -/
theorem words_ext {v w : Vector Word 16} (h : ∀ i : Fin 16, v[i] = w[i]) : v = w :=
  Vector.ext fun i hi => h ⟨i, hi⟩

/-! ### Bijectivity (R154) -/

theorem applyGroup_injective {g : Group} (hg : g.Distinct) : Function.Injective (applyGroup g) := by
  intro v w h
  have hread : g.read v = g.read w :=
    quarterRound_injective (by rw [← read_applyGroup hg, ← read_applyGroup hg, h])
  refine words_ext fun i => ?_
  by_cases hi : g.Has i
  · exact Group.read_eq_iff.mp hread i hi
  · rw [← applyGroup_of_not_has hi v, ← applyGroup_of_not_has hi w, h]

theorem mixGroups_injective (n : Nat) : Function.Injective (mixGroups n) := by
  induction n with
  | zero => exact Function.injective_id
  | succ n ih => exact (applyGroup_injective (sched_distinct ⟨n % 8, Nat.mod_lt _ (by decide)⟩)).comp ih

theorem doubleRound_injective : Function.Injective doubleRound := by
  have hmix : mixGroups 8 = doubleRound := funext mixGroups_eight
  exact hmix ▸ mixGroups_injective 8

theorem finite_quad : Finite Quad :=
  Finite.of_injective (fun q : Quad => (q.a, q.b, q.c, q.d)) fun q q' h => by
    cases q
    cases q'
    simpa using h

theorem finite_words : Finite (Vector Word 16) :=
  Finite.of_injective (fun (w : Vector Word 16) (i : Fin 16) => w[i]) fun _ _ h => words_ext (congrFun h)

/-- Settles O17: both are injective, on finite types. -/
theorem roundsAreBijective : Obligations.RoundsAreBijective := by
  have := finite_quad
  have := finite_words
  exact ⟨Finite.injective_iff_bijective.mp quarterRound_injective,
    Finite.injective_iff_bijective.mp doubleRound_injective⟩

/-! ### Order within a round (R148) -/

/-- Two groups that share no index. -/
def Group.Apart (g h : Group) : Prop := ∀ i, ¬ (g.Has i ∧ h.Has i)

theorem Group.Apart.symm {g h : Group} (hgh : g.Apart h) : h.Apart g := fun i hi => hgh i hi.symm

/-- R148: the groups of one round cover W exactly once. -/
theorem sched_apart {i j : Fin 8} (hround : i.val / 4 = j.val / 4) (hij : i ≠ j) : sched[i].Apart sched[j] := by
  revert i j
  unfold Group.Apart Group.Has
  decide

/-- A group reads nothing of what a group apart from it has done. -/
theorem read_applyGroup_apart {g h : Group} (hgh : g.Apart h) (w : Vector Word 16) :
    g.read (applyGroup h w) = g.read w :=
  Group.read_eq_iff.mpr fun i hi => applyGroup_of_not_has (fun hh => hgh i ⟨hi, hh⟩) w

/-- In either order the words of one of the two groups are the quarter round of what they were. -/
theorem read_applyGroup_comm {g h : Group} (hg : g.Distinct) (hgh : g.Apart h) (w : Vector Word 16) :
    g.read (applyGroup g (applyGroup h w)) = g.read (applyGroup h (applyGroup g w)) := by
  rw [read_applyGroup hg, read_applyGroup_apart hgh, read_applyGroup_apart hgh, read_applyGroup hg]

theorem applyGroup_comm {g h : Group} (hg : g.Distinct) (hh : h.Distinct) (hgh : g.Apart h) (w : Vector Word 16) :
    applyGroup g (applyGroup h w) = applyGroup h (applyGroup g w) := by
  refine words_ext fun i => ?_
  by_cases hig : g.Has i
  · exact Group.read_eq_iff.mp (read_applyGroup_comm hg hgh w) i hig
  by_cases hih : h.Has i
  · exact (Group.read_eq_iff.mp (read_applyGroup_comm hh hgh.symm w) i hih).symm
  · simp only [applyGroup_of_not_has hig, applyGroup_of_not_has hih]

/-- Settles O18: two groups of one round are the same one, or apart. -/
theorem quarterRoundsOfARoundCommute : Obligations.QuarterRoundsOfARoundCommute := by
  intro i j w hround
  by_cases hij : i = j
  · rw [hij]
  · exact applyGroup_comm (sched_distinct i) (sched_distinct j) (sched_apart hround hij) w

/-! ### The ROUND step (R150) -/

/-- R150: whatever the controller does, W takes the group of QI. -/
theorem roundStep_wReg (s : State) : (roundStep s).wReg = applyGroup sched[s.qi] s.wReg := by
  obtain ⟨-, h, -⟩ | ⟨-, -, h⟩ | ⟨-, -, -, h⟩ | ⟨-, -, -, h⟩ := roundStep_cases s <;> rw [h] <;> rfl

/-- R148: the row of the schedule's table for QI `i`. -/
def schedRow (i : Fin 8) : Nat × Fin 16 × Fin 16 × Fin 16 × Fin 16 :=
  (i.val, sched[i].p, sched[i].q, sched[i].r, sched[i].s)

/-- R148: the table written out. -/
theorem schedRows_eq : (List.finRange 8).map schedRow =
    [(0, 0, 4, 8, 12), (1, 1, 5, 9, 13), (2, 2, 6, 10, 14), (3, 3, 7, 11, 15),
     (4, 0, 5, 10, 15), (5, 1, 6, 11, 12), (6, 2, 7, 8, 13), (7, 3, 4, 9, 14)] := by decide

/-- Settles O20: the group does the quarter round, and `roundStep_cases` says how the controller moves. -/
theorem roundStepFollowsTheSchedule : Obligations.RoundStepFollowsTheSchedule := by
  intro s p q r d hp hrow
  rw [← schedRows_eq] at hrow
  obtain ⟨i, -, hi⟩ := List.mem_map.mp hrow
  simp only [schedRow, Prod.mk.injEq] at hi
  obtain ⟨hqi, rfl, rfl, rfl, rfl⟩ := hi
  obtain rfl : i = s.qi := Fin.ext hqi
  refine ⟨roundStep s, by simp only [coreStep, hp], ?_, fun i hip hiq hir his => ?_, ?_⟩
  · rw [roundStep_wReg]
    exact read_applyGroup (sched_distinct s.qi) s.wReg
  · rw [roundStep_wReg]
    exact applyGroup_other _ _ i hip hiq hir his
  · obtain ⟨h7, h, hq⟩ | ⟨h7, ho, h⟩ | ⟨h7, ho, hd, h⟩ | ⟨h7, ho, hd, h⟩ := roundStep_cases s <;> rw [h]
    · exact ⟨fun _ => ⟨rfl, hq⟩, by omega, by omega, by omega⟩
    · exact ⟨by omega, fun _ _ => rfl, fun _ hn => absurd ho hn, fun _ hn => absurd ho hn⟩
    · exact ⟨by omega, fun _ hn => absurd hn ho, fun _ _ _ => rfl, fun _ _ hn => absurd hd hn⟩
    · exact ⟨by omega, fun _ hn => absurd hn ho, fun _ _ hn => absurd hn hd, fun _ _ _ => rfl⟩

/-! ### The commands (R151, R153) -/

/-- R110 to R112: a command with nothing to validate is carried out on an idle core and refused by a busy one. -/
theorem exec_unchecked {i : Instr} (hn : i ≠ .nop) {s : State} (hc : s.checkCommand i = none) :
    (s.busy = false → exec i s = .next (s.issued i)) ∧
    (s.busy = true → exec i s = .next (s.raise .commandWhileBusy)) := by
  rw [exec_eq_issueCompute hn, hc]
  exact ⟨fun hb => by rw [issueCompute_pass _ hb], fun hb => by rw [issueCompute_busy _ _ hb]⟩

/-- R152: the one Core step of an accepted QR. -/
theorem run_qr {s : State} (hq : s.quiet) :
    runSteps 1 (s.accept .qr .qrt) = .next ((s.accept .qr .qrt).setQuad (quarterRound s.quad)).complete := by
  rw [run_one, (hq.running_accept .qr .qrt).step_eq]
  rfl

/-- Settles O15: the twelve statements are the model's own, each rotation in the library's form. -/
theorem quarterRoundCommand : Obligations.QuarterRoundCommand := by
  refine ⟨decode_encode .qr, ?_⟩
  rintro s _ _ _ _ _ _ _ _ _ _ _ _ rfl rfl rfl rfl rfl rfl rfl rfl rfl rfl rfl rfl
  obtain ⟨haccept, hbusy⟩ := exec_unchecked (i := .qr) (by decide) (s := s) rfl
  exact ⟨haccept, run_qr, hbusy⟩

/-- Settles O16: the model computes the published vector. -/
theorem quarterRoundVector : Obligations.QuarterRoundVector := by
  unfold Obligations.QuarterRoundVector
  decide

/-- Settles O19: an accepted DROUND is in PHASE ROUND at the first group, so its eight steps are one double round. -/
theorem doubleRoundCommand : Obligations.DoubleRoundCommand := by
  refine ⟨decode_encode .dround, fun s => ?_⟩
  obtain ⟨haccept, hbusy⟩ := exec_unchecked (i := .dround) (by decide) (s := s) rfl
  refine ⟨haccept, fun hq => ?_, hbusy⟩
  have hquiet : s.startRounds.quiet := hq
  exact run_doubleRound (hquiet.running_accept .dround .round) rfl

end Sys2Proof.Machine
end

section
/-! PROOFS. The family 43_block: the layout of the constructed state, and the commands INIT, FFWD and BLOCK. -/

namespace Sys2Proof.Machine

/-! ### State construction (R160) -/

/-- R160: words 4 to 11 are the key. -/
theorem buildState_key (k : Vector Word 8) (n : Vector Word 3) (c : Word) (i : Fin 8) :
    (buildState k n c)[4 + i.val] = k[i] := by
  fin_cases i <;> rfl

/-- R160: words 13 to 15 are the nonce. -/
theorem buildState_nonce (k : Vector Word 8) (n : Vector Word 3) (c : Word) (i : Fin 3) :
    (buildState k n c)[13 + i.val] = n[i] := by
  fin_cases i <;> rfl

/-- Settles O21: the constants and the counter stand in the model's table as they are. -/
theorem buildStateLayout : Obligations.BuildStateLayout := fun k n c =>
  ⟨rfl, rfl, rfl, rfl, buildState_key k n c, rfl, buildState_nonce k n c⟩

/-! ### Issuing a command that checks the key and the nonce alone (R110, R111) -/

/-- R111: the key check fails first, whatever the nonce is. -/
theorem State.checkKeyNonce_badKey {s : State} (hk : s.keyCnt ≠ 8#4) :
    s.checkKeyNonce = some .invalidKeyLength := if_pos hk

/-- R111: with the key loaded the nonce check is the next. -/
theorem State.checkKeyNonce_badNonce {s : State} (hk : s.keyCnt = 8#4) (hn : s.nonceCnt ≠ 3#4) :
    s.checkKeyNonce = some .invalidNonceLength := (if_neg (not_not_intro hk)).trans (if_pos hn)

/-- R110: a busy core refuses every command but NOP before any check. -/
theorem exec_busy {i : Instr} (hi : i ≠ .nop) {s : State} (hb : s.busy = true) :
    exec i s = .next (s.raise .commandWhileBusy) := by
  rw [exec_eq_issueCompute hi, issueCompute_busy _ _ hb]

/-- R110, R111: on an idle core the first check that fails is recorded. -/
theorem exec_rejected {i : Instr} {s : State} {e : ErrorCode} (hb : s.busy = false)
    (hc : s.checkCommand i = some e) : exec i s = .next (s.raise e) := by
  have hi : i ≠ .nop := by
    rintro rfl
    cases hc
  rw [exec_eq_issueCompute hi, hc, issueCompute_fail _ _ hb]

/-- R110 to R112: what the issues of INIT and BLOCK have in common. -/
theorem exec_keyNonceChecked {i : Instr} (hi : i = .init ∨ i = .block) (s : State) :
    (s.busy = false → s.loaded → exec i s = .next (s.issued i)) ∧
    (s.busy = false → s.keyCnt ≠ 8#4 → exec i s = .next (s.raise .invalidKeyLength)) ∧
    (s.busy = false → s.keyCnt = 8#4 → s.nonceCnt ≠ 3#4 → exec i s = .next (s.raise .invalidNonceLength)) ∧
    (s.busy = true → exec i s = .next (s.raise .commandWhileBusy)) := by
  have hcheck : s.checkCommand i = s.checkKeyNonce := by obtain rfl | rfl := hi <;> rfl
  have hnop : i ≠ .nop := by obtain rfl | rfl := hi <;> decide
  refine ⟨fun hb hl => ?_, fun hb hk => ?_, fun hb hk hn => ?_, exec_busy hnop⟩
  · exact (exec_unchecked hnop (hcheck.trans (State.checkKeyNonce_loaded hl))).1 hb
  · exact exec_rejected hb (hcheck.trans (State.checkKeyNonce_badKey hk))
  · exact exec_rejected hb (hcheck.trans (State.checkKeyNonce_badNonce hk hn))

/-! ### The Core steps of the commands (R164, R165, R167) -/

/-- R112: a driver command accepted by a core left alone starts in PHASE LOAD. -/
theorem State.quiet.running_driver {s : State} (h : s.quiet) (c : Instr) :
    (s.startDriver.accept c .load).Running .load :=
  State.quiet.running_accept (s := s.startDriver) h c .load

/-- R162, R164: the one Core step of an accepted INIT completes. -/
theorem run_init {s : State} (hq : s.quiet) :
    runSteps 1 (s.issued .init) = .next { s.issued .init with
      sReg := buildState s.key s.nonce s.counter, wReg := buildState s.key s.nonce s.counter
      dr := 0, qi := 0 }.complete := by
  rw [run_one]
  exact (hq.running_driver .init).step_load

/-- R167: the one Core step of an accepted FFWD. -/
theorem run_ffwd {s : State} (hq : s.quiet) :
    runSteps 1 (s.issued .ffwd) = .next (s.issued .ffwd).addOriginal.complete := by
  rw [run_one]
  exact (hq.running_accept .ffwd .ffwd).step_ffwd

/-- R167: the FFWD step of a BLOCK moves the counter on and completes. -/
theorem ffwdStep_block {s : State} (ho : s.opc = .block) :
    ffwdStep s = .next { s.addOriginal with ctrCur := s.ctrCur + 1#32, blocksDone := 1#32 }.complete := by
  simp only [ffwdStep, ho]
  rfl

/-- R164, R165, R167: the 82 Core steps of BLOCK: LOAD and the rounds, then the feed-forward. -/
theorem run_block {s : State} (h : s.Running .load) (ho : s.opc = .block) :
    runSteps 82 s = .next { s with
      sReg := buildState s.key s.nonce s.ctrCur, wReg := blockFunction s.key s.nonce s.ctrCur
      ctrCur := s.ctrCur + 1#32, blocksDone := 1#32, dr := 10, qi := 0
      busy := false, done := true, phase := .idle } := by
  have hrounds := run_loadAndRounds h (by rw [ho]; decide) (by rw [ho]; decide)
  rw [show runSteps 82 s = runSteps 1 _ from run_add 81 1 hrounds, run_one]
  refine (State.Running.step_ffwd ?_).trans (ffwdStep_block ?_)
  · exact ⟨h.turns, h.rstN, h.busy, rfl⟩
  · exact ho

/-! ### The commands (R162, R168, R169) -/

/-- Settles O22: INIT shares its checks with BLOCK, and its one step is LOAD. -/
theorem initCommand : Obligations.InitCommand := by
  refine ⟨decode_encode .init, fun s => ?_⟩
  obtain ⟨haccept, hrejected⟩ := exec_keyNonceChecked (.inl rfl) s
  exact ⟨haccept, run_init, hrejected⟩

/-- Settles O23: FFWD has nothing to validate, and each lane of its sum is the library's own addition. -/
theorem feedForwardCommand : Obligations.FeedForwardCommand := by
  refine ⟨decode_encode .ffwd, fun s => ?_⟩
  obtain ⟨haccept, hbusy⟩ := exec_unchecked (i := .ffwd) (by decide) (s := s) rfl
  refine ⟨haccept, fun hq => ⟨_, run_ffwd hq, fun i => ?_, rfl⟩, hbusy⟩
  have hlane : (feedForward s.wReg s.sReg)[i] = s.wReg[i] + s.sReg[i] := feedForward_getElem s.wReg s.sReg i
  exact (congrArg BitVec.toNat hlane).trans (BitVec.toNat_add _ _)

/-- Settles O24: an accepted BLOCK is in PHASE LOAD with CTR_CUR = COUNTER, where its 82 steps start. -/
theorem blockCommand : Obligations.BlockCommand := by
  refine ⟨decode_encode .block, fun s => ?_⟩
  obtain ⟨haccept, hrejected⟩ := exec_keyNonceChecked (.inr rfl) s
  exact ⟨haccept, fun hq => run_block (hq.running_driver .block) rfl, hrejected⟩

end Sys2Proof.Machine
end

section
/-! PROOFS. The family 44_stream: the XOR step, the run of a whole STREAM word by word, and its output as the cipher's
bytes. -/

namespace Sys2Proof.Machine

/-! ### The keystream (R188) -/

/-- R188: the first sixteen keystream words are the block of the first counter. -/
theorem keystreamWord_first (k : Vector Word 8) (n : Vector Word 3) (c : Word) (i : Fin 16) :
    keystreamWord k n c i.val = (blockFunction k n c)[i] := by
  have hdiv : i.val / 16 = 0 := by omega
  have hmod : i.val % 16 = i.val := by omega
  simp [keystreamWord, hdiv, hmod]

/-- R187, R194: the keystream from block `j` on is the keystream whose first counter is `j` more. -/
theorem keystreamWord_add (k : Vector Word 8) (n : Vector Word 3) (c : Word) (j g : Nat) :
    keystreamWord k n c (16 * j + g) = keystreamWord k n (c + BitVec.ofNat 32 j) g := by
  have hdiv : (16 * j + g) / 16 = j + g / 16 := by omega
  have hmod : (16 * j + g) % 16 = g % 16 := by omega
  simp only [keystreamWord, hdiv, hmod, BitVec.ofNat_add, BitVec.add_assoc]

theorem keystreamByte_add (k : Vector Word 8) (n : Vector Word 3) (c : Word) (j p : Nat) :
    keystreamByte k n c (64 * j + p) = keystreamByte k n (c + BitVec.ofNat 32 j) p := by
  have hdiv : (64 * j + p) / 4 = 16 * j + p / 4 := by omega
  have hmod : (64 * j + p) % 4 = p % 4 := by omega
  rw [keystreamByte, hdiv, hmod, keystreamWord_add, keystreamByte]

/-! ### Bytes of words (R14, R67, R184) -/

theorem byteOf_xor (v w : Word) (i : Nat) : byteOf (v ^^^ w) i = byteOf v i ^^^ byteOf w i :=
  BitVec.extractLsb'_xor

theorem byteOf_and (v w : Word) (i : Nat) : byteOf (v &&& w) i = byteOf v i &&& byteOf w i :=
  BitVec.extractLsb'_and

/-- R184: the mask keeps its first `m` bytes and clears the others. -/
theorem byteOf_byteMask {m i : Nat} (h1 : 1 ≤ m) (h4 : m ≤ 4) (hi : i < 4) :
    byteOf (byteMask m) i = if i < m then BitVec.allOnes 8 else 0#8 := by
  interval_cases m <;> interval_cases i <;> decide

/-- R67: byte `p` of IN is a byte of its word. -/
theorem State.inByte_eq (s : State) (p : Nat) : s.inByte p = byteOf (s.inWord (p / 4)) (p % 4) := by
  rw [State.inWord, Buffer.byteOf_readWord _ _ _ _ (Nat.mod_lt p (by decide)), Nat.div_add_mod]
  rfl

/-- R67: byte `p` of OUT is a byte of its word. -/
theorem State.outByte_eq (s : State) (p : Nat) : s.outByte p = byteOf (s.outWord (p / 4)) (p % 4) := by
  rw [State.outWord, Buffer.byteOf_readWord _ _ _ _ (Nat.mod_lt p (by decide)), Nat.div_add_mod]
  rfl

/-- R67: a word of OUT is settled by its four bytes. -/
theorem State.outWord_congr {s t : State} {g : Nat} (h : ∀ p, p / 4 = g → t.outByte p = s.outByte p) :
    t.outWord g = s.outWord g := by
  have hbyte : ∀ i, i < 4 → t.outByte (4 * g + i) = s.outByte (4 * g + i) := fun i hi => h _ (by omega)
  show le (t.outByte (4 * g + 0)) (t.outByte (4 * g + 1)) (t.outByte (4 * g + 2)) (t.outByte (4 * g + 3)) = _
  rw [hbyte 0 (by decide), hbyte 1 (by decide), hbyte 2 (by decide), hbyte 3 (by decide)]
  rfl

/-- R184, R186, R188: a byte of a cipher word is message byte XOR keystream byte inside the message, and 0 past it. -/
theorem State.byteOf_cipherWord (s : State) (w : Word) {p : Nat} (hp : 4 * (p / 4) < s.msgLen.toNat) :
    byteOf (s.cipherWord w (p / 4)) (p % 4) =
      if p < s.msgLen.toNat then s.inByte p ^^^ byteOf w (p % 4) else 0#8 := by
  have hmask := byteOf_byteMask (m := min 4 (s.msgLen.toNat - 4 * (p / 4))) (i := p % 4)
    (by omega) (by omega) (by omega)
  rw [State.cipherWord, byteOf_and, byteOf_xor, hmask, ← State.inByte_eq]
  by_cases hlen : p < s.msgLen.toNat
  · rw [if_pos (by omega), if_pos hlen, BitVec.and_allOnes]
  · rw [if_neg (by omega), if_neg hlen, BitVec.and_zero]

/-! ### The XOR step (R186) -/

/-- R186: in OUT an XOR step does what its output stage does. -/
theorem xorStep_output (s : State) :
    (xorStep s).outBuf = s.xorBlock.outBuf ∧ (xorStep s).epoch = s.xorBlock.epoch := by
  rw [s.xorBlock_epoch]
  have hx := xorStep_cases s
  generalize s.xorBlock.outBuf = out at hx ⊢
  rcases hx with ⟨-, h⟩ | ⟨-, h⟩ <;> rw [h] <;> exact ⟨rfl, rfl⟩

section
variable {s : State}

theorem xorStep_outByte (p : Nat) : (xorStep s).outByte p = s.xorBlock.outByte p := by
  obtain ⟨hbuf, hepoch⟩ := xorStep_output s
  rw [State.outByte, State.outByte, hbuf, hepoch]

/-- R186: the XOR step writes each word of its block that the message reaches. -/
theorem xorStep_outWord (hwf : s.outBuf.wf = true) (i : Fin 16) (hi : 4 * (16 * s.blk + i) < s.msgLen.toNat) :
    (xorStep s).outWord (16 * s.blk + i) = s.cipherWord s.wReg[i] (16 * s.blk + i) :=
  (State.outWord_congr fun p _ => xorStep_outByte p).trans (s.xorBlock_outWord hwf i hi)

/-- R186: the XOR step leaves the bytes outside its block's part of the message. -/
theorem xorStep_outByte_other (hwf : s.outBuf.wf = true) (p : Nat)
    (hp : p < 64 * s.blk ∨ 64 * s.blk + 64 ≤ p ∨ s.msgLen.toNat ≤ 4 * (p / 4)) :
    (xorStep s).outByte p = s.outByte p :=
  (xorStep_outByte p).trans (s.xorBlock_outByte_other hwf p hp)

theorem xorStep_wf (hwf : s.outBuf.wf = true) : (xorStep s).outBuf.wf = true := by
  rw [(xorStep_output s).1]
  exact s.xorBlock_wf hwf

/-- R186: the XOR step of the message's last block completes. -/
theorem xorStep_last (h : s.msgLen.toNat ≤ 64 * (s.blk + 1)) : xorStep s = { s with
    outBuf := (xorStep s).outBuf, ctrCur := s.ctrCur + 1#32, blk := s.blk + 1, blocksDone := BitVec.ofNat 32 (s.blk + 1)
    busy := false, done := true, phase := .idle } := by
  rcases xorStep_cases s with ⟨-, hx⟩ | ⟨hn, -⟩
  · rw [(xorStep_output s).1, ← hx]
  · omega

/-- R186: any other XOR step goes on to the LOAD of the next block. -/
theorem xorStep_more (h : 64 * (s.blk + 1) < s.msgLen.toNat) : xorStep s = { s with
    outBuf := (xorStep s).outBuf, ctrCur := s.ctrCur + 1#32, blk := s.blk + 1, blocksDone := BitVec.ofNat 32 (s.blk + 1)
    phase := .load } := by
  rcases xorStep_cases s with ⟨hn, -⟩ | ⟨-, hx⟩
  · omega
  · rw [(xorStep_output s).1, ← hx]

end

/-- Settles O32: the step is `xorStep`, whose words, other bytes and two exits are the lemmas above. -/
theorem xorStepWritesItsBlock : Obligations.XorStepWritesItsBlock := by
  intro s hp hwf
  refine ⟨xorStep s, by simp only [coreStep, hp], ?_, xorStep_outByte_other hwf, xorStep_last, xorStep_more⟩
  rintro i _ rfl hlen
  exact xorStep_outWord hwf i hlen

/-! ### The run of a STREAM, block by block (R183, R186) -/

/-- R187: the counter of the block after, `n` blocks on. -/
theorem add_one_add_ofNat (c : Word) (n : Nat) : c + 1#32 + BitVec.ofNat 32 n = c + BitVec.ofNat 32 (n + 1) := by
  rw [BitVec.add_assoc, BitVec.add_comm 1#32, BitVec.ofNat_add]

/-- R165: the datapath of a STREAM at the XOR step of the block it is about to load. -/
def State.blockReady (t : State) : State :=
  { t with
    sReg := buildState t.key t.nonce t.ctrCur, wReg := blockFunction t.key t.nonce t.ctrCur
    dr := 10, qi := 0, phase := .xor }

/-- What a STREAM in PHASE LOAD with `n + 1` blocks to come leaves when it completes. -/
structure State.StreamEnd (t : State) (n : Nat) (u : State) : Prop where
  words : ∀ g, 4 * (16 * t.blk + g) < t.msgLen.toNat →
    u.outWord (16 * t.blk + g) = t.cipherWord (keystreamWord t.key t.nonce t.ctrCur g) (16 * t.blk + g)
  otherBytes : ∀ p, p < 64 * t.blk ∨ t.msgLen.toNat ≤ 4 * (p / 4) → u.outByte p = t.outByte p
  rest : u = { t with
    outBuf := u.outBuf
    wReg := blockFunction t.key t.nonce (t.ctrCur + BitVec.ofNat 32 n)
    sReg := buildState t.key t.nonce (t.ctrCur + BitVec.ofNat 32 n)
    ctrCur := t.ctrCur + BitVec.ofNat 32 (n + 1), blocksDone := BitVec.ofNat 32 (t.blk + n + 1)
    blk := t.blk + n + 1, dr := 10, qi := 0
    busy := false, done := true, phase := .idle }

section
variable {t : State} (hwf : t.outBuf.wf = true)
include hwf

/-- R186: the block that a STREAM loads next puts its sixteen keystream words on the message. -/
theorem blockReady_outWord (i : Fin 16) (hi : 4 * (16 * t.blk + i) < t.msgLen.toNat) :
    (xorStep t.blockReady).outWord (16 * t.blk + i) =
      t.cipherWord (keystreamWord t.key t.nonce t.ctrCur i) (16 * t.blk + i) := by
  rw [keystreamWord_first]
  exact xorStep_outWord (s := t.blockReady) hwf i hi

/-- R186: and leaves every byte outside its part of the message. -/
theorem blockReady_outByte_other (p : Nat)
    (hp : p < 64 * t.blk ∨ 64 * t.blk + 64 ≤ p ∨ t.msgLen.toNat ≤ 4 * (p / 4)) :
    (xorStep t.blockReady).outByte p = t.outByte p :=
  xorStep_outByte_other (s := t.blockReady) hwf p hp

/-- R186: a STREAM with one block to come ends with it. -/
theorem State.StreamEnd.last (hlast : t.msgLen.toNat ≤ 64 * (t.blk + 1)) :
    t.StreamEnd 0 (xorStep t.blockReady) where
  words g hg := blockReady_outWord hwf ⟨g, by omega⟩ hg
  otherBytes p hp := blockReady_outByte_other hwf p (by omega)
  rest := by
    refine (xorStep_last (s := t.blockReady) hlast).trans ?_
    simp only [State.blockReady, BitVec.add_zero, Nat.add_zero, Nat.zero_add]

/-- R186, R187: a STREAM with more blocks to come ends as it does from its next LOAD on. -/
theorem State.StreamEnd.more {n : Nat} {u : State} (hmore : 64 * (t.blk + 1) < t.msgLen.toNat)
    (h : (xorStep t.blockReady).StreamEnd n u) : t.StreamEnd (n + 1) u := by
  have hx := xorStep_more (s := t.blockReady) hmore
  have hword := blockReady_outWord hwf
  have hbyte := blockReady_outByte_other hwf
  generalize xorStep t.blockReady = v at h hx hword hbyte
  obtain ⟨hwords, hother, hrest⟩ := h
  have hblk : v.blk = t.blk + 1 := by rw [hx]; rfl
  have hlen : v.msgLen = t.msgLen := by rw [hx]; rfl
  refine ⟨fun g hg => ?_, fun p hp => ?_, ?_⟩
  · by_cases hfirst : g < 16
    · rw [← hword ⟨g, hfirst⟩ hg]
      exact State.outWord_congr fun p hp => hother p (by omega)
    · obtain ⟨k, rfl⟩ : ∃ k, g = 16 * 1 + k := ⟨g - 16, by omega⟩
      have hk := hwords k (by rw [hblk, hlen]; omega)
      rw [hblk, show 16 * (t.blk + 1) + k = 16 * t.blk + (16 * 1 + k) by omega] at hk
      rw [hk, keystreamWord_add, hx]
      rfl
  · rw [hother p (by rw [hblk, hlen]; omega), hbyte p (by omega)]
  · refine hrest.trans ?_
    rw [hx]
    simp only [State.blockReady, add_one_add_ofNat, Nat.add_assoc, Nat.add_comm 1]

end

/-- R183, R246: a STREAM in PHASE LOAD with `n + 1` blocks to come completes after 83 Core steps for each. -/
theorem run_streamBlocks (n : Nat) : ∀ t : State, t.Running .load → t.opc = .stream → t.outBuf.wf = true →
    64 * (t.blk + n) < t.msgLen.toNat → t.msgLen.toNat ≤ 64 * (t.blk + n + 1) →
    ∃ u, runSteps (83 * (n + 1)) t = .next u ∧ t.StreamEnd n u := by
  induction n with
  | zero =>
    intro t hrun ho hwf _ hlast
    exact ⟨_, run_streamBlock hrun ho, State.StreamEnd.last hwf hlast⟩
  | succ n ih =>
    intro t hrun ho hwf hmore hlast
    have hblock : runSteps 83 t = .next (xorStep t.blockReady) := run_streamBlock hrun ho
    have hx := xorStep_more (s := t.blockReady) (by show 64 * (t.blk + 1) < t.msgLen.toNat; omega)
    have hwf' : (xorStep t.blockReady).outBuf.wf = true := xorStep_wf hwf
    have hnext := ih (xorStep t.blockReady)
    have hend := fun u => State.StreamEnd.more (n := n) (u := u) hwf (by omega)
    generalize xorStep t.blockReady = v at hblock hx hwf' hnext hend
    have hblk : v.blk = t.blk + 1 := by rw [hx]; rfl
    have hlen : v.msgLen = t.msgLen := by rw [hx]; rfl
    have hvrun : v.Running .load := by rw [hx]; exact ⟨hrun.turns, hrun.rstN, hrun.busy, rfl⟩
    have hvo : v.opc = .stream := by rw [hx]; exact ho
    obtain ⟨u, hu, hue⟩ := hnext hvrun hvo hwf' (by rw [hblk, hlen]; omega) (by rw [hblk, hlen]; omega)
    refine ⟨u, ?_, hend u hue⟩
    rw [show 83 * (n + 1 + 1) = 83 + 83 * (n + 1) by omega, run_add 83 _ hblock, hu]

/-- R183: the last block of a message is the one its last byte lies in. -/
theorem blockCount_of_pos {len : Nat} (h : 0 < len) :
    ∃ n, blockCount len = n + 1 ∧ 64 * n < len ∧ len ≤ 64 * (n + 1) := by
  refine ⟨(len - 1) / 64, ?_, by omega, by omega⟩
  unfold blockCount
  omega

/-- Settles O28: an accepted STREAM has all its blocks to come, the first with CTR_CUR = COUNTER. -/
theorem streamComputesTheCipher : Obligations.StreamComputesTheCipher := by
  rintro s _ _ hq hl hwf rfl rfl h0 hm
  obtain ⟨n, hn, hmore, hlast⟩ := blockCount_of_pos h0
  obtain ⟨hexec, hrun⟩ := exec_stream_accepted hq hl h0 hm
  obtain ⟨u, hu, hwords, hother, hrest⟩ := run_streamBlocks n (s.startDriver.accept .stream .load) hrun rfl hwf
    (by simpa using hmore) (by simpa using hlast)
  rw [hn]
  refine ⟨_, u, hexec, rfl, hu, fun g hg => ?_, fun p hp => hother p (.inr ?_), ?_⟩
  · have hword := hwords g (by simpa using hg)
    rw [State.accept_blk, State.startDriver_blk, Nat.mul_zero, Nat.zero_add] at hword
    exact hword
  · show s.msgLen.toNat ≤ 4 * (p / 4)
    unfold wordCount at hp
    omega
  · refine hrest.trans ?_
    simp only [State.accept, State.startDriver, Nat.zero_add, Nat.add_sub_cancel]

/-! ### The output in bytes (R188, R191, R194) -/

section
variable {s u : State} {len : Nat} (h : s.streamCompletes len u)
include h

/-- R188: a completed STREAM has the cipher word in each OUT word of its message. -/
theorem State.streamCompletes.outWord {g : Nat} (hg : 4 * g < len) :
    u.outWord g = s.cipherWord (keystreamWord s.key s.nonce s.counter g) g := by
  obtain ⟨hq, hl, hwf, rfl, h0, hm, t, hexec, hrun⟩ := h
  obtain ⟨t', u', hexec', -, hrun', hwords, -⟩ := streamComputesTheCipher s _ _ hq hl hwf rfl rfl h0 hm
  obtain rfl := Host.Outcome.next.inj (hexec.symm.trans hexec')
  obtain rfl := Host.Outcome.next.inj (hrun.symm.trans hrun')
  exact hwords g hg

/-- R188, R192: a completed STREAM has message byte XOR keystream byte in each OUT byte of its message, and zeros after
them up to the end of the last word. -/
theorem State.streamCompletes.outByte {p : Nat} (hp : 4 * (p / 4) < len) :
    u.outByte p = if p < len then s.inByte p ^^^ keystreamByte s.key s.nonce s.counter p else 0#8 := by
  have hword := h.outWord hp
  obtain ⟨-, -, -, rfl, -⟩ := h
  rw [State.outByte_eq, hword, State.byteOf_cipherWord _ _ hp, keystreamByte]

theorem State.streamCompletes.outByte_message {p : Nat} (hp : p < len) :
    u.outByte p = s.inByte p ^^^ keystreamByte s.key s.nonce s.counter p :=
  (h.outByte (by omega)).trans (if_pos hp)

theorem State.streamCompletes.outByte_tail {p : Nat} (hlen : len ≤ p) (hp : p < 4 * wordCount len) :
    u.outByte p = 0#8 := by
  unfold wordCount at hp
  exact (h.outByte (by omega)).trans (if_neg (by omega))

end

/-- Settles O29: a STREAM run to its end is one that completes. -/
theorem streamBytes : Obligations.StreamBytes := by
  intro s t u len hq hl hwf hlen h0 hm hexec hrun
  have h : s.streamCompletes len u := ⟨hq, hl, hwf, hlen, h0, hm, t, hexec, hrun⟩
  exact ⟨fun _ => h.outByte_message, fun _ => h.outByte_tail⟩

/-- Settles O30: both STREAMs have the same keystream, and XOR with it twice is the identity. -/
theorem streamRoundTrip : Obligations.StreamRoundTrip := by
  intro s t u s' t' u' len hq hl hwf hlen h0 hm hexec hrun hq' hl' hwf' hkey hnonce hcounter hmsg hin hexec' hrun'
  have h : s.streamCompletes len u := ⟨hq, hl, hwf, hlen, h0, hm, t, hexec, hrun⟩
  have h' : s'.streamCompletes len u' := ⟨hq', hl', hwf', hmsg ▸ hlen, h0, hm, t', hexec', hrun'⟩
  refine ⟨fun p hp => ?_, fun _ => h'.outByte_tail⟩
  rw [h'.outByte_message hp, hin p hp, h.outByte_message hp, hkey, hnonce, hcounter, BitVec.xor_assoc, BitVec.xor_self,
    BitVec.xor_zero]

/-- Settles O31: the part's keystream is the whole message's from byte `64 j` on. -/
theorem streamInPartsGivesTheWholeOutput : Obligations.StreamInPartsGivesTheWholeOutput := by
  intro s' u' len' j c h' hc
  have hpart : ∀ p, p < len' → u'.outByte p = s'.inByte p ^^^ keystreamByte s'.key s'.nonce c (64 * j + p) := by
    intro p hp
    rw [h'.outByte_message hp, hc, keystreamByte_add]
  refine ⟨hpart, fun s u len h hkey hnonce hcounter hfit hin p hp => ?_⟩
  rw [hpart p hp, h.outByte_message (by omega), hin p hp, hkey, hnonce, hcounter]

/-! ### The empty message (R182, R205) -/

theorem State.Running.step_fin {s : State} (h : s.Running .fin) : step s = .next s.complete := by
  rw [h.step_eq]
  simp only [coreStep, h.phase]
  rfl

/-- R111, R182: of a loaded core's empty message STREAM checks EMPTY_ERR alone. -/
theorem State.checkCommand_stream_empty {s : State} (hl : s.loaded) (h0 : s.msgLen = 0#32) :
    s.checkCommand .stream = if s.emptyErr then some .emptyMessage else none := by
  simp [State.checkCommand, State.checkKeyNonce_loaded hl, State.checkMessage, h0]

/-- Settles O26: with EMPTY_ERR 0 the STREAM is accepted into PHASE FIN, whose one step only completes. -/
theorem emptyStream : Obligations.EmptyStream := by
  intro s hq hl h0
  have hquiet : s.startDriver.quiet := hq
  obtain ⟨-, hidle, -⟩ := hq
  have hcheck := State.checkCommand_stream_empty hl h0
  refine ⟨fun he => ?_, fun he => exec_rejected hidle (by rw [hcheck, if_pos he])⟩
  have hpass : s.checkCommand .stream = none := by
    rw [hcheck, he]
    rfl
  obtain ⟨haccept, -⟩ := exec_unchecked (by decide) hpass
  have hissued : s.issued .stream = s.startDriver.accept .stream .fin := by rw [State.issued, if_pos h0]
  refine ⟨_, (haccept hidle).trans (congrArg _ hissued), rfl, ?_⟩
  rw [run_one]
  exact (hquiet.running_accept .stream .fin).step_fin

end Sys2Proof.Machine
end

section
/-! PROOFS. The family 60_exceptions: how an error is recorded, what issue rejects, and the interrupt line. -/

namespace Sys2Proof.Machine

/-! ### Recording an error (R201, R208) -/

/-- Settles O33: the two cases of `raise`. -/
theorem raiseKeepsTheFirstError : Obligations.RaiseKeepsTheFirstError := fun _ e =>
  ⟨State.raise_of_no_error e, State.raise_of_error e⟩

/-- Settles O34: a busy core refuses the command, and a refusal only raises COMMAND_WHILE_BUSY. -/
theorem commandWhileBusyIsDiscarded : Obligations.CommandWhileBusyIsDiscarded := fun _ _ hi hb => exec_busy hi hb

/-! ### Validation (R111, R203 to R206) -/

/-- R111: INIT, BLOCK and STREAM have the key and nonce checks first. -/
theorem State.checkCommand_of_checkKeyNonce {s : State} {i : Instr} {e : ErrorCode}
    (hi : i = .init ∨ i = .block ∨ i = .stream) (h : s.checkKeyNonce = some e) : s.checkCommand i = some e := by
  obtain rfl | rfl | rfl := hi
  · exact h
  · exact h
  · rw [State.checkCommand, h, Option.some_or]

/-- R206: a loaded core's STREAM checks the length next, whatever EMPTY_ERR is. -/
theorem State.checkCommand_stream_tooLong {s : State} (hl : s.loaded) (h : s.msgLen.toNat > 4 * Config.msgWords) :
    s.checkCommand .stream = some .lengthTooLarge := by
  rw [State.checkCommand, State.checkKeyNonce_loaded hl, Option.none_or]
  exact if_pos h

/-- Settles O27: each clause names the first check that fails. -/
theorem validationErrors : Obligations.ValidationErrors := by
  intro s c hc
  simp only [List.mem_cons, List.not_mem_nil, or_false] at hc
  have hnop : c ≠ .nop := by obtain rfl | rfl | rfl := hc <;> decide
  refine ⟨exec_busy hnop, fun hb hk => ?_, fun hb hk hn => ?_, ?_, ?_⟩
  · exact exec_rejected hb (State.checkCommand_of_checkKeyNonce hc (State.checkKeyNonce_badKey hk))
  · exact exec_rejected hb (State.checkCommand_of_checkKeyNonce hc (State.checkKeyNonce_badNonce hk hn))
  · rintro hb hl rfl hlen
    exact exec_rejected hb (State.checkCommand_stream_tooLong hl hlen)
  · rintro hb hl rfl h0 he
    exact exec_rejected hb (by rw [State.checkCommand_stream_empty hl h0, if_pos he])

/-! ### The interrupt (R210) -/

section
variable (s : State)

theorem State.irq_eq_true_iff : s.irq = true ↔ s.irqEn = true ∧ (s.done = true ∨ s.err = true) := by
  rw [State.irq, Bool.and_eq_true, Bool.or_eq_true]

/-- R29: a STATUS write that clears DONE and ERR lowers the interrupt. -/
theorem State.irq_writeStatus {v : Word} (hdone : v.getLsbD 1 = true) (herr : v.getLsbD 2 = true) :
    (s.writeStatus v).irq = false := by
  rw [State.irq, State.writeStatus_done, State.writeStatus_err, hdone, herr]
  simp only [Bool.not_true, Bool.and_false, Bool.or_false]

/-- R26: a CTRL write that clears IRQ_EN lowers the interrupt. -/
theorem State.irq_writeCtrl {v : Word} (hen : v.getLsbD 1 = false) : (s.writeCtrl v).irq = false := by
  rw [State.irq, State.writeCtrl_irqEn, hen, Bool.false_and]

end

/-- Settles O38: STATUS and CTRL are registers of the map, and the step is the register's own write. -/
theorem interruptLevel : Obligations.InterruptLevel := by
  refine ⟨State.irq_eq_true_iff, fun s t v ts h hdone herr ht => ?_, fun s t v ts h hen ht => ?_⟩
  · rw [step_write h (targetOfOffset_register rfl)] at ht
    cases ht
    exact State.irq_writeStatus _ hdone herr
  · rw [step_write h (targetOfOffset_register rfl)] at ht
    cases ht
    exact State.irq_writeCtrl _ hen

end Sys2Proof.Machine
end

section
/-! PROOFS. The family 70_reset_and_hazards: the reset state, the reset pin, the core held in reset, and how long a
BLOCK is busy. -/

namespace Sys2Proof.Machine

/-! ### The reset state and the reset pin (R226 to R229) -/

/-- R229: the flags read as 0 after reset. -/
theorem State.statusWord_reset : State.reset.statusWord = 0#32 := by decide

/-- R229: the interrupt is masked after reset. -/
theorem State.irq_reset : State.reset.irq = false := rfl

/-- Settles O50: the scalar registers hold their reset values as they stand, the vectors word by word. -/
theorem resetValues : Obligations.ResetValues :=
  ⟨rfl, rfl, rfl, rfl, rfl, rfl, rfl, rfl, rfl, rfl, rfl, rfl, rfl, rfl, rfl, rfl, rfl, rfl, rfl, rfl, rfl, rfl, rfl,
    rfl, rfl, State.statusWord_reset, State.irq_reset,
    fun _ => ⟨Vector.getElem_replicate _, Vector.getElem_replicate _⟩,
    fun _ => Vector.getElem_replicate _, fun _ => Vector.getElem_replicate _⟩

/-- R226: a low level resets the core, whatever the level was. -/
theorem step_rstPin_low {s : State} {ts : List Turn} (h : s.turns = .rstPin false :: ts) :
    step s = .next ((s.withTurns ts).resetTo false) := step_rstPin h

/-- R227: a rising edge releases the core in the reset state. -/
theorem step_rstPin_release {s : State} {ts : List Turn} (h : s.turns = .rstPin true :: ts) (hr : s.rstN = false) :
    step s = .next ((s.withTurns ts).resetTo true) := by
  rw [step_rstPin h, resetPinTurn, State.withTurns_rstN, hr]
  rfl

/-- Settles O51: the low level and the edge that ends it are two resets, and each begins an epoch. -/
theorem resetPinGivesResetState : Obligations.ResetPinGivesResetState := by
  intro s h
  have hrun := (run_succ 1 (step_rstPin_low h)).trans ((run_one _).trans (step_rstPin_release rfl rfl))
  have hepoch : s.epoch < s.epoch + 1 + 1 := by omega
  exact ⟨_, hrun, State.resetTo_eq _ true, hepoch⟩

/-- Settles O52: in reset the bus answers every access with an error, and the Core's turn is idle. -/
theorem nothingHappensInReset : Obligations.NothingHappensInReset := by
  intro s a ts hr
  refine ⟨fun hts => ?_, fun hts => ?_⟩
  · rw [step_host hts]
    exact busAccess_in_reset hr
  · rw [step_core hts]
    exact coreTurn_idle (.inl hr)

/-! ### How long a BLOCK is busy (R246) -/

/-- The first steps of a run that answers a next state. -/
theorem run_add_inv (k n : Nat) {s u : State} (h : runSteps (k + n) s = .next u) :
    ∃ t, runSteps k s = .next t ∧ runSteps n t = .next u := by
  induction k generalizing s with
  | zero => exact ⟨s, rfl, by rwa [Nat.zero_add] at h⟩
  | succ k ih =>
    rw [Nat.succ_add] at h
    obtain ⟨v, hv, hrest⟩ := run_succ_inv h
    obtain ⟨t, ht, htail⟩ := ih hrest
    exact ⟨t, (run_succ k hv).trans ht, htail⟩

/-- R20: nothing moves while no turn is scheduled and the core is idle. -/
theorem run_idle {s : State} (ht : s.turns = []) (hb : s.busy = false) (n : Nat) : runSteps n s = .next s := by
  induction n with
  | zero => rfl
  | succ n ih => rw [run_succ n ((step_quiet ht).trans (coreTurn_idle (.inr hb))), ih]

/-- With no turn scheduled a step schedules none. -/
theorem step_keeps_no_turns {s t : State} (hts : s.turns = []) (h : step s = .next t) : t.turns = [] := by
  rw [step_quiet hts] at h
  cases hrun : s.rstN && s.busy
  · rw [coreTurn_idle (Bool.and_eq_false_iff.mp hrun)] at h
    cases h
    exact hts
  · obtain ⟨hr, hb⟩ := Bool.and_eq_true_iff.mp hrun
    rw [coreTurn_busy hr hb] at h
    exact (coreStep_world h).2.trans hts

theorem run_keeps_no_turns (k : Nat) {s t : State} (hts : s.turns = []) (h : runSteps k s = .next t) :
    t.turns = [] := by
  induction k generalizing s with
  | zero =>
    cases h
    exact hts
  | succ k ih =>
    obtain ⟨v, hv, hrest⟩ := run_succ_inv h
    exact ih (step_keeps_no_turns hts hv) hrest

/-- A core left alone that is busy after a run was busy all along: an idle one stays idle. -/
theorem run_busy_before {k n : Nat} {s u : State} (hts : s.turns = []) (h : runSteps n s = .next u)
    (hu : u.busy = true) (hk : k ≤ n) : ∃ t, runSteps k s = .next t ∧ t.busy = true := by
  obtain ⟨m, rfl⟩ := Nat.exists_eq_add_of_le hk
  obtain ⟨t, ht, htail⟩ := run_add_inv k m h
  refine ⟨t, ht, ?_⟩
  by_contra hidle
  rw [run_idle (run_keeps_no_turns k hts ht) (Bool.eq_false_of_not_eq_true hidle) m] at htail
  cases htail
  exact hidle hu

/-- Settles O25: after LOAD and the rounds a BLOCK is still busy, so it was before; the feed-forward is its last step. -/
theorem blockTakesEightyTwoSteps : Obligations.BlockTakesEightyTwoSteps := by
  intro s k hq hl hk
  obtain ⟨haccept, -⟩ := exec_keyNonceChecked (.inr rfl) s
  obtain ⟨-, hidle, -⟩ := id hq
  have hrun : (s.issued .block).Running .load := hq.running_driver .block
  rcases hk.lt_or_eq with hlt | rfl
  · have hopc : (s.issued .block).opc = .block := rfl
    have hrounds := run_loadAndRounds hrun (by rw [hopc]; decide) (by rw [hopc]; decide)
    obtain ⟨u, hu, hbusy⟩ := run_busy_before hrun.turns hrounds hrun.busy (Nat.le_of_lt_succ hlt)
    exact ⟨_, u, haccept hidle hl, hu, iff_of_true hbusy hlt⟩
  · exact ⟨_, _, haccept hidle hl, run_block hrun rfl, iff_of_false Bool.false_ne_true (Nat.lt_irrefl 82)⟩

end Sys2Proof.Machine
end
